-- ==== Sys2Proof/Word.lean ====
section
/-! DEFINITION. The word types of the TFHE torus core (spec 00_scope.md R7, 40_torus_value.md R55). -/

namespace Sys2Proof

/-- One byte lane of the host bus (20_memory.md R35). -/
abbrev Byte := BitVec 8

/-- A 64-bit bus word: a control register, a scratchpad word, a command word or a binary64 bit
pattern (20_memory.md R36, 00_scope.md R11). -/
abbrev Word := BitVec 64

/-- The `raw` of one torus coefficient: a W-bit unsigned integer, held as the integer itself because
every rule of 40_torus_value.md computes on mathematical integers (00_scope.md R8, 40_torus_value.md
R55). W is a parameter of the instance; that a raw is below 2^W is an invariant of the machine. -/
abbrev Coeff := Nat

end Sys2Proof
end

