-- ==== Sys2Proof/Config.lean ====
section
/-! DEFINITION. The implementation parameters of 00_scope.md R5. Every value of `Config` is a legal
instance by construction; `Config.default` is the column "default" of R5. -/

namespace Sys2Proof

/-- The legal coefficient widths W (00_scope.md R5, D2). -/
inductive Width where
  | w64
  | w128
  deriving DecidableEq, Repr

/-- The tie rule of real encoding, REAL_TIE (00_scope.md R5, R10; D9). -/
inductive RealTie where
  | halfUp
  | halfEven
  deriving DecidableEq, Repr

/-- The multiplier algorithm, MUL_IMPL; no result depends on it (00_scope.md R5, 42_ring_arith.md R83). -/
inductive MulImpl where
  | naive
  | transform
  deriving DecidableEq, Repr

/-- One instance of the core. A count is held minus one, as CAP reports it, in the width its legal
range needs: NPREG 1 to 64, NMAX 1 to 65536, SPAD_WORDS 1 to 32768 (00_scope.md R5, 10_state.md R24). -/
structure Config where
  width     : Width
  npregM1   : BitVec 6
  nmaxM1    : BitVec 16
  spadM1    : BitVec 15
  fencQuant : Bool
  realTie   : RealTie
  mulImpl   : MulImpl
  deriving DecidableEq, Repr

/-- The default instance (00_scope.md R5; its CAP is given in 95_test_vectors.md). -/
def Config.default : Config :=
  { width := .w64, npregM1 := 15, nmaxM1 := 4095, spadM1 := 16383, fencQuant := false,
    realTie := .halfUp, mulImpl := .naive }

/-- W, the width in bits of a coefficient. -/
def Config.w (cfg : Config) : Nat :=
  match cfg.width with
  | .w64 => 64
  | .w128 => 128

/-- EW = W / 64, the scratchpad words of one integer element (00_scope.md R5). -/
def Config.ew (cfg : Config) : Nat := cfg.w / 64

/-- NPREG, the number of torus registers. -/
def Config.npreg (cfg : Config) : Nat := cfg.npregM1.toNat + 1

/-- NMAX, the largest polynomial length. -/
def Config.nmax (cfg : Config) : Nat := cfg.nmaxM1.toNat + 1

/-- SPAD_WORDS, the number of scratchpad words. -/
def Config.spadWords (cfg : Config) : Nat := cfg.spadM1.toNat + 1

/-- Which 512 KiB block the platform gives the window: OPEN in 00_scope.md R5 (D22), so nothing here
fixes it (log 4). -/
opaque Config.baseBlock : Nat

/-- BASE, a multiple of 0x80000 (20_memory.md R34). -/
def Config.base : Nat := 0x80000 * Config.baseBlock

/-- The platform address of a window offset (20_memory.md R34, R44). No step reads it. -/
def Config.platformAddress (offset : Nat) : Nat := Config.base + offset

end Sys2Proof
end

