-- ==== Sys2Proof/Syntax.lean ====
section
/-! DEFINITION. The nine commands (30_encoding.md R47; opcode_table.json), in the operands of the
assembler syntax of R52: the assembler writes N, not LEN, and an exponent k, not p. -/

namespace Sys2Proof

/-- One command. `rd`, `rs1`, `rs2` are torus register indices, `k` the modulus exponent (p = 2^k),
`bcast` the B flag, `n` the polynomial length N, `addr` the scratchpad word address of the first
element (30_encoding.md R46, R47). -/
inductive Instr where
  /-- PENC.I: batched integer encode (41_polynomial_codec.md R70). -/
  | pencI (rd k : Nat) (bcast : Bool) (n addr : Nat)
  /-- PENC.R: batched real encode (41_polynomial_codec.md R71). -/
  | pencR (rd : Nat) (bcast : Bool) (n addr : Nat)
  /-- PENC.F: batched bounded-real encode (41_polynomial_codec.md R72). -/
  | pencF (rd k : Nat) (bcast : Bool) (n addr : Nat)
  /-- PDEC.I: batched integer decode (41_polynomial_codec.md R74). -/
  | pdecI (rs1 k addr : Nat)
  /-- PDEC.R: batched real decode (41_polynomial_codec.md R75). -/
  | pdecR (rs1 k addr : Nat)
  /-- PDEC.F: batched bounded-real decode (41_polynomial_codec.md R76). -/
  | pdecF (rs1 k addr : Nat)
  /-- TADD: torus addition (42_ring_arith.md R79). -/
  | tadd (rd rs1 rs2 : Nat)
  /-- TSUB: torus subtraction (42_ring_arith.md R80). -/
  | tsub (rd rs1 rs2 : Nat)
  /-- TMUL: negacyclic multiplication (42_ring_arith.md R82). -/
  | tmul (rd rs1 rs2 k : Nat)
  deriving DecidableEq, Repr

end Sys2Proof
end

