-- ==== Sys2Proof/WellFormed.lean ====
section
/-! DEFINITION. Which commands can be encoded: the ranges an assembler accepts (30_encoding.md R46,
R52: it "refuses a register index above 63, a k above 255, an N outside 1..65536 and an addr above
32767"). -/

namespace Sys2Proof

/-- A 6-bit register index. -/
def regEncodable (r : Nat) : Bool := decide (r ≤ 63)

/-- An 8-bit modulus exponent. -/
def expEncodable (k : Nat) : Bool := decide (k ≤ 255)

/-- A length N in 1..65536. -/
def lenEncodable (n : Nat) : Bool := decide (1 ≤ n) && decide (n ≤ 65536)

/-- A 15-bit scratchpad word address. -/
def addrEncodable (a : Nat) : Bool := decide (a ≤ 32767)

/-- The command has an encoding. -/
def Instr.wellFormed : Instr → Bool
  | .pencI rd k _ n addr => regEncodable rd && expEncodable k && lenEncodable n && addrEncodable addr
  | .pencR rd _ n addr => regEncodable rd && lenEncodable n && addrEncodable addr
  | .pencF rd k _ n addr => regEncodable rd && expEncodable k && lenEncodable n && addrEncodable addr
  | .pdecI rs1 k addr => regEncodable rs1 && expEncodable k && addrEncodable addr
  | .pdecR rs1 k addr => regEncodable rs1 && expEncodable k && addrEncodable addr
  | .pdecF rs1 k addr => regEncodable rs1 && expEncodable k && addrEncodable addr
  | .tadd rd rs1 rs2 => regEncodable rd && regEncodable rs1 && regEncodable rs2
  | .tsub rd rs1 rs2 => regEncodable rd && regEncodable rs1 && regEncodable rs2
  | .tmul rd rs1 rs2 k =>
    regEncodable rd && regEncodable rs1 && regEncodable rs2 && expEncodable k

end Sys2Proof
end

