-- ==== Sys2Proof/Decode.lean ====
section
/-! DEFINITION. Decoding and encoding of command words (30_encoding.md R45 to R53). The decoder is total
on 64-bit words and refuses by name; the encoder is written from the same field table. -/

namespace Sys2Proof

/-- Why a word is no command. Both reasons are reported as ILLEGAL_COMMAND at Execute (30_encoding.md
R48, R49; 60_exceptions.md R86). -/
inductive DecodeError where
  /-- OP is 0x00, 0x04 or 0x0B to 0x3F (R49). -/
  | reservedOp (op : Nat)
  /-- OP is one of the nine, and a field R47 marks 0 for it is not zero (R48). -/
  | reservedField (op : Nat)
  deriving DecidableEq, Repr

/-- `c[hi:lo]`, inclusive, as an unsigned number (00_scope.md R7). -/
def slice (c : Word) (hi lo : Nat) : Nat := c.toNat / 2 ^ lo % 2 ^ (hi + 1 - lo)

/-- The fields of a command word, one each (30_encoding.md R45). -/
def opOf (c : Word) : Nat := slice c 5 0
def rdOf (c : Word) : Nat := slice c 11 6
def rs1Of (c : Word) : Nat := slice c 17 12
def rs2Of (c : Word) : Nat := slice c 23 18
def kOf (c : Word) : Nat := slice c 31 24
def bOf (c : Word) : Nat := slice c 32 32
def lenOf (c : Word) : Nat := slice c 48 33
def addrOf (c : Word) : Nat := slice c 63 49

/-- The command if every reserved-zero field of its OP is zero (R48). -/
def ifReservedZero (c : Word) (reserved : List Nat) (i : Instr) : Except DecodeError Instr :=
  if reserved.all (· == 0) then .ok i else .error (.reservedField (opOf c))

/-- Decode a command word (30_encoding.md R46 to R50). -/
def decode (c : Word) : Except DecodeError Instr :=
  match opOf c with
  | 0x01 => ifReservedZero c [rs1Of c, rs2Of c]
      (.pencI (rdOf c) (kOf c) (bOf c == 1) (lenOf c + 1) (addrOf c))
  | 0x02 => ifReservedZero c [rs1Of c, rs2Of c, kOf c]
      (.pencR (rdOf c) (bOf c == 1) (lenOf c + 1) (addrOf c))
  | 0x03 => ifReservedZero c [rs1Of c, rs2Of c]
      (.pencF (rdOf c) (kOf c) (bOf c == 1) (lenOf c + 1) (addrOf c))
  | 0x05 => ifReservedZero c [rdOf c, rs2Of c, bOf c, lenOf c] (.pdecI (rs1Of c) (kOf c) (addrOf c))
  | 0x06 => ifReservedZero c [rdOf c, rs2Of c, bOf c, lenOf c] (.pdecR (rs1Of c) (kOf c) (addrOf c))
  | 0x07 => ifReservedZero c [rdOf c, rs2Of c, bOf c, lenOf c] (.pdecF (rs1Of c) (kOf c) (addrOf c))
  | 0x08 => ifReservedZero c [kOf c, bOf c, lenOf c, addrOf c] (.tadd (rdOf c) (rs1Of c) (rs2Of c))
  | 0x09 => ifReservedZero c [kOf c, bOf c, lenOf c, addrOf c] (.tsub (rdOf c) (rs1Of c) (rs2Of c))
  | 0x0A => ifReservedZero c [bOf c, lenOf c, addrOf c]
      (.tmul (rdOf c) (rs1Of c) (rs2Of c) (kOf c))
  | op => .error (.reservedOp op)

/-- Put the eight fields into their places (30_encoding.md R45). -/
def assemble (op rd rs1 rs2 k b len addr : Nat) : Word :=
  BitVec.ofNat 64 (op + rd * 2 ^ 6 + rs1 * 2 ^ 12 + rs2 * 2 ^ 18 + k * 2 ^ 24 + b * 2 ^ 32
    + len * 2 ^ 33 + addr * 2 ^ 49)

/-- The command word of a well-formed command; fields it does not use are 0, and LEN = N - 1
(30_encoding.md R47, R52). -/
def encode : Instr → Word
  | .pencI rd k bcast n addr => assemble 0x01 rd 0 0 k bcast.toNat (n - 1) addr
  | .pencR rd bcast n addr => assemble 0x02 rd 0 0 0 bcast.toNat (n - 1) addr
  | .pencF rd k bcast n addr => assemble 0x03 rd 0 0 k bcast.toNat (n - 1) addr
  | .pdecI rs1 k addr => assemble 0x05 0 rs1 0 k 0 0 addr
  | .pdecR rs1 k addr => assemble 0x06 0 rs1 0 k 0 0 addr
  | .pdecF rs1 k addr => assemble 0x07 0 rs1 0 k 0 0 addr
  | .tadd rd rs1 rs2 => assemble 0x08 rd rs1 rs2 0 0 0 0
  | .tsub rd rs1 rs2 => assemble 0x09 rd rs1 rs2 0 0 0 0
  | .tmul rd rs1 rs2 k => assemble 0x0A rd rs1 rs2 k 0 0 0

/-- The command the decoder reads from a word whose low `nbits` bits are `w`'s and whose other bits
are 0; a command is one 64-bit word, so there is none for more bits (30_encoding.md R51). -/
def decodeTableWord (nbits w : Nat) : Option Instr :=
  if nbits ≤ 64 then
    match decode (BitVec.ofNat 64 (w % 2 ^ nbits)) with
    | .ok i => some i
    | .error _ => none
  else none

/-- The pseudo-instructions and their expansions (30_encoding.md R53): the scalar forms are the
length-1 commands, and `tld`, `tst` move raw words with K = W. -/
def tencI (rd k addr : Nat) : Instr := .pencI rd k false 1 addr
def tencR (rd addr : Nat) : Instr := .pencR rd false 1 addr
def tencF (rd k addr : Nat) : Instr := .pencF rd k false 1 addr
def tdecI (rs1 k addr : Nat) : Instr := .pdecI rs1 k addr
def tdecR (rs1 k addr : Nat) : Instr := .pdecR rs1 k addr
def tdecF (rs1 k addr : Nat) : Instr := .pdecF rs1 k addr
def tld (cfg : Config) (rd n addr : Nat) : Instr := .pencI rd cfg.w false n addr
def tst (cfg : Config) (rs1 addr : Nat) : Instr := .pdecI rs1 cfg.w addr

/-- The mnemonic with its `.b` suffix (30_encoding.md R52). -/
def mnemonicB (name : String) (bcast : Bool) : String := if bcast then name ++ ".b" else name

/-- `name tA, tB, x, y`: registers first, immediates in decimal (30_encoding.md R52). -/
def asmLine (name : String) (regs imms : List Nat) : String :=
  name ++ " " ++ String.intercalate ", "
    (regs.map (fun r => "t" ++ toString r) ++ imms.map toString)

/-- The assembler text of a command (30_encoding.md R52). -/
def assembly : Instr → String
  | .pencI rd k bcast n addr => asmLine (mnemonicB "penc.i" bcast) [rd] [k, n, addr]
  | .pencR rd bcast n addr => asmLine (mnemonicB "penc.r" bcast) [rd] [n, addr]
  | .pencF rd k bcast n addr => asmLine (mnemonicB "penc.f" bcast) [rd] [k, n, addr]
  | .pdecI rs1 k addr => asmLine "pdec.i" [rs1] [k, addr]
  | .pdecR rs1 k addr => asmLine "pdec.r" [rs1] [k, addr]
  | .pdecF rs1 k addr => asmLine "pdec.f" [rs1] [k, addr]
  | .tadd rd rs1 rs2 => asmLine "tadd" [rd, rs1, rs2] []
  | .tsub rd rs1 rs2 => asmLine "tsub" [rd, rs1, rs2] []
  | .tmul rd rs1 rs2 k => asmLine "tmul" [rd, rs1, rs2] [k]

end Sys2Proof
end

