-- ==== Sys2Proof/Machine/State.lean ====
section
/-! DEFINITION. The state of the core and of its two agents, as plain data, and the state after reset
(spec 10_state.md, 20_memory.md, 70_reset_and_hazards.md). -/

namespace Sys2Proof.Machine

/-- Why the machine stops. -/
inductive Fault where
  /-- Raised by an encode command or a host read that reads a scratchpad word nothing has written since
  power-on (10_state.md R31; 93_implementation_defined.md row "Scratchpad contents at power-on";
  90_conflicts.md C6). Safe: on the chip such a read returns a value no rule names. -/
  | unwrittenScratchpadRead
  /-- Raised by a host access while `rst` is asserted: the core answers none, and the host has no step
  (70_reset_and_hazards.md R100; 93 row "Host access while `rst` is asserted": stuck). Safe. -/
  | hostAccessDuringReset
  deriving DecidableEq, Repr

/-- Why an instruction is refused. -/
inductive Refusal where
  /-- Raised by exec's arm of an instruction that has no meaning yet; no arm does so now. Safe. -/
  | notModelled (mnemonic : String)
  deriving DecidableEq, Repr

/-- The error codes of 60_exceptions.md R86, NONE among them. No other code is ever produced. -/
inductive ErrorCode where
  | none
  | invalidModulus
  | sizeMismatch
  | rangeMismatch
  | illegalCommand
  | invalidRegister
  | emptyRegister
  | lengthTooLarge
  | addressRange
  | nonFiniteInput
  deriving DecidableEq, Repr

/-- The fields of STATUS (10_state.md R26); its reserved bits read 0. -/
structure Status where
  busy  : Bool
  done  : Bool
  err   : Bool
  ecode : ErrorCode
  haz   : Bool
  deriving DecidableEq, Repr

/-- What a valid torus register holds: the coefficients of one TorusPolynomial, `coeff[j]` that of X^j;
`len` is their number (10_state.md R15, R18). -/
structure TorusPoly where
  coeff : List Coeff
  deriving DecidableEq, Repr

/-- Scratchpad memory: the bytes written since power-on, by window byte offset, offsets strictly rising.
An unlisted byte has no value (log 1). -/
abbrev Memory := List Host.Cell

/-- What a host access does: a read, or a write of `data`. -/
inductive AccessKind where
  | read
  | write (data : Word)
  deriving DecidableEq, Repr

/-- One host-bus access: its window byte offset, the bits it moves and its byte-lane enables
(20_memory.md R32, R36). -/
structure Access where
  kind   : AccessKind
  offset : BitVec 19
  width  : Nat
  strobe : BitVec 8
  deriving DecidableEq, Repr

/-- What a host access gets back: a read's data, a write's completion, or a bus error without data
(20_memory.md R36, R37, R38). -/
inductive Response where
  | data (v : Word)
  | done
  | busError
  deriving DecidableEq, Repr

/-- One turn of the interleaving the spec leaves open (10_state.md R14, R29): a host access, the core's
Execute step if it is enabled, a level put on the `rst` input, or power lost and returned (log 2). -/
inductive Event where
  | host (a : Access)
  | core
  | rst (asserted : Bool)
  | powerCycle
  deriving DecidableEq, Repr

/-- The machine.
* `cfg`: the instance's parameters; no step changes them (00_scope.md R5; log 3).
* `regs`: the torus registers T0 to T63; `none` is valid = 0, and those at or above NPREG do not exist
  and stay `none` (10_state.md R15, R17).
* `cmd`, `status`, `rangeLo`, `rangeHi`: the stored control registers (10_state.md R25, R26, R28); CAP is
  a function of `cfg`, and CTRL stores nothing.
* `mem`: the scratchpad (10_state.md R21).
* `rst`: the level of the reset input (70_reset_and_hazards.md R100).
* `resp`: the response to the last host access (log 5).
* `events`: the turns still to come, first next (log 2). -/
structure State where
  cfg     : Config
  regs    : Vector (Option TorusPoly) 64
  cmd     : Word
  status  : Status
  rangeLo : Word
  rangeHi : Word
  mem     : Memory
  rst     : Bool
  resp    : Option Response
  events  : List Event
  deriving DecidableEq, Repr

/-- STATUS after reset: 0 (10_state.md R31). -/
def Status.reset : Status :=
  { busy := false, done := false, err := false, ecode := .none, haz := false }

/-- An instance right after reset following power-on: every register invalid, the control registers 0,
the scratchpad unwritten, nothing queued (10_state.md R31; 70_reset_and_hazards.md R100). -/
def State.resetOf (cfg : Config) : State :=
  { cfg := cfg
    regs := Vector.replicate 64 none
    cmd := 0
    status := Status.reset
    rangeLo := 0
    rangeHi := 0
    mem := []
    rst := false
    resp := none
    events := [] }

/-- The default instance right after reset (00_scope.md R5, 10_state.md R31). -/
def State.reset : State := State.resetOf Config.default

end Sys2Proof.Machine
end

