-- ==== Sys2Proof/Machine/Flags.lean ====
section
/-! DEFINITION. The control and status registers: the words CAP and STATUS read as, and every change a
rule makes to STATUS. The core has no other flags (10_state.md R20, R22 to R28). -/

namespace Sys2Proof.Machine

/-- The ECODE byte of an error (60_exceptions.md R86). -/
def ErrorCode.toNat : ErrorCode → Nat
  | .none => 0x00
  | .invalidModulus => 0x01
  | .sizeMismatch => 0x02
  | .rangeMismatch => 0x03
  | .illegalCommand => 0x10
  | .invalidRegister => 0x11
  | .emptyRegister => 0x12
  | .lengthTooLarge => 0x13
  | .addressRange => 0x14
  | .nonFiniteInput => 0x15

/-- STATUS as the host reads it: BUSY[0], DONE[1], ERR[2], ECODE[15:8], HAZ[16], the rest 0
(10_state.md R26). -/
def Status.word (st : Status) : Word :=
  BitVec.ofNat 64 (st.busy.toNat + st.done.toNat * 2 ^ 1 + st.err.toNat * 2 ^ 2
    + st.ecode.toNat * 2 ^ 8 + st.haz.toNat * 2 ^ 16)

/-- The legal combinations of STATUS (10_state.md R26): BUSY = 1 implies DONE = 0, ERR = 0 and ECODE = 0;
ERR = 1 exactly when DONE = 1 and ECODE is not 0. -/
def Status.legal (st : Status) : Bool :=
  (!st.busy || (!st.done && !st.err && st.ecode == .none)) &&
    (st.err == (st.done && st.ecode != .none))

/-- A command accepted: only BUSY is set; HAZ is kept (20_memory.md R39). -/
def Status.accepted (st : Status) : Status :=
  { busy := true, done := false, err := false, ecode := .none, haz := st.haz }

/-- Execute ended without error; HAZ is kept (10_state.md R29). -/
def Status.succeeded (st : Status) : Status :=
  { busy := false, done := true, err := false, ecode := .none, haz := st.haz }

/-- Execute ended with error `e`; HAZ is kept (10_state.md R29, 60_exceptions.md R88). -/
def Status.failed (st : Status) (e : ErrorCode) : Status :=
  { busy := false, done := true, err := true, ecode := e, haz := st.haz }

/-- CAP's REAL_TIE and MUL_IMPL bits (10_state.md R24). -/
def realTieBit : RealTie → Nat
  | .halfUp => 0
  | .halfEven => 1

def mulImplBit : MulImpl → Nat
  | .naive => 0
  | .transform => 1

/-- CAP, a constant of the instance: W[7:0], NPREG[15:8], NMAX_M1[31:16], SPAD_M1[47:32], FENC_QUANT[48],
REAL_TIE[49], MUL_IMPL[50], VERSION[63:56] = 1, the rest 0 (10_state.md R24). -/
def capWord (cfg : Config) : Word :=
  BitVec.ofNat 64 (cfg.w + cfg.npreg * 2 ^ 8 + (cfg.nmax - 1) * 2 ^ 16 + (cfg.spadWords - 1) * 2 ^ 32
    + cfg.fencQuant.toNat * 2 ^ 48 + realTieBit cfg.realTie * 2 ^ 49 + mulImplBit cfg.mulImpl * 2 ^ 50
    + 1 * 2 ^ 56)

end Sys2Proof.Machine
end

