-- ==== Sys2Proof/Machine/Ops.lean ====
section
/-! DEFINITION. The named operations over memory and registers, the ends of an Execute step (success,
and taking an error: the core's only exception), and the resets. -/

namespace Sys2Proof.Machine

/-- What a step answers. -/
abbrev Result := Host.Outcome State Fault Refusal

/-! Memory: bytes. -/

/-- Offsets strictly rising: the one canonical form of a memory. No entry can equal what an unlisted
byte reads as, since that is no value. -/
def Memory.wf : Memory → Bool
  | [] => true
  | [_] => true
  | c :: d :: rest => decide (c.1 < d.1) && Memory.wf (d :: rest)

/-- The byte at an offset; none where nothing has been written. -/
def readByte : Memory → Nat → Option Byte
  | [], _ => none
  | (k, b) :: rest, a => if k = a then some b else readByte rest a

/-- Write one byte, keeping the offsets in order. -/
def writeByte : Memory → Nat → Byte → Memory
  | [], a, b => [(a, b)]
  | (k, c) :: rest, a, b =>
    if a < k then (a, b) :: (k, c) :: rest
    else if a = k then (a, b) :: rest
    else (k, c) :: writeByte rest a b

/-- `n` consecutive bytes as one number, the byte at the lowest offset least significant (20_memory.md R35). -/
def readBytes (m : Memory) (a : Nat) : Nat → Option Nat
  | 0 => some 0
  | n + 1 =>
    match readByte m a, readBytes m (a + 1) n with
    | some b, some rest => some (b.toNat + 2 ^ 8 * rest)
    | _, _ => none

/-- Write the low `n` bytes of `v`, least significant first (20_memory.md R35). -/
def writeBytes (m : Memory) (a : Nat) : Nat → Nat → Memory
  | 0, _ => m
  | n + 1, v => writeBytes (writeByte m a (BitVec.ofNat 8 v)) (a + 1) n (v / 2 ^ 8)

/-! Memory: scratchpad words and elements. -/

/-- The window offset of scratchpad word w (20_memory.md R33). -/
def spadOffset (w : Nat) : Nat := 0x40000 + 8 * w

/-- SPAD[w], none when it is unwritten. -/
def readWord (m : Memory) (w : Nat) : Option Nat := readBytes m (spadOffset w) 8

/-- SPAD[w] <- v mod 2^64. -/
def writeWord (m : Memory) (w v : Nat) : Memory := writeBytes m (spadOffset w) 8 v

/-- `SpadRead(a, n)`: the lower-addressed word is the less significant (00_scope.md R12, 20_memory.md R33). -/
def spadRead (m : Memory) (a : Nat) : Nat → Option Nat
  | 0 => some 0
  | n + 1 =>
    match readWord m a, spadRead m (a + 1) n with
    | some lo, some rest => some (lo + 2 ^ 64 * rest)
    | _, _ => none

/-- `SpadWrite(a, n, v)` (00_scope.md R12, 20_memory.md R33). -/
def spadWrite (m : Memory) (a : Nat) : Nat → Nat → Memory
  | 0, _ => m
  | n + 1, v => spadWrite (writeWord m a v) (a + 1) n (v / 2 ^ 64)

/-- The `cnt` elements of `s` words each from word address a: element j at a + j*s (20_memory.md R33). -/
def readElements (m : Memory) (a s : Nat) : Nat → Option (List Nat)
  | 0 => some []
  | cnt + 1 =>
    match spadRead m a s, readElements m (a + s) s cnt with
    | some x, some rest => some (x :: rest)
    | _, _ => none

/-- Write the elements, `s` words each, from word address a: element j at a + j*s (20_memory.md R33). -/
def writeElements (m : Memory) (a s : Nat) : List Nat → Memory
  | [] => m
  | x :: rest => writeElements (spadWrite m a s x) (a + s) s rest

/-! Torus registers. -/

/-- T[r]: none when it is invalid, or does not exist (10_state.md R15, R17). -/
def State.torus (s : State) (r : Nat) : Option TorusPoly := (s.regs[r]?).join

/-- T[r].valid (10_state.md R15). -/
def State.valid (s : State) (r : Nat) : Bool := (s.torus r).isSome

/-- The coefficients T[r] holds; those of an invalid register are never used (10_state.md R17). -/
def State.coeffs (s : State) (r : Nat) : List Coeff :=
  match s.torus r with
  | some p => p.coeff
  | none => []

/-- T[r].len (10_state.md R15). -/
def State.len (s : State) (r : Nat) : Nat := (s.coeffs r).length

/-- T[r].coeff[j], 0 at and above len (10_state.md R18). -/
def State.coeffAt (s : State) (r j : Nat) : Coeff := (s.coeffs r).getD j 0

/-- T[r] <- {valid = 1, len, coeff}: the register is replaced whole (10_state.md R16, R18). -/
def State.setTorus (s : State) (r : Nat) (p : TorusPoly) : State :=
  { s with regs := s.regs.setIfInBounds r (some p) }

/-! The ends of Execute. -/

/-- TAKING AN ERROR, the core's only exception: nothing but STATUS changes, no state is saved and no
control passes anywhere (60_exceptions.md R85, R88, R91). The "return" is the next accepted command
(R92; `State.accept`). -/
def State.raise (s : State) (e : ErrorCode) : State := { s with status := s.status.failed e }

/-- A command's end without error (10_state.md R29). -/
def State.complete (s : State) : State := { s with status := s.status.succeeded }

/-- Commit a register result (10_state.md R29). -/
def State.commitTorus (s : State) (r : Nat) (cs : List Coeff) : State := (s.setTorus r ⟨cs⟩).complete

/-- Commit a range of scratchpad words, element by element (10_state.md R29, 41_polynomial_codec.md R73). -/
def State.commitSpad (s : State) (a size : Nat) (vs : List Nat) : State :=
  { s with mem := writeElements s.mem a size vs }.complete

/-- A command accepted: the "return" from an earlier error (20_memory.md R39, 60_exceptions.md R88, R92). -/
def State.accept (s : State) (c : Word) : State :=
  { s with cmd := c, status := s.status.accepted }

/-- An access refused because BUSY was 1 (10_state.md R26, 20_memory.md R38). -/
def State.refuseAccess (s : State) : State := { s with status := { s.status with haz := true } }

/-! Resets. -/

/-- Every piece of state at the value of 10_state.md R31; no reset changes the scratchpad
(70_reset_and_hazards.md R100, R101). -/
def State.coreReset (s : State) : State :=
  { s with regs := Vector.replicate 64 none, cmd := 0, status := Status.reset, rangeLo := 0, rangeHi := 0 }

/-- The `rst` input takes a level; the core's state is the reset state from the assertion on
(70_reset_and_hazards.md R100; log 8). -/
def State.setRst (s : State) (asserted : Bool) : State := { s.coreReset with rst := asserted }

/-- Power lost and returned: the reset state with the scratchpad unwritten (93_implementation_defined.md
row "Power loss"). -/
def State.powerOn (s : State) : State := { s.coreReset with mem := [] }

end Sys2Proof.Machine
end

