-- ==== Sys2Proof/Machine/Bus.lean ====
section
/-! DEFINITION. The host's side: the window map, and what each host access does (10_state.md R22 to R28;
20_memory.md R32 to R40; 70_reset_and_hazards.md R101). -/

namespace Sys2Proof.Machine

/-- What stands at a window offset (20_memory.md R34). -/
inductive Target where
  | cap
  | cmd
  | status
  | ctrl
  | rangeLo
  | rangeHi
  | spad (w : Nat)
  deriving DecidableEq, Repr

/-- The scratchpad part of the window map; above SPAD_WORDS it is reserved (20_memory.md R33, R34). -/
def spadTarget (cfg : Config) (off : Nat) : Option Target :=
  if 0x40000 ≤ off ∧ off % 8 = 0 ∧ (off - 0x40000) / 8 < cfg.spadWords then
    some (.spad ((off - 0x40000) / 8))
  else none

/-- The window map; none at a reserved or misaligned offset (10_state.md R22; 20_memory.md R34, R36). -/
def targetAt (cfg : Config) (off : Nat) : Option Target :=
  match off with
  | 0x00000 => some .cap
  | 0x00008 => some .cmd
  | 0x00010 => some .status
  | 0x00018 => some .ctrl
  | 0x00020 => some .rangeLo
  | 0x00028 => some .rangeHi
  | _ => spadTarget cfg off

/-- One 64-bit word with all eight byte lanes enabled (20_memory.md R36). -/
def Access.fullWord (a : Access) : Bool := a.width == 64 && a.strobe == 0xFF

/-- What the access reaches; none is a bus error (20_memory.md R36). -/
def Access.target (cfg : Config) (a : Access) : Option Target :=
  if a.fullWord then targetAt cfg a.offset.toNat else none

/-- The access is answered. -/
def State.respond (s : State) (r : Response) : State := { s with resp := some r }

/-- A read answered with `v`. -/
def answerRead (s : State) (v : Word) : Result := .next (s.respond (.data v))

/-- A write that completes, with the state it leaves. -/
def answerWrite (s : State) : Result := .next (s.respond .done)

/-- A write CTRL takes whether BUSY is 0 or 1: SRESET is bit 0, CLRHAZ bit 1, the rest is ignored
(10_state.md R27; 70_reset_and_hazards.md R101). -/
def State.writeCtrl (s : State) (v : Word) : State :=
  if v.getLsbD 0 then s.coreReset
  else if v.getLsbD 1 then { s with status := { s.status with haz := false } }
  else s

/-- A write that is dropped while BUSY, setting HAZ, and done as `idle` says otherwise (20_memory.md R38). -/
def writeUnlessBusy (s : State) (idle : State) : Result :=
  if s.status.busy then answerWrite s.refuseAccess else answerWrite idle

/-- A SPAD read: 0 with HAZ while BUSY; the word when IDLE; a fault if nothing has written it (20_memory.md
R38; log 1). -/
def readSpad (s : State) (w : Nat) : Result :=
  if s.status.busy then answerRead s.refuseAccess 0
  else
    match readWord s.mem w with
    | some v => answerRead s (BitVec.ofNat 64 v)
    | none => .fault .unwrittenScratchpadRead

/-- A host read of each target (10_state.md R22 to R28; 20_memory.md R38). -/
def hostRead (s : State) : Target → Result
  | .cap => answerRead s (capWord s.cfg)
  | .cmd => answerRead s s.cmd
  | .status => answerRead s s.status.word
  | .ctrl => answerRead s 0
  | .rangeLo => answerRead s s.rangeLo
  | .rangeHi => answerRead s s.rangeHi
  | .spad w => readSpad s w

/-- A host write of `v` to each target (10_state.md R22 to R28; 20_memory.md R38, R39). -/
def hostWrite (s : State) (v : Word) : Target → Result
  | .cap => answerWrite s
  | .cmd => writeUnlessBusy s (s.accept v)
  | .status => answerWrite s
  | .ctrl => answerWrite (s.writeCtrl v)
  | .rangeLo => writeUnlessBusy s { s with rangeLo := v }
  | .rangeHi => writeUnlessBusy s { s with rangeHi := v }
  | .spad w => writeUnlessBusy s { s with mem := writeWord s.mem w v.toNat }

/-- One host access. A bus error changes nothing but the host's response; while `rst` is asserted the host
has no step (20_memory.md R36; 60_exceptions.md R89; 70_reset_and_hazards.md R100). -/
def hostAccess (a : Access) (s : State) : Result :=
  if s.rst then .fault .hostAccessDuringReset
  else
    match a.target s.cfg with
    | none => .next (s.respond .busError)
    | some t =>
      match a.kind with
      | .read => hostRead s t
      | .write v => hostWrite s v t

/-- The host notation `rd OFF` and `wr OFF, v` (30_encoding.md R54). -/
def rd (off : Nat) : Event :=
  .host { kind := .read, offset := BitVec.ofNat 19 off, width := 64, strobe := 0xFF }

def wr (off : Nat) (v : Word) : Event :=
  .host { kind := .write v, offset := BitVec.ofNat 19 off, width := 64, strobe := 0xFF }

/-- `spad[a] = v` (30_encoding.md R54). -/
def wrSpad (a : Nat) (v : Word) : Event := wr (spadOffset a) v

/-- `issue c` under the schedule that executes the command at once: the CMD write, the core's turn, and
the STATUS read that ends the host's wait (30_encoding.md R54). -/
def issue (c : Word) : List Event := [wr 0x00008 c, .core, rd 0x00010]

end Sys2Proof.Machine
end

