-- ==== Sys2Proof/Machine/Binary64.lean ====
section
/-! DEFINITION. Real arithmetic: exact rationals, the rounding primitives, and binary64 patterns
(00_scope.md R8 to R11; 40_torus_value.md R61). -/

namespace Sys2Proof.Machine

/-- `frac(x) = x - floor(x)` (00_scope.md R9). -/
def frac (x : Rat) : Rat := x - x.floor

/-- Round to nearest, ties toward plus infinity (00_scope.md R10). -/
def rhu (x : Rat) : Int := (x + 1 / 2).floor

/-- Round to nearest, ties to even (00_scope.md R10). -/
def rhe (x : Rat) : Int :=
  if frac x < 1 / 2 then x.floor
  else if 1 / 2 < frac x then x.floor + 1
  else if x.floor % 2 = 0 then x.floor else x.floor + 1

/-- Round to nearest by the instance's REAL_TIE (00_scope.md R10). -/
def rtie (tie : RealTie) (x : Rat) : Int :=
  match tie with
  | .halfUp => rhu x
  | .halfEven => rhe x

/-- The sign, biased exponent and fraction of a binary64 pattern: b[63], b[62:52], b[51:0] (00_scope.md R11). -/
def signOf (b : Word) : Nat := slice b 63 63
def exponentOf (b : Word) : Nat := slice b 62 52
def fractionOf (b : Word) : Nat := slice b 51 0

/-- `finite64(b)`: neither an infinity nor a NaN (00_scope.md R11). -/
def finite64 (b : Word) : Bool := exponentOf b != 2047

/-- The significand as an integer: without the implicit bit when the exponent field is 0. -/
def significandOf (b : Word) : Nat :=
  if exponentOf b = 0 then fractionOf b else 2 ^ 52 + fractionOf b

/-- The magnitude of a finite pattern, in units of 2^-1074: exponent fields 0 and 1 share the smallest
binade. -/
def magnitudeOf (b : Word) : Nat := significandOf b * 2 ^ (exponentOf b - 1)

/-- `val64(b)`: the exact rational value of a finite binary64 pattern (00_scope.md R11). -/
def val64 (b : Word) : Rat :=
  (if signOf b = 1 then -(magnitudeOf b : Int) else (magnitudeOf b : Int) : Int) / ((2 ^ 1074 : Nat) : Rat)

/-- The magnitude bits (exponent and fraction) of the binary64 nearest to `x * 2^-1074`, x >= 0, ties to
even, with gradual underflow. `sh` counts the binades above the smallest; since a significand's implicit
bit adds one to the exponent field, the bits are `sh * 2^52` plus the rounded significand, and a rounding
up to the next binade carries into the exponent. Beyond the largest finite value the bits are infinity's,
which no command reaches (log 9). -/
def roundMagnitude (x : Rat) : Nat :=
  let sh := Nat.log2 x.floor.toNat - 52
  min (sh * 2 ^ 52 + (rhe (x / ((2 ^ sh : Nat) : Rat))).toNat) (2047 * 2 ^ 52)

/-- `bits64(RNE64(v))`: the binary64 nearest the exact rational v, ties to even, with the sign of v
(00_scope.md R10, R11). -/
def rne64 (v : Rat) : Word :=
  if v < 0 then BitVec.ofNat 64 (2 ^ 63 + roundMagnitude (-v * ((2 ^ 1074 : Nat) : Rat)))
  else BitVec.ofNat 64 (roundMagnitude (v * ((2 ^ 1074 : Nat) : Rat)))

/-- The bit pattern of 1.0. -/
def one64 : Word := 0x3FF0000000000000

/-- `RangeOK(lo, hi)` (40_torus_value.md R61). -/
def rangeOK (lo hi : Word) : Bool := finite64 lo && finite64 hi && decide (val64 lo < val64 hi)

end Sys2Proof.Machine
end

