-- ==== Sys2Proof/Machine/TorusValue.lean ====
section
/-! DEFINITION. The scalar units torus_encoder and torus_decoder, and the reference convolution: the
per-coefficient functions the commands apply (40_torus_value.md R55 to R63, 42_ring_arith.md R81). -/

namespace Sys2Proof.Machine

/-- `EncInt(i, k)`: i mod 2^k in the high k bits of a W-bit word (40_torus_value.md R56). -/
def encInt (w i k : Nat) : Coeff := i % 2 ^ k * 2 ^ (w - k)

/-- `DecInt(raw, k)`: raw * 2^k / 2^W rounded half up, mod 2^k (40_torus_value.md R57; 90_conflicts.md C1). -/
def decInt (w : Nat) (raw : Coeff) (k : Nat) : Nat := (raw * 2 ^ k + 2 ^ (w - 1)) / 2 ^ w % 2 ^ k

/-- `rtie(x) mod 2^bits`, the rounding and wrap shared by the real encoders. -/
def roundMod (tie : RealTie) (bits : Nat) (x : Rat) : Nat := (rtie tie x % (2 ^ bits : Nat)).toNat

/-- `EncFrac(t)` (40_torus_value.md R58). -/
def encFrac (cfg : Config) (t : Rat) : Coeff :=
  roundMod cfg.realTie cfg.w (frac t * ((2 ^ cfg.w : Nat) : Rat))

/-- `EncReal(b)` of a finite b (40_torus_value.md R59). -/
def encReal (cfg : Config) (b : Word) : Coeff := encFrac cfg (val64 b)

/-- `DecReal(raw, k)`: a result that rounds to 1.0 is +0.0 (40_torus_value.md R60). -/
def decReal (w : Nat) (raw : Coeff) (k : Nat) : Word :=
  let y := rne64 ((decInt w raw k : Rat) / ((2 ^ k : Nat) : Rat))
  if y = one64 then 0 else y

/-- Where b lies in [lo, hi), as an exact rational (40_torus_value.md R62). -/
def rangePosition (lo hi b : Word) : Rat := (val64 b - val64 lo) / (val64 hi - val64 lo)

/-- `EncFloat(b, k, lo, hi)` by the instance's FENC_QUANT (40_torus_value.md R62). -/
def encFloat (cfg : Config) (lo hi b : Word) (k : Nat) : Coeff :=
  let t := rangePosition lo hi b
  if cfg.fencQuant then encInt cfg.w (roundMod cfg.realTie k (frac t * ((2 ^ k : Nat) : Rat))) k
  else encFrac cfg t

/-- The exact rational `lo + (m / 2^k) * (hi - lo)` (40_torus_value.md R63). -/
def rangeValue (lo hi : Word) (m k : Nat) : Rat :=
  val64 lo + (m : Rat) / ((2 ^ k : Nat) : Rat) * (val64 hi - val64 lo)

/-- `DecFloat(raw, k, lo, hi)`: a result that rounds to hi is lo (40_torus_value.md R63). -/
def decFloat (w : Nat) (lo hi : Word) (raw : Coeff) (k : Nat) : Word :=
  let y := rne64 (rangeValue lo hi (decInt w raw k) k)
  if val64 y = val64 hi then lo else y

/-- Torus addition of two raws (42_ring_arith.md R79). -/
def addRaw (w : Nat) (a b : Coeff) : Coeff := (a + b) % 2 ^ w

/-- Torus subtraction of two raws: a negative difference wraps (42_ring_arith.md R80). -/
def subRaw (w : Nat) (a b : Coeff) : Coeff := (((a : Int) - (b : Int)) % (2 ^ w : Nat)).toNat

/-- The term `a[j]` contributes to coefficient i of the product: X^N = -1 turns the sign of those that
wrap (42_ring_arith.md R81). -/
def negaTerm (a b : List Nat) (i j : Nat) : Int :=
  if j ≤ i then (a.getD j 0 : Int) * (b.getD (i - j) 0 : Int)
  else -((a.getD j 0 : Int) * (b.getD (i + a.length - j) 0 : Int))

/-- `NegaConv(a, b, k)` for two sequences of length N (42_ring_arith.md R81). -/
def negaConv (a b : List Nat) (k : Nat) : List Nat :=
  (List.range a.length).map fun i =>
    (((List.range a.length).map (negaTerm a b i)).sum % (2 ^ k : Nat)).toNat

/-- TMUL's coefficients: project both operands with DecInt, convolve, encode with EncInt (42_ring_arith.md
R82; 90_conflicts.md C2). -/
def mulCoeffs (w : Nat) (a b : List Coeff) (k : Nat) : List Coeff :=
  (negaConv (a.map (decInt w · k)) (b.map (decInt w · k)) k).map (encInt w · k)

end Sys2Proof.Machine
end

