-- ==== Sys2Proof/Machine/Operands.lean ====
section
/-! DEFINITION. The operand forms of the commands (41_polynomial_codec.md R69, R73; 42_ring_arith.md
R78) and the checks that come before them (60_exceptions.md R87). -/

namespace Sys2Proof.Machine

/-! Checks: an error code and whether the check fails. -/

abbrev Check := ErrorCode × Bool

/-- Check 2: a used register field is at or above NPREG. -/
def registerCheck (s : State) (rs : List Nat) : Check :=
  (.invalidRegister, rs.any fun r => decide (s.cfg.npreg ≤ r))

/-- Check 3: K > W. -/
def modulusCheck (s : State) (k : Nat) : Check := (.invalidModulus, decide (s.cfg.w < k))

/-- Check 4: LEN + 1 > NMAX. -/
def lengthCheck (s : State) (n : Nat) : Check := (.lengthTooLarge, decide (s.cfg.nmax < n))

/-- Check 5: not RangeOK(RANGE_LO, RANGE_HI). -/
def rangeCheck (s : State) : Check := (.rangeMismatch, !rangeOK s.rangeLo s.rangeHi)

/-- Check 6: a source register has valid = 0. -/
def emptyCheck (s : State) (rs : List Nat) : Check := (.emptyRegister, rs.any fun r => !s.valid r)

/-- Check 7: the sources' lengths differ. -/
def sizeCheck (s : State) (rs1 rs2 : Nat) : Check := (.sizeMismatch, s.len rs1 != s.len rs2)

/-- Check 8: ADDR + count * s > SPAD_WORDS. -/
def addressCheck (s : State) (addr words : Nat) : Check :=
  (.addressRange, decide (s.cfg.spadWords < addr + words))

/-- Check 9: some input element read is a NaN or an infinity. -/
def finiteCheck (bs : List Word) : Check := (.nonFiniteInput, bs.any fun b => !finite64 b)

/-- The first failing check; later ones are not evaluated (60_exceptions.md R87). -/
def firstFailing : List Check → Option ErrorCode
  | [] => none
  | (e, true) :: _ => some e
  | (_, false) :: rest => firstFailing rest

/-- `e <- Checks; if e != none: raise e` and otherwise Perform (30_encoding.md R50). -/
def checked (s : State) (checks : List Check) (perform : Result) : Result :=
  match firstFailing checks with
  | some e => .next (s.raise e)
  | none => perform

/-! Encode commands. -/

/-- cnt: the elements an encode command reads (41_polynomial_codec.md R69). -/
def elementCount (bcast : Bool) (n : Nat) : Nat := if bcast then 1 else n

/-- e_0 .. e_(N-1): one element copied to all coefficients, or the sequence (41_polynomial_codec.md R69). -/
def spread {α : Type} (bcast : Bool) (n : Nat) (es : List α) : List α :=
  if bcast then es.flatMap (List.replicate n) else es

/-- Read the input elements, then go on; an unwritten word faults (41_polynomial_codec.md R69; log 1). -/
def withElements (s : State) (addr size cnt : Nat) (go : List Nat → Result) : Result :=
  match readElements s.mem addr size cnt with
  | some es => go es
  | none => .fault .unwrittenScratchpadRead

/-- Read binary64 elements, one word each, check 9 on all that were read, then go on
(41_polynomial_codec.md R71, R72). -/
def withReals (s : State) (addr cnt : Nat) (go : List Word → Result) : Result :=
  withElements s addr 1 cnt fun es =>
    checked s [finiteCheck (es.map (BitVec.ofNat 64))] (go (es.map (BitVec.ofNat 64)))

end Sys2Proof.Machine
end

