-- ==== Sys2Proof/Machine/PolyDecode.lean ====
section
/-! DEFINITION. The decode commands of torus_polynomial_decoder (41_polynomial_codec.md R73 to R76). -/

namespace Sys2Proof.Machine

/-- PDEC.I (41_polynomial_codec.md R74). -/
def execPdecI (rs1 k addr : Nat) (s : State) : Result :=
  checked s
    [registerCheck s [rs1], modulusCheck s k, emptyCheck s [rs1],
      addressCheck s addr (s.len rs1 * s.cfg.ew)]
    (.next (s.commitSpad addr s.cfg.ew ((s.coeffs rs1).map (decInt s.cfg.w · k))))

/-- PDEC.R (41_polynomial_codec.md R75). -/
def execPdecR (rs1 k addr : Nat) (s : State) : Result :=
  checked s
    [registerCheck s [rs1], modulusCheck s k, emptyCheck s [rs1], addressCheck s addr (s.len rs1)]
    (.next (s.commitSpad addr 1 ((s.coeffs rs1).map fun c => (decReal s.cfg.w c k).toNat)))

/-- PDEC.F over [RANGE_LO, RANGE_HI) (41_polynomial_codec.md R76). -/
def execPdecF (rs1 k addr : Nat) (s : State) : Result :=
  checked s
    [registerCheck s [rs1], modulusCheck s k, rangeCheck s, emptyCheck s [rs1],
      addressCheck s addr (s.len rs1)]
    (.next (s.commitSpad addr 1
      ((s.coeffs rs1).map fun c => (decFloat s.cfg.w s.rangeLo s.rangeHi c k).toNat)))

end Sys2Proof.Machine
end

