-- ==== Sys2Proof/Machine/PolyEncode.lean ====
section
/-! DEFINITION. The encode commands of torus_polynomial_encoder (41_polynomial_codec.md R69 to R72). -/

namespace Sys2Proof.Machine

/-- PENC.I (41_polynomial_codec.md R70). -/
def execPencI (rd k : Nat) (bcast : Bool) (n addr : Nat) (s : State) : Result :=
  checked s
    [registerCheck s [rd], modulusCheck s k, lengthCheck s n,
      addressCheck s addr (elementCount bcast n * s.cfg.ew)]
    (withElements s addr s.cfg.ew (elementCount bcast n) fun es =>
      .next (s.commitTorus rd ((spread bcast n es).map (encInt s.cfg.w · k))))

/-- PENC.R (41_polynomial_codec.md R71). -/
def execPencR (rd : Nat) (bcast : Bool) (n addr : Nat) (s : State) : Result :=
  checked s
    [registerCheck s [rd], lengthCheck s n, addressCheck s addr (elementCount bcast n)]
    (withReals s addr (elementCount bcast n) fun bs =>
      .next (s.commitTorus rd ((spread bcast n bs).map (encReal s.cfg))))

/-- PENC.F over [RANGE_LO, RANGE_HI) (41_polynomial_codec.md R72). -/
def execPencF (rd k : Nat) (bcast : Bool) (n addr : Nat) (s : State) : Result :=
  checked s
    [registerCheck s [rd], modulusCheck s k, lengthCheck s n, rangeCheck s,
      addressCheck s addr (elementCount bcast n)]
    (withReals s addr (elementCount bcast n) fun bs =>
      .next (s.commitTorus rd
        ((spread bcast n bs).map (encFloat s.cfg s.rangeLo s.rangeHi · k))))

end Sys2Proof.Machine
end

