-- ==== Sys2Proof/Machine/RingArith.lean ====
section
/-! DEFINITION. The ring commands torus_add, torus_subtract and ring_convolution_naive (42_ring_arith.md
R78 to R83). Sources are read from the state before the command, so RD may name a source (R78). -/

namespace Sys2Proof.Machine

/-- TADD (42_ring_arith.md R79). -/
def execTadd (rd rs1 rs2 : Nat) (s : State) : Result :=
  checked s [registerCheck s [rd, rs1, rs2], emptyCheck s [rs1, rs2], sizeCheck s rs1 rs2]
    (.next (s.commitTorus rd (List.zipWith (addRaw s.cfg.w) (s.coeffs rs1) (s.coeffs rs2))))

/-- TSUB (42_ring_arith.md R80). -/
def execTsub (rd rs1 rs2 : Nat) (s : State) : Result :=
  checked s [registerCheck s [rd, rs1, rs2], emptyCheck s [rs1, rs2], sizeCheck s rs1 rs2]
    (.next (s.commitTorus rd (List.zipWith (subRaw s.cfg.w) (s.coeffs rs1) (s.coeffs rs2))))

/-- TMUL at modulus 2^k; MUL_IMPL changes no result (42_ring_arith.md R82, R83). -/
def execTmul (rd rs1 rs2 k : Nat) (s : State) : Result :=
  checked s
    [registerCheck s [rd, rs1, rs2], modulusCheck s k, emptyCheck s [rs1, rs2], sizeCheck s rs1 rs2]
    (.next (s.commitTorus rd (mulCoeffs s.cfg.w (s.coeffs rs1) (s.coeffs rs2) k)))

end Sys2Proof.Machine
end

