-- ==== Sys2Proof/Machine/Dispatch.lean ====
section
/-! DEFINITION. exec: one arm per command, each one call of its meaning (30_encoding.md R50, Perform with
its Checks). -/

namespace Sys2Proof.Machine

def exec (i : Instr) (s : State) : Host.Outcome State Fault Refusal :=
  match i with
  | .pencI rd k bcast n addr => Sys2Proof.Machine.execPencI rd k bcast n addr s
  | .pencR rd bcast n addr => Sys2Proof.Machine.execPencR rd bcast n addr s
  | .pencF rd k bcast n addr => Sys2Proof.Machine.execPencF rd k bcast n addr s
  | .pdecI rs1 k addr => Sys2Proof.Machine.execPdecI rs1 k addr s
  | .pdecR rs1 k addr => Sys2Proof.Machine.execPdecR rs1 k addr s
  | .pdecF rs1 k addr => Sys2Proof.Machine.execPdecF rs1 k addr s
  | .tadd rd rs1 rs2 => Sys2Proof.Machine.execTadd rd rs1 rs2 s
  | .tsub rd rs1 rs2 => Sys2Proof.Machine.execTsub rd rs1 rs2 s
  | .tmul rd rs1 rs2 k => Sys2Proof.Machine.execTmul rd rs1 rs2 k s

end Sys2Proof.Machine
end

