-- ==== Sys2Proof/Machine/Turns.lean ====
section
/-! DEFINITION. The core's Execute step and the turns of the interleaving (10_state.md R14, R29; 30_encoding.md
R50). -/

namespace Sys2Proof.Machine

/-- Execute: decode CMD and run it; a word that is no command raises ILLEGAL_COMMAND (10_state.md R29;
30_encoding.md R48 to R50). -/
def execute (s : State) : Result :=
  match decode s.cmd with
  | .ok i => exec i s
  | .error _ => .next (s.raise .illegalCommand)

/-- Execute is enabled: a command is pending, and `rst` is not asserted (10_state.md R14, R29;
70_reset_and_hazards.md R100). -/
def State.executeEnabled (s : State) : Bool := s.status.busy && !s.rst

/-- The core's turn: Execute when it is enabled; an idle core stays as it is (10_state.md R29; 60_exceptions.md
R99; log 7). -/
def coreTurn (s : State) : Result := if s.executeEnabled then execute s else .next s

/-- One turn, in the state from which it has been taken off the queue. -/
def takeTurn (e : Event) (s : State) : Result :=
  match e with
  | .host a => hostAccess a s
  | .core => coreTurn s
  | .rst asserted => .next (s.setRst asserted)
  | .powerCycle => .next s.powerOn

end Sys2Proof.Machine
end

