-- ==== Sys2Proof/Machine/Step.lean ====
section
/-! DEFINITION. One step of the machine: the next turn of the queue; when none is queued, a pending
command executes (weak fairness, 10_state.md R29; log 2). -/

namespace Sys2Proof.Machine

/-- One step. -/
def step (s : State) : Host.Outcome State Fault Refusal :=
  match s.events with
  | [] => coreTurn s
  | e :: rest => takeTurn e { s with events := rest }

/-- `s` with a command word latched into CMD as an accepted host write leaves it, `rst` released and the
core's turn next: the next step executes exactly that command (20_memory.md R39, R43; log 10). The word's
bits above `nbits` are 0. -/
def State.withFetchWord (s : State) (nbits w : Nat) : State :=
  { s.accept (BitVec.ofNat 64 (w % 2 ^ nbits)) with rst := false, events := .core :: s.events }

end Sys2Proof.Machine
end

