-- ==== Sys2Proof/Safety.lean ====
section
/-! DEFINITION. The terms claims use: the invariant of the machine, the end of a run, and the torus
distance (10_state.md R15, R26; 70_reset_and_hazards.md R105; 40_torus_value.md R64). -/

namespace Sys2Proof.Machine

/-- Every listed byte belongs to a scratchpad word that exists (20_memory.md R34). -/
def Memory.InScratchpad (cfg : Config) (m : Memory) : Prop :=
  ∀ c ∈ m, spadOffset 0 ≤ c.1 ∧ c.1 < spadOffset cfg.spadWords

/-- The bytes of a scratchpad word are written all together: a word is either written or not
(20_memory.md R33, R37; 93_implementation_defined.md row "Scratchpad contents at power-on"). -/
def Memory.WholeWords (m : Memory) : Prop :=
  ∀ w i, i < 8 → (readByte m (spadOffset w + i)).isSome = (readByte m (spadOffset w)).isSome

/-- A register's polynomial is legal: len in 1..NMAX and every raw below 2^W (10_state.md R15;
40_torus_value.md R55). -/
def TorusPoly.Legal (cfg : Config) (p : TorusPoly) : Prop :=
  1 ≤ p.coeff.length ∧ p.coeff.length ≤ cfg.nmax ∧ ∀ c ∈ p.coeff, c < 2 ^ cfg.w

/-- What holds in every state a run can reach. -/
structure State.Inv (s : State) : Prop where
  mem_wf : Memory.wf s.mem = true
  mem_in : Memory.InScratchpad s.cfg s.mem
  mem_words : Memory.WholeWords s.mem
  regs_exist : ∀ r, s.cfg.npreg ≤ r → s.torus r = none
  regs_legal : ∀ r p, s.torus r = some p → p.Legal s.cfg
  status_legal : s.status.legal = true
  rst_idle : s.rst = true → s.status.busy = false

/-- A run has ended: the core is IDLE and no further turn is queued (70_reset_and_hazards.md R105). -/
def State.ended (s : State) : Bool := !s.status.busy && s.events.isEmpty

/-- A run of which no access was refused and whose last command did not fail: the premise R104 and
93_implementation_defined.md recommend to a claim about a program. -/
def State.clean (s : State) : Bool := !s.status.haz && !s.status.err

/-- Torus distance (40_torus_value.md R64). -/
def torusDist (a b : Rat) : Rat := min (frac (a - b)) (1 - frac (a - b))

/-- Distance on the circle of a bounded range (40_torus_value.md R64; 90_conflicts.md C3). -/
def rangeDist (lo hi a b : Rat) : Rat :=
  (hi - lo) * torusDist ((a - lo) / (hi - lo)) ((b - lo) / (hi - lo))

end Sys2Proof.Machine
end

