-- ==== Sys2Proof/Certificates/Slice0/Obligations.lean ====
section
/-! DEFINITION. The statements about the model. Each says in its docstring which rule of spec/ it rests on.
The helper definitions of Sys2Proof.Claims only abbreviate what the rules name. -/

namespace Sys2Proof.Claims

open Sys2Proof.Machine

/-- STATUS <- {BUSY=0, DONE=1, ERR=1, ECODE=e, HAZ kept}, nothing else (10_state.md R29). -/
def failedWith (s : State) (e : ErrorCode) : State :=
  { s with status := { busy := false, done := true, err := true, ecode := e, haz := s.status.haz } }

/-- STATUS <- {BUSY=0, DONE=1, ERR=0, ECODE=0, HAZ kept} (10_state.md R29). -/
def succeeded (s : State) : State :=
  { s with status := { busy := false, done := true, err := false, ecode := .none, haz := s.status.haz } }

/-- T[r] <- {valid=1, len, coeff} (10_state.md R16). -/
def withRegister (s : State) (r : Nat) (cs : List Coeff) : State :=
  { s with regs := s.regs.setIfInBounds r (some ⟨cs⟩) }

/-- STATUS.HAZ <- 1 (20_memory.md R38). -/
def withHaz (s : State) : State := { s with status := { s.status with haz := true } }

/-- The host's access is answered with `r`. -/
def answered (s : State) (r : Response) : State := { s with resp := some r }

/-- The reset values of 10_state.md R31, the scratchpad kept. -/
def resetState (s : State) : State :=
  { s with
    regs := Vector.replicate 64 none
    cmd := 0
    status := { busy := false, done := false, err := false, ecode := .none, haz := false }
    rangeLo := 0
    rangeHi := 0 }

/-- A full-word host read or write at a window offset (20_memory.md R36). -/
def readAt (off : Nat) : Access :=
  { kind := .read, offset := BitVec.ofNat 19 off, width := 64, strobe := 0xFF }

def writeAt (off : Nat) (v : Word) : Access :=
  { kind := .write v, offset := BitVec.ofNat 19 off, width := 64, strobe := 0xFF }

/-- An offset of the window map: the six CSR words, or a scratchpad word (20_memory.md R34), 8-aligned. -/
def Mapped (cfg : Config) (off : Nat) : Prop :=
  off % 8 = 0 ∧ (off < 0x30 ∨ (0x40000 ≤ off ∧ off < 0x40000 + 8 * cfg.spadWords))

/-! What each command uses (30_encoding.md R47, 60_exceptions.md R87). -/

def registersUsed : Instr → List Nat
  | .pencI rd _ _ _ _ | .pencR rd _ _ _ | .pencF rd _ _ _ _ => [rd]
  | .pdecI rs1 _ _ | .pdecR rs1 _ _ | .pdecF rs1 _ _ => [rs1]
  | .tadd rd rs1 rs2 | .tsub rd rs1 rs2 | .tmul rd rs1 rs2 _ => [rd, rs1, rs2]

def modulusUsed : Instr → List Nat
  | .pencI _ k _ _ _ | .pencF _ k _ _ _ => [k]
  | .pdecI _ k _ | .pdecR _ k _ | .pdecF _ k _ => [k]
  | .tmul _ _ _ k => [k]
  | .pencR _ _ _ _ | .tadd _ _ _ | .tsub _ _ _ => []

def lengthUsed : Instr → List Nat
  | .pencI _ _ _ n _ | .pencR _ _ n _ | .pencF _ _ _ n _ => [n]
  | .pdecI _ _ _ | .pdecR _ _ _ | .pdecF _ _ _ | .tadd _ _ _ | .tsub _ _ _ | .tmul _ _ _ _ => []

def rangeUsed : Instr → Bool
  | .pencF _ _ _ _ _ | .pdecF _ _ _ => true
  | .pencI _ _ _ _ _ | .pencR _ _ _ _ | .pdecI _ _ _ | .pdecR _ _ _
  | .tadd _ _ _ | .tsub _ _ _ | .tmul _ _ _ _ => false

def sourcesUsed : Instr → List Nat
  | .pdecI rs1 _ _ | .pdecR rs1 _ _ | .pdecF rs1 _ _ => [rs1]
  | .tadd _ rs1 rs2 | .tsub _ rs1 rs2 | .tmul _ rs1 rs2 _ => [rs1, rs2]
  | .pencI _ _ _ _ _ | .pencR _ _ _ _ | .pencF _ _ _ _ _ => []

def ringSources : Instr → List (Nat × Nat)
  | .tadd _ rs1 rs2 | .tsub _ rs1 rs2 | .tmul _ rs1 rs2 _ => [(rs1, rs2)]
  | .pencI _ _ _ _ _ | .pencR _ _ _ _ | .pencF _ _ _ _ _ | .pdecI _ _ _ | .pdecR _ _ _
  | .pdecF _ _ _ => []

/-- The scratchpad words a command reads or writes: the first one and count * s (41_polynomial_codec.md
R69, R73). -/
def wordsUsed (s : State) : Instr → List (Nat × Nat)
  | .pencI _ _ bcast n addr => [(addr, (if bcast then 1 else n) * s.cfg.ew)]
  | .pencR _ bcast n addr | .pencF _ _ bcast n addr => [(addr, if bcast then 1 else n)]
  | .pdecI rs1 _ addr => [(addr, s.len rs1 * s.cfg.ew)]
  | .pdecR rs1 _ addr | .pdecF rs1 _ addr => [(addr, s.len rs1)]
  | .tadd _ _ _ | .tsub _ _ _ | .tmul _ _ _ _ => []

/-- The torus register a command writes (10_state.md R16). -/
def destinations : Instr → List Nat
  | .pencI rd _ _ _ _ | .pencR rd _ _ _ | .pencF rd _ _ _ _ => [rd]
  | .tadd rd _ _ | .tsub rd _ _ | .tmul rd _ _ _ => [rd]
  | .pdecI _ _ _ | .pdecR _ _ _ | .pdecF _ _ _ => []

/-- The scratchpad words a command stores to: the first one and their count (41_polynomial_codec.md R73). -/
def wordsStored (s : State) : Instr → List (Nat × Nat)
  | .pdecI rs1 _ addr => [(addr, s.len rs1 * s.cfg.ew)]
  | .pdecR rs1 _ addr | .pdecF rs1 _ addr => [(addr, s.len rs1)]
  | .pencI _ _ _ _ _ | .pencR _ _ _ _ | .pencF _ _ _ _ _ | .tadd _ _ _ | .tsub _ _ _
  | .tmul _ _ _ _ => []

/-- The scratchpad words an encode command reads. -/
def inputWords (s : State) : Instr → List (Nat × Nat)
  | .pencI _ _ bcast n addr => [(addr, (if bcast then 1 else n) * s.cfg.ew)]
  | .pencR _ bcast n addr | .pencF _ _ bcast n addr => [(addr, if bcast then 1 else n)]
  | .pdecI _ _ _ | .pdecR _ _ _ | .pdecF _ _ _ | .tadd _ _ _ | .tsub _ _ _ | .tmul _ _ _ _ => []

/-- The inputs are binary64 elements. -/
def realInputs : Instr → Bool
  | .pencR _ _ _ _ | .pencF _ _ _ _ _ => true
  | .pencI _ _ _ _ _ | .pdecI _ _ _ | .pdecR _ _ _ | .pdecF _ _ _
  | .tadd _ _ _ | .tsub _ _ _ | .tmul _ _ _ _ => false

/-! The checks 2 to 9 of 60_exceptions.md R87, each as the condition under which it passes. -/

def RegistersExist (s : State) (i : Instr) : Prop := ∀ r ∈ registersUsed i, r < s.cfg.npreg
def ModulusLegal (s : State) (i : Instr) : Prop := ∀ k ∈ modulusUsed i, k ≤ s.cfg.w
def LengthFits (s : State) (i : Instr) : Prop := ∀ n ∈ lengthUsed i, n ≤ s.cfg.nmax
def RangeLegal (s : State) (i : Instr) : Prop :=
  rangeUsed i = true →
    finite64 s.rangeLo = true ∧ finite64 s.rangeHi = true ∧ val64 s.rangeLo < val64 s.rangeHi
def SourcesValid (s : State) (i : Instr) : Prop := ∀ r ∈ sourcesUsed i, (s.torus r).isSome = true
def SizesMatch (s : State) (i : Instr) : Prop := ∀ p ∈ ringSources i, s.len p.1 = s.len p.2
def AddressFits (s : State) (i : Instr) : Prop := ∀ p ∈ wordsUsed s i, p.1 + p.2 ≤ s.cfg.spadWords
def InputsWritten (s : State) (i : Instr) : Prop :=
  ∀ p ∈ inputWords s i, ∀ j, j < p.2 → (readWord s.mem (p.1 + j)).isSome = true
def InputsFinite (s : State) (i : Instr) : Prop :=
  realInputs i = true → ∀ p ∈ inputWords s i, ∀ j, j < p.2 → ∀ v, readWord s.mem (p.1 + j) = some v →
    finite64 (BitVec.ofNat 64 v) = true

/-- The checks 2 to 8 pass. -/
def EarlierChecksPass (s : State) (i : Instr) : Prop :=
  RegistersExist s i ∧ ModulusLegal s i ∧ LengthFits s i ∧ RangeLegal s i ∧ SourcesValid s i ∧
    SizesMatch s i ∧ AddressFits s i

/-- The host access that makes an event, if it is a write of CTRL with SRESET. -/
def isSoftReset : Event → Prop
  | .host a => ∃ v : Word, a = writeAt 0x00018 v ∧ v.getLsbD 0 = true
  | .core | .rst _ | .powerCycle => False

/-- An edge of `rst`, a power cycle or a soft reset. -/
def isReset : Event → Prop
  | .rst _ | .powerCycle => True
  | .host a => isSoftReset (.host a)
  | .core => False

/-- The same state of an instance built with another multiplier. -/
def withMulImpl (m : MulImpl) (s : State) : State := { s with cfg := { s.cfg with mulImpl := m } }

end Sys2Proof.Claims

open Sys2Proof Sys2Proof.Machine Sys2Proof.Claims

/-! ## Encoding -/

/-- Decoding the word of any well-formed command gives the command back, with every operand at every value
its field admits (30_encoding.md R45 to R47, R52). -/
def Obligations.DecodeAfterEncode : Prop :=
  ∀ i : Instr, i.wellFormed = true → decode (encode i) = .ok i

/-- A word that decodes has one meaning: the command is well-formed and its word is that word, so no bit of
it is dropped (30_encoding.md R45 to R48). -/
def Obligations.EncodeAfterDecode : Prop :=
  ∀ (c : Word) (i : Instr), decode c = .ok i → i.wellFormed = true ∧ encode i = c

/-- Which word is which command, and where each operand stands in it (30_encoding.md R45, R46, R47). -/
def Obligations.DecodeReadsFields : Prop :=
  ∀ c : Word,
    let rd := (c.extractLsb 11 6).toNat
    let rs1 := (c.extractLsb 17 12).toNat
    let rs2 := (c.extractLsb 23 18).toNat
    let k := (c.extractLsb 31 24).toNat
    let b := c.getLsbD 32
    let n := (c.extractLsb 48 33).toNat + 1
    let addr := (c.extractLsb 63 49).toNat
    (c &&& 0x0000000000FFF03F = 0x01 → decode c = .ok (.pencI rd k b n addr)) ∧
    (c &&& 0x00000000FFFFF03F = 0x02 → decode c = .ok (.pencR rd b n addr)) ∧
    (c &&& 0x0000000000FFF03F = 0x03 → decode c = .ok (.pencF rd k b n addr)) ∧
    (c &&& 0x0001FFFF00FC0FFF = 0x05 → decode c = .ok (.pdecI rs1 k addr)) ∧
    (c &&& 0x0001FFFF00FC0FFF = 0x06 → decode c = .ok (.pdecR rs1 k addr)) ∧
    (c &&& 0x0001FFFF00FC0FFF = 0x07 → decode c = .ok (.pdecF rs1 k addr)) ∧
    (c &&& 0xFFFFFFFFFF00003F = 0x08 → decode c = .ok (.tadd rd rs1 rs2)) ∧
    (c &&& 0xFFFFFFFFFF00003F = 0x09 → decode c = .ok (.tsub rd rs1 rs2)) ∧
    (c &&& 0xFFFFFFFF0000003F = 0x0A → decode c = .ok (.tmul rd rs1 rs2 k))

/-- Words of the spec's own examples decode to the commands they stand for (30_encoding.md R52;
95_test_vectors.md 2.1). -/
def Obligations.SpecWordsDecode : Prop :=
  decode 0x0010000704000041 = .ok (.pencI 1 4 true 4 8) ∧
  decode 0x00400002080000C3 = .ok (.pencF 3 8 false 2 0x20) ∧
  decode 0x0200000002002006 = .ok (.pdecR 2 2 0x100) ∧
  decode 0x000000000404008A = .ok (.tmul 2 0 1 4)

/-- A command with a reserved OP raises ILLEGAL_COMMAND whatever its other fields are; the all-zero word is
one (30_encoding.md R49). -/
def Obligations.ReservedOpIsIllegal : Prop :=
  (∀ s : State,
    ((s.cmd.extractLsb 5 0).toNat = 0x00 ∨ (s.cmd.extractLsb 5 0).toNat = 0x04 ∨
      0x0B ≤ (s.cmd.extractLsb 5 0).toNat) →
    execute s = .next (failedWith s .illegalCommand)) ∧
  ∀ s : State, s.cmd = 0 → execute s = .next (failedWith s .illegalCommand)

/-- A nonzero reserved field raises ILLEGAL_COMMAND and has no other effect, for each of the nine OPs
(30_encoding.md R48, with R47's table). -/
def Obligations.NonzeroReservedFieldIsIllegal : Prop :=
  ∀ s : State,
    let op := (s.cmd.extractLsb 5 0).toNat
    let rd := s.cmd.extractLsb 11 6
    let rs1 := s.cmd.extractLsb 17 12
    let rs2 := s.cmd.extractLsb 23 18
    let k := s.cmd.extractLsb 31 24
    let b := s.cmd.getLsbD 32
    let len := s.cmd.extractLsb 48 33
    let addr := s.cmd.extractLsb 63 49
    ((op = 0x01 ∨ op = 0x03) ∧ (rs1 ≠ 0 ∨ rs2 ≠ 0) ∨
      op = 0x02 ∧ (rs1 ≠ 0 ∨ rs2 ≠ 0 ∨ k ≠ 0) ∨
      (op = 0x05 ∨ op = 0x06 ∨ op = 0x07) ∧ (rd ≠ 0 ∨ rs2 ≠ 0 ∨ b = true ∨ len ≠ 0) ∨
      (op = 0x08 ∨ op = 0x09) ∧ (k ≠ 0 ∨ b = true ∨ len ≠ 0 ∨ addr ≠ 0) ∨
      op = 0x0A ∧ (b = true ∨ len ≠ 0 ∨ addr ≠ 0)) →
    execute s = .next (failedWith s .illegalCommand)

/-! ## The step -/

/-- A step runs the decoded command: on the core's turn, and when no turn is queued, with a command pending
and `rst` released, the step is exec of the command CMD decodes to, on the state with that turn taken off
(10_state.md R29, 30_encoding.md R50; the queue is the model's own, log 2). -/
def Obligations.StepRunsDecodedCommand : Prop :=
  ∀ (s : State) (rest : List Event) (i : Instr),
    s.status.busy = true → s.rst = false → decode s.cmd = .ok i →
    step { s with events := .core :: rest } = exec i { s with events := rest } ∧
    step { s with events := [] } = exec i { s with events := [] }

/-- The word a host accepts is the command the next core turn runs: from an IDLE state, the step of a CMD
write and then the core's turn run exec of the word's command (20_memory.md R39, R43; 10_state.md R29). -/
def Obligations.IssuedCommandRuns : Prop :=
  ∀ (s t : State) (rest : List Event) (c : Word) (i : Instr),
    s.status.busy = false → s.rst = false →
    s.events = .host (writeAt 0x00008 c) :: .core :: rest → decode c = .ok i →
    step s = .next t →
    step t = exec i { s with
      cmd := c
      status := { busy := true, done := false, err := false, ecode := .none, haz := s.status.haz }
      resp := some .done
      events := rest }

/-- The other turns: a host access, a level of `rst`, a power cycle; an IDLE core's turn changes nothing
(10_state.md R14; 60_exceptions.md R99; log 2, log 7). -/
def Obligations.StepTakesTurnsInOrder : Prop :=
  ∀ (s : State) (rest : List Event),
    (∀ a, step { s with events := .host a :: rest } = hostAccess a { s with events := rest }) ∧
    (∀ b, step { s with events := .rst b :: rest } = .next { resetState s with rst := b, events := rest }) ∧
    step { s with events := .powerCycle :: rest } = .next { resetState s with mem := [], events := rest } ∧
    (s.status.busy = false →
      step { s with events := .core :: rest } = .next { s with events := rest } ∧
      (s.events = [] → step s = .next s))

/-- Execute ends the command: BUSY falls, DONE rises, ERR is set exactly with a nonzero ECODE, HAZ is kept.
It writes nothing but STATUS and the command's result: no torus register but the command's destination, no
byte of the scratchpad but those of the words the command stores to, never both; on an error, and for a word
that is no command, none (10_state.md R16, R29; 60_exceptions.md R88). -/
def Obligations.ExecuteEndsTheCommand : Prop :=
  ∀ s t : State, execute s = .next t →
    t.status.busy = false ∧ t.status.done = true ∧
    (t.status.err = true ↔ t.status.ecode ≠ .none) ∧ t.status.haz = s.status.haz ∧
    t.cmd = s.cmd ∧ t.rangeLo = s.rangeLo ∧ t.rangeHi = s.rangeHi ∧ t.cfg = s.cfg ∧ t.rst = s.rst ∧
    t.resp = s.resp ∧ t.events = s.events ∧
    (t.mem = s.mem ∨ t.regs = s.regs) ∧
    (t.status.err = true → t.mem = s.mem ∧ t.regs = s.regs) ∧
    (∀ d, decode s.cmd = .error d → t.mem = s.mem ∧ t.regs = s.regs) ∧
    ∀ i, decode s.cmd = .ok i →
      (∀ r, r ∉ destinations i → t.torus r = s.torus r) ∧
      ∀ o, (∀ p ∈ wordsStored s i, o < spadOffset p.1 ∨ spadOffset (p.1 + p.2) ≤ o) →
        readByte t.mem o = readByte s.mem o

/-! ## The commands' results -/

/-- PENC.I: T[RD] becomes the N coefficients EncInt(e_j, K), e_j the W-bit element at ADDR + j*EW, or element
0 for every j when B = 1; it completes whenever the fields are in range and the elements are written
(41_polynomial_codec.md R69, R70; 40_torus_value.md R56; log 1 for 'written'). -/
def Obligations.PencIResult : Prop :=
  ∀ (s : State) (rd k : Nat) (bcast : Bool) (n addr : Nat) (e : Nat → Nat),
    rd < s.cfg.npreg → k ≤ s.cfg.w → n ≤ s.cfg.nmax →
    addr + (if bcast then 1 else n) * s.cfg.ew ≤ s.cfg.spadWords →
    (∀ j, j < (if bcast then 1 else n) → spadRead s.mem (addr + j * s.cfg.ew) s.cfg.ew = some (e j)) →
    exec (.pencI rd k bcast n addr) s = .next (succeeded (withRegister s rd
      ((List.range n).map fun j => e (if bcast then 0 else j) % 2 ^ k * 2 ^ (s.cfg.w - k))))

/-- PENC.R: T[RD] becomes the N coefficients rtie(frac(r) * 2^W) mod 2^W of the finite binary64 elements
(41_polynomial_codec.md R69, R71; 40_torus_value.md R58, R59; log 1). -/
def Obligations.PencRResult : Prop :=
  ∀ (s : State) (rd : Nat) (bcast : Bool) (n addr : Nat) (b : Nat → Word),
    rd < s.cfg.npreg → n ≤ s.cfg.nmax → addr + (if bcast then 1 else n) ≤ s.cfg.spadWords →
    (∀ j, j < (if bcast then 1 else n) →
      readWord s.mem (addr + j) = some (b j).toNat ∧ finite64 (b j) = true) →
    exec (.pencR rd bcast n addr) s = .next (succeeded (withRegister s rd
      ((List.range n).map fun j =>
        (rtie s.cfg.realTie (frac (val64 (b (if bcast then 0 else j))) * 2 ^ s.cfg.w)
          % 2 ^ s.cfg.w).toNat)))

/-- PENC.F: T[RD] becomes the N coefficients EncFloat(r, K, lo, hi), t = (r - lo) / (hi - lo) encoded whole
when FENC_QUANT = 0 and quantized to K bits when it is 1 (41_polynomial_codec.md R69, R72; 40_torus_value.md
R61, R62; log 1). -/
def Obligations.PencFResult : Prop :=
  ∀ (s : State) (rd k : Nat) (bcast : Bool) (n addr : Nat) (b : Nat → Word),
    rd < s.cfg.npreg → k ≤ s.cfg.w → n ≤ s.cfg.nmax →
    finite64 s.rangeLo = true → finite64 s.rangeHi = true → val64 s.rangeLo < val64 s.rangeHi →
    addr + (if bcast then 1 else n) ≤ s.cfg.spadWords →
    (∀ j, j < (if bcast then 1 else n) →
      readWord s.mem (addr + j) = some (b j).toNat ∧ finite64 (b j) = true) →
    exec (.pencF rd k bcast n addr) s = .next (succeeded (withRegister s rd
      ((List.range n).map fun j =>
        let t := (val64 (b (if bcast then 0 else j)) - val64 s.rangeLo)
          / (val64 s.rangeHi - val64 s.rangeLo)
        if s.cfg.fencQuant then
          (rtie s.cfg.realTie (frac t * 2 ^ k) % 2 ^ k).toNat * 2 ^ (s.cfg.w - k)
        else (rtie s.cfg.realTie (frac t * 2 ^ s.cfg.w) % 2 ^ s.cfg.w).toNat)))

/-- PDEC.I: it completes with element j, at ADDR + j*EW, the integer DecInt of coefficient j; no other byte
of the scratchpad changes, and nothing else but STATUS does (41_polynomial_codec.md R73, R74; 40_torus_value.md
R57). -/
def Obligations.PdecIResult : Prop :=
  ∀ (s : State) (rs1 k addr : Nat) (cs : List Coeff),
    rs1 < s.cfg.npreg → k ≤ s.cfg.w → s.torus rs1 = some ⟨cs⟩ →
    addr + cs.length * s.cfg.ew ≤ s.cfg.spadWords →
    ∃ m : Memory, exec (.pdecI rs1 k addr) s = .next (succeeded { s with mem := m }) ∧
      (∀ j, j < cs.length → spadRead m (addr + j * s.cfg.ew) s.cfg.ew =
        some ((cs.getD j 0 * 2 ^ k + 2 ^ (s.cfg.w - 1)) / 2 ^ s.cfg.w % 2 ^ k)) ∧
      ∀ o, (o < spadOffset addr ∨ spadOffset (addr + cs.length * s.cfg.ew) ≤ o) →
        readByte m o = readByte s.mem o

/-- PDEC.R: it completes with word ADDR + j the binary64 nearest DecInt(coefficient j) / 2^K, +0.0 where that
rounds to 1.0; no other byte changes (41_polynomial_codec.md R73, R75; 40_torus_value.md R60). -/
def Obligations.PdecRResult : Prop :=
  ∀ (s : State) (rs1 k addr : Nat) (cs : List Coeff),
    rs1 < s.cfg.npreg → k ≤ s.cfg.w → s.torus rs1 = some ⟨cs⟩ →
    addr + cs.length ≤ s.cfg.spadWords →
    ∃ m : Memory, exec (.pdecR rs1 k addr) s = .next (succeeded { s with mem := m }) ∧
      (∀ j, j < cs.length →
        let y := rne64 ((decInt s.cfg.w (cs.getD j 0) k : Rat) / 2 ^ k)
        readWord m (addr + j) = some (if y = 0x3FF0000000000000 then 0 else y.toNat)) ∧
      ∀ o, (o < spadOffset addr ∨ spadOffset (addr + cs.length) ≤ o) → readByte m o = readByte s.mem o

/-- PDEC.F: it completes with word ADDR + j the binary64 nearest lo + (m / 2^K) * (hi - lo), m = DecInt of
coefficient j, or RANGE_LO's pattern where that rounds to hi; no other byte changes (41_polynomial_codec.md
R73, R76; 40_torus_value.md R63). -/
def Obligations.PdecFResult : Prop :=
  ∀ (s : State) (rs1 k addr : Nat) (cs : List Coeff),
    rs1 < s.cfg.npreg → k ≤ s.cfg.w →
    finite64 s.rangeLo = true → finite64 s.rangeHi = true → val64 s.rangeLo < val64 s.rangeHi →
    s.torus rs1 = some ⟨cs⟩ → addr + cs.length ≤ s.cfg.spadWords →
    ∃ m : Memory, exec (.pdecF rs1 k addr) s = .next (succeeded { s with mem := m }) ∧
      (∀ j, j < cs.length →
        let y := rne64 (val64 s.rangeLo + (decInt s.cfg.w (cs.getD j 0) k : Rat) / 2 ^ k
          * (val64 s.rangeHi - val64 s.rangeLo))
        readWord m (addr + j) =
          some (if val64 y = val64 s.rangeHi then s.rangeLo else y).toNat) ∧
      ∀ o, (o < spadOffset addr ∨ spadOffset (addr + cs.length) ≤ o) → readByte m o = readByte s.mem o

/-- TADD: T[RD] becomes the coefficient-wise sum mod 2^W, computed from the sources before the command
(42_ring_arith.md R78, R79). -/
def Obligations.TaddResult : Prop :=
  ∀ (s : State) (rd rs1 rs2 : Nat) (a b : List Coeff),
    rd < s.cfg.npreg → rs1 < s.cfg.npreg → rs2 < s.cfg.npreg →
    s.torus rs1 = some ⟨a⟩ → s.torus rs2 = some ⟨b⟩ → a.length = b.length →
    exec (.tadd rd rs1 rs2) s = .next (succeeded (withRegister s rd
      ((List.range a.length).map fun j => (a.getD j 0 + b.getD j 0) % 2 ^ s.cfg.w)))

/-- TSUB: T[RD] becomes the coefficient-wise difference mod 2^W (42_ring_arith.md R78, R80). -/
def Obligations.TsubResult : Prop :=
  ∀ (s : State) (rd rs1 rs2 : Nat) (a b : List Coeff),
    rd < s.cfg.npreg → rs1 < s.cfg.npreg → rs2 < s.cfg.npreg →
    s.torus rs1 = some ⟨a⟩ → s.torus rs2 = some ⟨b⟩ → a.length = b.length →
    exec (.tsub rd rs1 rs2) s = .next (succeeded (withRegister s rd
      ((List.range a.length).map fun j =>
        (((a.getD j 0 : Int) - (b.getD j 0 : Int)) % 2 ^ s.cfg.w).toNat)))

/-- TMUL: with x, y the DecInt projections at K, T[RD] becomes EncInt at K of the negacyclic product
r_i = (sum over j <= i of x_j y_(i-j), minus the sum over j > i of x_j y_(i-j+N)) mod 2^K (42_ring_arith.md
R78, R81, R82). -/
def Obligations.TmulResult : Prop :=
  ∀ (s : State) (rd rs1 rs2 k : Nat) (a b : List Coeff),
    rd < s.cfg.npreg → rs1 < s.cfg.npreg → rs2 < s.cfg.npreg → k ≤ s.cfg.w →
    s.torus rs1 = some ⟨a⟩ → s.torus rs2 = some ⟨b⟩ → a.length = b.length →
    let x : Nat → Int := fun j => decInt s.cfg.w (a.getD j 0) k
    let y : Nat → Int := fun j => decInt s.cfg.w (b.getD j 0) k
    exec (.tmul rd rs1 rs2 k) s = .next (succeeded (withRegister s rd
      ((List.range a.length).map fun i =>
        ((∑ j ∈ Finset.range (i + 1), x j * y (i - j)
          - ∑ j ∈ Finset.Ico (i + 1) a.length, x j * y (i + a.length - j)) % 2 ^ k).toNat
          * 2 ^ (s.cfg.w - k))))

/-! ## Errors -/

/-- The check order: the first failing check's error is raised, with no other effect (60_exceptions.md R87,
R88); for check 9 the elements must be written, or the machine faults (log 1). -/
def Obligations.ErrorsInCheckOrder : Prop :=
  (∀ (s : State) (d : DecodeError), decode s.cmd = .error d →
    execute s = .next (failedWith s .illegalCommand)) ∧
  (∀ (s : State) (i : Instr), decode s.cmd = .ok i → execute s = exec i s) ∧
  ∀ (s : State) (i : Instr),
    (¬RegistersExist s i → exec i s = .next (failedWith s .invalidRegister)) ∧
    (RegistersExist s i → ¬ModulusLegal s i → exec i s = .next (failedWith s .invalidModulus)) ∧
    (RegistersExist s i → ModulusLegal s i → ¬LengthFits s i →
      exec i s = .next (failedWith s .lengthTooLarge)) ∧
    (RegistersExist s i → ModulusLegal s i → LengthFits s i → ¬RangeLegal s i →
      exec i s = .next (failedWith s .rangeMismatch)) ∧
    (RegistersExist s i → ModulusLegal s i → LengthFits s i → RangeLegal s i → ¬SourcesValid s i →
      exec i s = .next (failedWith s .emptyRegister)) ∧
    (RegistersExist s i → ModulusLegal s i → LengthFits s i → RangeLegal s i → SourcesValid s i →
      ¬SizesMatch s i → exec i s = .next (failedWith s .sizeMismatch)) ∧
    (RegistersExist s i → ModulusLegal s i → LengthFits s i → RangeLegal s i → SourcesValid s i →
      SizesMatch s i → ¬AddressFits s i → exec i s = .next (failedWith s .addressRange)) ∧
    (EarlierChecksPass s i → InputsWritten s i → ¬InputsFinite s i →
      exec i s = .next (failedWith s .nonFiniteInput))

/-- No error without a cause: when every check passes and the elements read are written, exec completes with
ERR = 0 (60_exceptions.md R87; 10_state.md R29). -/
def Obligations.NoErrorWithoutCause : Prop :=
  ∀ (s : State) (i : Instr), EarlierChecksPass s i → InputsWritten s i → InputsFinite s i →
    ∃ t, exec i s = .next t ∧ t.status.err = false ∧ t.status.done = true

/-- A command stops exactly when the checks 2 to 8 pass and a scratchpad word it reads was never written, and
then with the named fault; no command is refused (93_implementation_defined.md row 1, 90_conflicts.md C6; log 1). -/
def Obligations.OnlyUnwrittenReadsFault : Prop :=
  ∀ (s : State) (i : Instr),
    (EarlierChecksPass s i → ¬InputsWritten s i → exec i s = .fault .unwrittenScratchpadRead) ∧
    (∀ f, exec i s = .fault f → f = .unwrittenScratchpadRead ∧ EarlierChecksPass s i ∧
      ¬InputsWritten s i) ∧
    ∀ r, exec i s ≠ .refused r

/-- A command that raises an error changes no torus register and no scratchpad word, only STATUS; the core
stays usable: a next command is accepted, and ERR, DONE and ECODE are cleared (60_exceptions.md R88). -/
def Obligations.ErrorChangesOnlyStatus : Prop :=
  ∀ s t : State, execute s = .next t → t.status.err = true →
    t = failedWith s t.status.ecode ∧
    (t.rst = false → ∀ c : Word, hostAccess (writeAt 0x00008 c) t = .next (answered { t with
      cmd := c
      status := { busy := true, done := false, err := false, ecode := .none, haz := s.status.haz } }
      .done))

/-! ## Frames -/

/-- The frame of the register commands (PENC.I, PENC.R, PENC.F, TADD, TSUB, TMUL): every other torus register,
every byte of the scratchpad, CMD, the RANGE registers and all else but STATUS stay; HAZ stays
(10_state.md R16, R29; 41_polynomial_codec.md R69; 42_ring_arith.md R78). -/
def Obligations.RegisterCommandsFrame : Prop :=
  ∀ (s t : State) (i : Instr) (rd : Nat),
    ((∃ k bcast n addr, i = .pencI rd k bcast n addr) ∨ (∃ bcast n addr, i = .pencR rd bcast n addr) ∨
      (∃ k bcast n addr, i = .pencF rd k bcast n addr) ∨ (∃ rs1 rs2, i = .tadd rd rs1 rs2) ∨
      (∃ rs1 rs2, i = .tsub rd rs1 rs2) ∨ ∃ rs1 rs2 k, i = .tmul rd rs1 rs2 k) →
    exec i s = .next t →
    (∀ r, r ≠ rd → t.torus r = s.torus r) ∧ (∀ o, readByte t.mem o = readByte s.mem o) ∧
    t.cmd = s.cmd ∧ t.rangeLo = s.rangeLo ∧ t.rangeHi = s.rangeHi ∧ t.cfg = s.cfg ∧ t.rst = s.rst ∧
    t.resp = s.resp ∧ t.events = s.events ∧ t.status.haz = s.status.haz

/-- The frame of the decode commands: every torus register, the source among them, and every byte outside the
words stored to (the len*s words from ADDR) stay, and so does all else but STATUS; HAZ stays
(10_state.md R16, R29; 41_polynomial_codec.md R73). -/
def Obligations.DecodeCommandsFrame : Prop :=
  ∀ (s t : State) (i : Instr) (rs1 k addr size : Nat),
    (i = .pdecI rs1 k addr ∧ size = s.cfg.ew ∨ i = .pdecR rs1 k addr ∧ size = 1 ∨
      i = .pdecF rs1 k addr ∧ size = 1) →
    exec i s = .next t →
    (∀ r, t.torus r = s.torus r) ∧
    (∀ o, (o < spadOffset addr ∨ spadOffset (addr + s.len rs1 * size) ≤ o) →
      readByte t.mem o = readByte s.mem o) ∧
    t.cmd = s.cmd ∧ t.rangeLo = s.rangeLo ∧ t.rangeHi = s.rangeHi ∧ t.cfg = s.cfg ∧ t.rst = s.rst ∧
    t.resp = s.resp ∧ t.events = s.events ∧ t.status.haz = s.status.haz

/-! ## The host's accesses -/

/-- A CMD write while BUSY = 0 accepts any word, in one step (20_memory.md R39). -/
def Obligations.CmdWriteAccepts : Prop :=
  ∀ (s : State) (c : Word), s.rst = false → s.status.busy = false →
    hostAccess (writeAt 0x00008 c) s = .next (answered { s with
      cmd := c
      status := { busy := true, done := false, err := false, ecode := .none, haz := s.status.haz } }
      .done)

/-- The table of accesses while BUSY = 1, and that a pending command always sees the SPAD, RANGE_LO and
RANGE_HI values it had when it was accepted (20_memory.md R38). -/
def Obligations.AccessesWhileBusy : Prop :=
  (∀ s : State, s.rst = false → s.status.busy = true →
    hostAccess (readAt 0x00000) s = .next (answered s (.data (capWord s.cfg))) ∧
    hostAccess (readAt 0x00010) s = .next (answered s (.data s.status.word)) ∧
    hostAccess (readAt 0x00008) s = .next (answered s (.data s.cmd)) ∧
    hostAccess (readAt 0x00020) s = .next (answered s (.data s.rangeLo)) ∧
    hostAccess (readAt 0x00028) s = .next (answered s (.data s.rangeHi)) ∧
    (∀ v : Word,
      hostAccess (writeAt 0x00018 v) s = .next (answered
        (if v.getLsbD 0 then resetState s
          else if v.getLsbD 1 then { s with status := { s.status with haz := false } } else s) .done) ∧
      hostAccess (writeAt 0x00000 v) s = .next (answered s .done) ∧
      hostAccess (writeAt 0x00010 v) s = .next (answered s .done) ∧
      hostAccess (writeAt 0x00008 v) s = .next (answered (withHaz s) .done) ∧
      hostAccess (writeAt 0x00020 v) s = .next (answered (withHaz s) .done) ∧
      hostAccess (writeAt 0x00028 v) s = .next (answered (withHaz s) .done)) ∧
    ∀ w, w < s.cfg.spadWords →
      hostAccess (readAt (0x40000 + 8 * w)) s = .next (answered (withHaz s) (.data 0)) ∧
      ∀ v : Word, hostAccess (writeAt (0x40000 + 8 * w) v) s = .next (answered (withHaz s) .done)) ∧
  ∀ (s t : State) (a : Access), s.status.busy = true → hostAccess a s = .next t →
    t.status.busy = true →
    t.mem = s.mem ∧ t.rangeLo = s.rangeLo ∧ t.rangeHi = s.rangeHi ∧ t.cmd = s.cmd ∧ t.regs = s.regs

/-- A write to CAP or STATUS completes and has no effect, and CTRL reads 0, whether BUSY is 0 or 1
(10_state.md R23). -/
def Obligations.ReadOnlyRegisters : Prop :=
  ∀ s : State, s.rst = false →
    (∀ v : Word, hostAccess (writeAt 0x00000 v) s = .next (answered s .done) ∧
      hostAccess (writeAt 0x00010 v) s = .next (answered s .done)) ∧
    hostAccess (readAt 0x00018) s = .next (answered s (.data 0))

/-- CTRL's actions: SRESET resets and clears HAZ in any case, CLRHAZ alone clears HAZ, the reserved bits are
ignored; CTRL reads 0; whether BUSY is 0 or 1 (10_state.md R27). -/
def Obligations.CtrlActions : Prop :=
  ∀ (s : State) (v : Word), s.rst = false →
    (v.getLsbD 0 = true → hostAccess (writeAt 0x00018 v) s = .next (answered (resetState s) .done)) ∧
    (v.getLsbD 0 = false → v.getLsbD 1 = true → hostAccess (writeAt 0x00018 v) s =
      .next (answered { s with status := { s.status with haz := false } } .done)) ∧
    (v.getLsbD 0 = false → v.getLsbD 1 = false →
      hostAccess (writeAt 0x00018 v) s = .next (answered s .done)) ∧
    hostAccess (readAt 0x00018) s = .next (answered s (.data 0))

/-- A soft reset leaves every register invalid, CMD, STATUS and the RANGE registers 0 and the scratchpad as
it was, as a hard reset does; a pending command is discarded: the core's next turn changes nothing
(70_reset_and_hazards.md R101, 10_state.md R31). That a level of `rst` resets at once, also a release, is
the model's choice (log 8), and so is that the core's turn with nothing pending leaves the state (log 7). -/
def Obligations.SoftResetDiscardsPending : Prop :=
  ∀ (s : State) (v : Word), s.rst = false → v.getLsbD 0 = true →
    ∃ t, hostAccess (writeAt 0x00018 v) s = .next t ∧
      (∀ r, t.torus r = none) ∧ t.cmd = 0 ∧ t.status.word = 0 ∧ t.rangeLo = 0 ∧ t.rangeHi = 0 ∧
      t.mem = s.mem ∧ t.cfg = s.cfg ∧
      takeTurn (.rst false) s = .next { t with resp := s.resp } ∧
      takeTurn .core t = .next t

/-- Hard reset: the core answers no host access while `rst` is asserted, and on its release every piece of
state has its reset value, the scratchpad kept (70_reset_and_hazards.md R100; log 7 for the core's turn, log 8). -/
def Obligations.HardReset : Prop :=
  ∀ s : State,
    (∀ b, ∃ t, takeTurn (.rst b) s = .next t ∧ t.rst = b ∧ (∀ r, t.torus r = none) ∧ t.cmd = 0 ∧
      t.status.word = 0 ∧ t.rangeLo = 0 ∧ t.rangeHi = 0 ∧ t.mem = s.mem ∧ t.cfg = s.cfg) ∧
    (s.rst = true → ∀ a t, hostAccess a s ≠ .next t) ∧
    (s.rst = true → takeTurn .core s = .next s)

/-- The state right after reset: every register invalid, CMD, STATUS and the RANGE registers read 0, IDLE,
the scratchpad unwritten, CAP the default instance's (10_state.md R31; 00_scope.md R5; 95_test_vectors.md). -/
def Obligations.ResetValues : Prop :=
  (∀ r, State.reset.torus r = none) ∧ State.reset.cmd = 0 ∧ State.reset.status.word = 0 ∧
  State.reset.rangeLo = 0 ∧ State.reset.rangeHi = 0 ∧ (∀ w, readWord State.reset.mem w = none) ∧
  State.reset.rst = false ∧ capWord State.reset.cfg = 0x01003FFF0FFF1040

/-- Bus errors: a narrower, wider or partly strobed access, a misaligned offset and a reserved offset get a
bus error with no change of state, HAZ included, and no data; every other access gets none
(20_memory.md R36, with R34's map). That the bus error is recorded as the answer and the run goes on is the
model's choice (log 5). -/
def Obligations.BusErrors : Prop :=
  ∀ (s : State) (a : Access), s.rst = false →
    (¬(a.width = 64 ∧ a.strobe = 0xFF ∧ Mapped s.cfg a.offset.toNat) →
      hostAccess a s = .next (answered s .busError)) ∧
    (a.width = 64 → a.strobe = 0xFF → Mapped s.cfg a.offset.toNat →
      ∀ t, hostAccess a s = .next t → t.resp = some .done ∧ (∃ v, a.kind = .write v) ∨
        a.kind = .read ∧ ∃ v, t.resp = some (.data v))

/-- CAP reads the instance's parameters, each in its field, and is constant: no step changes what it reads
(10_state.md R24). -/
def Obligations.CapFields : Prop :=
  (∀ s t : State, step s = .next t → capWord t.cfg = capWord s.cfg) ∧
  ∀ s : State, s.rst = false →
    ∃ c : Word, hostAccess (readAt 0x00000) s = .next (answered s (.data c)) ∧
      (c.extractLsb 7 0).toNat = s.cfg.w ∧ (c.extractLsb 15 8).toNat = s.cfg.npreg ∧
      (c.extractLsb 31 16).toNat = s.cfg.nmax - 1 ∧ (c.extractLsb 47 32).toNat = s.cfg.spadWords - 1 ∧
      c.getLsbD 48 = s.cfg.fencQuant ∧ (c.getLsbD 49 = true ↔ s.cfg.realTie = .halfEven) ∧
      (c.getLsbD 50 = true ↔ s.cfg.mulImpl = .transform) ∧ c.extractLsb 55 51 = 0 ∧
      (c.extractLsb 63 56).toNat = 1

/-- STATUS reads its fields at their bits and 0 elsewhere (10_state.md R26; the ECODE values of 60_exceptions.md
R86). -/
def Obligations.StatusFields : Prop :=
  ∀ s : State, s.rst = false →
    ∃ c : Word, hostAccess (readAt 0x00010) s = .next (answered s (.data c)) ∧
      c.getLsbD 0 = s.status.busy ∧ c.getLsbD 1 = s.status.done ∧ c.getLsbD 2 = s.status.err ∧
      c.extractLsb 7 3 = 0 ∧ c.getLsbD 16 = s.status.haz ∧ c.extractLsb 63 17 = 0 ∧
      (c.extractLsb 15 8).toNat =
        match s.status.ecode with
        | .none => 0x00 | .invalidModulus => 0x01 | .sizeMismatch => 0x02 | .rangeMismatch => 0x03
        | .illegalCommand => 0x10 | .invalidRegister => 0x11 | .emptyRegister => 0x12
        | .lengthTooLarge => 0x13 | .addressRange => 0x14 | .nonFiniteInput => 0x15

/-- The RANGE registers: a write while IDLE stores any word and a read gives it back, the other stays
(10_state.md R28). -/
def Obligations.RangeRegisters : Prop :=
  ∀ (s : State) (v : Word), s.rst = false → s.status.busy = false →
    hostAccess (writeAt 0x00020 v) s = .next (answered { s with rangeLo := v } .done) ∧
    hostAccess (writeAt 0x00028 v) s = .next (answered { s with rangeHi := v } .done) ∧
    hostAccess (readAt 0x00020) s = .next (answered s (.data s.rangeLo)) ∧
    hostAccess (readAt 0x00028) s = .next (answered s (.data s.rangeHi))

/-- A scratchpad write while IDLE: byte i of the word stands at offset +i as bits [8i+7:8i], every other byte
stays, and a read of the word gives it back (20_memory.md R33, R35, R37). -/
def Obligations.ScratchpadWriteAndRead : Prop :=
  ∀ (s : State) (w : Nat) (v : Word), s.rst = false → s.status.busy = false → w < s.cfg.spadWords →
    ∃ m : Memory,
      hostAccess (writeAt (0x40000 + 8 * w) v) s = .next (answered { s with mem := m } .done) ∧
      (∀ i, i < 8 → readByte m (0x40000 + 8 * w + i) = some (v.extractLsb' (8 * i) 8)) ∧
      (∀ o, (o < 0x40000 + 8 * w ∨ 0x40000 + 8 * w + 8 ≤ o) → readByte m o = readByte s.mem o) ∧
      hostAccess (readAt (0x40000 + 8 * w)) { s with mem := m } =
        .next (answered { s with mem := m } (.data v))

/-- SpadRead(a, n) is the sum over w < n of SPAD[a+w] * 2^(64w): the lower-addressed word is the less
significant (20_memory.md R33, 00_scope.md R12). -/
def Obligations.SpadReadIsTheSum : Prop :=
  ∀ (m : Memory) (a n : Nat) (x : Nat → Nat), (∀ w, w < n → readWord m (a + w) = some (x w)) →
    spadRead m a n = some (∑ w ∈ Finset.range n, x w * 2 ^ (64 * w))

/-- Reads have no side effect, except that a read of a scratchpad word while BUSY sets HAZ, and answers 0
(20_memory.md R37, R38). -/
def Obligations.ReadsHaveNoSideEffect : Prop :=
  ∀ (s t : State) (a : Access), a.kind = .read → hostAccess a s = .next t →
    t = { s with resp := t.resp } ∨
      s.status.busy = true ∧ (∃ w, w < s.cfg.spadWords ∧ a = readAt (0x40000 + 8 * w)) ∧
        t = answered (withHaz s) (.data 0)

/-! ## Whole-machine rules -/

/-- No command clears valid; only a reset or a power cycle does (10_state.md R17). -/
def Obligations.OnlyResetClearsValid : Prop :=
  ∀ (s t : State) (r : Nat), step s = .next t → (s.torus r).isSome = true → (t.torus r).isSome = false →
    ∃ e rest, s.events = e :: rest ∧ isReset e

/-- CMD holds the last word the core accepted: it changes only by a host write to CMD while IDLE, which
stores the word written, or by a reset (10_state.md R25). -/
def Obligations.CmdChangesOnlyOnAccept : Prop :=
  ∀ s t : State, step s = .next t → t.cmd ≠ s.cmd →
    ∃ e rest, s.events = e :: rest ∧
      (isReset e ∨ ∃ c, e = .host (writeAt 0x00008 c) ∧ s.status.busy = false ∧ t.cmd = c)

/-- HAZ is sticky: only CTRL.CLRHAZ and resets clear it, and only a refused access, made while BUSY = 1, sets
it (10_state.md R26). -/
def Obligations.HazIsSticky : Prop :=
  ∀ s t : State, step s = .next t →
    (s.status.haz = true → t.status.haz = false → ∃ e rest, s.events = e :: rest ∧
      (isReset e ∨ ∃ v : Word, e = .host (writeAt 0x00018 v) ∧ v.getLsbD 1 = true)) ∧
    (s.status.haz = false → t.status.haz = true →
      s.status.busy = true ∧ ∃ a rest, s.events = .host a :: rest)


/-- Every field of CAP is hardwired: no step changes the instance's parameters (10_state.md R24, 00_scope.md
R5; log 3). -/
def Obligations.StepKeepsConfiguration : Prop :=
  ∀ s t : State, step s = .next t → t.cfg = s.cfg

/-- No result depends on MUL_IMPL: exec answers the same in an instance built with another multiplier
(42_ring_arith.md R83). -/
def Obligations.MulImplNotObservable : Prop :=
  ∀ (s : State) (i : Instr) (m : MulImpl),
    (∀ t, exec i s = .next t → exec i (withMulImpl m s) = .next (withMulImpl m t)) ∧
    ∀ f, exec i s = .fault f → exec i (withMulImpl m s) = .fault f

/-- Every step keeps the memory in its canonical form, from any state (the model's own form). -/
def Obligations.StepKeepsMemoryCanonical : Prop :=
  ∀ s t : State, Memory.wf s.mem = true → step s = .next t → Memory.wf t.mem = true

/-- The reset state of every instance has the invariant. -/
def Obligations.ResetHasInvariant : Prop := ∀ cfg : Config, (State.resetOf cfg).Inv

/-- Every step keeps the invariant: scratchpad words whole and inside SPAD_WORDS, no register at or above
NPREG, len in 1..NMAX, every raw below 2^W, a legal combination of STATUS bits, no command pending under
`rst` (10_state.md R15, R26; 40_torus_value.md R55). -/
def Obligations.StepKeepsInvariant : Prop :=
  ∀ s t : State, s.Inv → step s = .next t → t.Inv

/-! ## Laws of the values -/

/-- Integer round trip: DecInt(EncInt(i, k), k) = i for 0 <= k <= W and i in [0, 2^k) (40_torus_value.md
R65). -/
def Obligations.IntegerRoundTrip : Prop :=
  ∀ (cfg : Config) (k i : Nat), k ≤ cfg.w → i < 2 ^ k → decInt cfg.w (encInt cfg.w i k) k = i

/-- Raw pass-through: with k = W, EncInt(i, W) = i mod 2^W and DecInt(raw, W) = raw; so PENC.I and PDEC.I with
K = W move raw words unchanged (40_torus_value.md R68). -/
def Obligations.RawPassThrough : Prop :=
  (∀ (cfg : Config) (i : Nat), encInt cfg.w i cfg.w = i % 2 ^ cfg.w) ∧
  (∀ (cfg : Config) (raw : Coeff), raw < 2 ^ cfg.w → decInt cfg.w raw cfg.w = raw) ∧
  (∀ (s : State) (rd n addr : Nat) (es : List Nat), rd < s.cfg.npreg → n ≤ s.cfg.nmax →
    addr + n * s.cfg.ew ≤ s.cfg.spadWords → readElements s.mem addr s.cfg.ew n = some es →
    exec (tld s.cfg rd n addr) s = .next (succeeded (withRegister s rd es))) ∧
  ∀ (s : State) (rs1 addr : Nat) (cs : List Coeff), rs1 < s.cfg.npreg → s.torus rs1 = some ⟨cs⟩ →
    (∀ c ∈ cs, c < 2 ^ s.cfg.w) → addr + cs.length * s.cfg.ew ≤ s.cfg.spadWords →
    ∃ m : Memory, exec (tst s.cfg rs1 addr) s = .next (succeeded { s with mem := m }) ∧
      readElements m addr s.cfg.ew cs.length = some cs

/-- EncInt reduces its input: the input counts only mod 2^k, a W-bit two's complement input included, and the
result is i * 2^(W-k) mod 2^W (40_torus_value.md R56). -/
def Obligations.EncIntReducesInput : Prop :=
  ∀ (cfg : Config) (i k : Nat), k ≤ cfg.w →
    encInt cfg.w i k = i * 2 ^ (cfg.w - k) % 2 ^ cfg.w ∧
    encInt cfg.w (i % 2 ^ cfg.w) k = encInt cfg.w i k ∧
    encInt cfg.w (i % 2 ^ k) k = encInt cfg.w i k ∧ encInt cfg.w i 0 = 0

/-- DecInt by shifts: for k < W it is ((raw + 2^(W-k-1)) >> (W-k)) mod 2^k; a tie rounds up; rounding to 2^k
wraps to 0 (40_torus_value.md R57; 90_conflicts.md C1). -/
def Obligations.DecIntByShift : Prop :=
  ∀ (cfg : Config) (raw : Coeff) (k : Nat), raw < 2 ^ cfg.w →
    (k < cfg.w →
      decInt cfg.w raw k = ((raw + 2 ^ (cfg.w - k - 1)) >>> (cfg.w - k)) % 2 ^ k ∧
      (2 ^ cfg.w - 2 ^ (cfg.w - k - 1) ≤ raw → decInt cfg.w raw k = 0)) ∧
    (∀ m, k < cfg.w → m + 1 < 2 ^ k → raw = m * 2 ^ (cfg.w - k) + 2 ^ (cfg.w - k - 1) →
      decInt cfg.w raw k = m + 1) ∧
    decInt cfg.w raw 0 = 0


/-- RNE64 gives a nearest binary64: for v within the finite range, no finite pattern is nearer, and of two at
the same distance it is the one with the even significand (00_scope.md R10). -/
def Obligations.RneIsNearestEven : Prop :=
  ∀ (v : Rat) (b : Word), finite64 b = true → |v| ≤ val64 0x7FEFFFFFFFFFFFFF →
    finite64 (rne64 v) = true ∧
    |val64 (rne64 v) - v| ≤ |val64 b - v| ∧
    (|val64 (rne64 v) - v| = |val64 b - v| → val64 b ≠ val64 (rne64 v) →
      (rne64 v).getLsbD 0 = false) ∧
    ((rne64 v).getLsbD 63 = true ↔ v < 0)

/-- A decoded real is finite, in [0, 1) and never -0.0 (40_torus_value.md R60; 41_polynomial_codec.md R75). -/
def Obligations.DecRealInUnitInterval : Prop :=
  ∀ (cfg : Config) (raw : Coeff) (k : Nat), k ≤ cfg.w →
    finite64 (decReal cfg.w raw k) = true ∧ 0 ≤ val64 (decReal cfg.w raw k) ∧
    val64 (decReal cfg.w raw k) < 1 ∧ (decReal cfg.w raw k).getLsbD 63 = false

/-- A decoded bounded real is finite and in [lo, hi) (40_torus_value.md R63; 41_polynomial_codec.md R76). -/
def Obligations.DecFloatInRange : Prop :=
  ∀ (cfg : Config) (lo hi : Word) (raw : Coeff) (k : Nat), k ≤ cfg.w → rangeOK lo hi = true →
    finite64 (decFloat cfg.w lo hi raw k) = true ∧ val64 lo ≤ val64 (decFloat cfg.w lo hi raw k) ∧
    val64 (decFloat cfg.w lo hi raw k) < val64 hi

/-- Real round trip: for a finite binary64 r in [0, 1) and every k <= W, the decoded real is within
2^-(k+1) + 2^-(W+1) <= 2^-k of r on the circle, and equals r when r is a multiple of 2^-k (40_torus_value.md
R66; 90_conflicts.md C4). -/
def Obligations.RealRoundTrip : Prop :=
  ∀ (cfg : Config) (b : Word) (k : Nat), finite64 b = true → 0 ≤ val64 b → val64 b < 1 → k ≤ cfg.w →
    torusDist (val64 (decReal cfg.w (encReal cfg b) k)) (val64 b) ≤ 1 / 2 ^ (k + 1) + 1 / 2 ^ (cfg.w + 1) ∧
    (1 : Rat) / 2 ^ (k + 1) + 1 / 2 ^ (cfg.w + 1) ≤ 1 / 2 ^ k ∧
    ((∃ m : Int, val64 b = m / 2 ^ k) → val64 (decReal cfg.w (encReal cfg b) k) = val64 b)

/-- Batch and scalar equivalence: coefficient j of a batched encode is the coefficient the length-1 command
writes from element j, and with B = 1 every coefficient is the scalar result of element 0
(41_polynomial_codec.md R77). -/
def Obligations.BatchEncodeMatchesScalar : Prop :=
  ∀ (s t : State) (rd k n addr j : Nat), j < n →
    (exec (.pencI rd k false n addr) s = .next t → t.status.err = false →
      ∃ u, exec (tencI rd k (addr + j * s.cfg.ew)) s = .next u ∧ u.coeffs rd = [t.coeffAt rd j]) ∧
    (exec (.pencR rd false n addr) s = .next t → t.status.err = false →
      ∃ u, exec (tencR rd (addr + j)) s = .next u ∧ u.coeffs rd = [t.coeffAt rd j]) ∧
    (exec (.pencF rd k false n addr) s = .next t → t.status.err = false →
      ∃ u, exec (tencF rd k (addr + j)) s = .next u ∧ u.coeffs rd = [t.coeffAt rd j]) ∧
    (exec (.pencI rd k true n addr) s = .next t → t.status.err = false →
      ∃ u, exec (tencI rd k addr) s = .next u ∧ u.coeffs rd = [t.coeffAt rd j]) ∧
    (exec (.pencR rd true n addr) s = .next t → t.status.err = false →
      ∃ u, exec (tencR rd addr) s = .next u ∧ u.coeffs rd = [t.coeffAt rd j]) ∧
    (exec (.pencF rd k true n addr) s = .next t → t.status.err = false →
      ∃ u, exec (tencF rd k addr) s = .next u ∧ u.coeffs rd = [t.coeffAt rd j])

/-- NegaConv is the integer convolution c folded through X^N = -1: r_i = (c_i - c_(i+N)) mod 2^k
(42_ring_arith.md R81). -/
def Obligations.NegaConvFoldsConvolution : Prop :=
  ∀ (a b : List Nat) (k i : Nat), a.length = b.length → i < a.length →
    let c : Nat → Int := fun m =>
      ∑ p ∈ Finset.range a.length ×ˢ Finset.range a.length,
        if p.1 + p.2 = m then (a.getD p.1 0 : Int) * (b.getD p.2 0 : Int) else 0
    (negaConv a b k).getD i 0 = ((c i - c (i + a.length)) % 2 ^ k).toNat

/-- The ring commands commute: swapping the sources of TADD or TMUL changes nothing, in any state
(42_ring_arith.md R84). -/
def Obligations.AddAndMulCommute : Prop :=
  ∀ (s : State) (rd rs1 rs2 k : Nat),
    exec (.tadd rd rs1 rs2) s = exec (.tadd rd rs2 rs1) s ∧
    exec (.tmul rd rs1 rs2 k) s = exec (.tmul rd rs2 rs1 k) s

/-- The ring laws of the raws: addition is associative, A - B = A + (0 - B), A - A = 0, and for EncInt raws at
k the decoded sum and difference are exact mod 2^k (42_ring_arith.md R84). -/
def Obligations.RawRingLaws : Prop :=
  ∀ (cfg : Config) (a b c : Coeff) (x y k : Nat), k ≤ cfg.w →
    addRaw cfg.w (addRaw cfg.w a b) c = addRaw cfg.w a (addRaw cfg.w b c) ∧
    subRaw cfg.w a b = addRaw cfg.w a (subRaw cfg.w 0 b) ∧ subRaw cfg.w a a = 0 ∧
    decInt cfg.w (addRaw cfg.w (encInt cfg.w x k) (encInt cfg.w y k)) k = (x + y) % 2 ^ k ∧
    (decInt cfg.w (subRaw cfg.w (encInt cfg.w x k) (encInt cfg.w y k)) k : Int)
      = ((x : Int) - (y : Int)) % 2 ^ k

/-- Decoding a sum: for any raws and k <= 53, the decoded real of the sum is within 2^-k, on the circle, of
the sum of the decoded reals (42_ring_arith.md R84). -/
def Obligations.DecodedSumIsClose : Prop :=
  ∀ (cfg : Config) (a b : Coeff) (k : Nat), a < 2 ^ cfg.w → b < 2 ^ cfg.w → k ≤ 53 →
    torusDist (val64 (decReal cfg.w (addRaw cfg.w a b) k))
      (val64 (decReal cfg.w a k) + val64 (decReal cfg.w b k)) ≤ 1 / 2 ^ k
end

