-- ==== Sys2Proof/Laws/State.lean ====
section
/-! SUPPORT. One lemma per field per named update of State, so that no later proof unfolds an update. -/

namespace Sys2Proof.Machine

variable (s : State)

/-! setTorus -/

@[simp] theorem State.setTorus_cfg (r : Nat) (p : TorusPoly) :
    (s.setTorus r p).cfg = s.cfg := rfl
@[simp] theorem State.setTorus_regs (r : Nat) (p : TorusPoly) :
    (s.setTorus r p).regs = s.regs.setIfInBounds r (some p) := rfl
@[simp] theorem State.setTorus_cmd (r : Nat) (p : TorusPoly) :
    (s.setTorus r p).cmd = s.cmd := rfl
@[simp] theorem State.setTorus_status (r : Nat) (p : TorusPoly) :
    (s.setTorus r p).status = s.status := rfl
@[simp] theorem State.setTorus_rangeLo (r : Nat) (p : TorusPoly) :
    (s.setTorus r p).rangeLo = s.rangeLo := rfl
@[simp] theorem State.setTorus_rangeHi (r : Nat) (p : TorusPoly) :
    (s.setTorus r p).rangeHi = s.rangeHi := rfl
@[simp] theorem State.setTorus_mem (r : Nat) (p : TorusPoly) :
    (s.setTorus r p).mem = s.mem := rfl
@[simp] theorem State.setTorus_rst (r : Nat) (p : TorusPoly) :
    (s.setTorus r p).rst = s.rst := rfl
@[simp] theorem State.setTorus_resp (r : Nat) (p : TorusPoly) :
    (s.setTorus r p).resp = s.resp := rfl
@[simp] theorem State.setTorus_events (r : Nat) (p : TorusPoly) :
    (s.setTorus r p).events = s.events := rfl

/-! raise -/

@[simp] theorem State.raise_cfg (e : ErrorCode) : (s.raise e).cfg = s.cfg := rfl
@[simp] theorem State.raise_regs (e : ErrorCode) : (s.raise e).regs = s.regs := rfl
@[simp] theorem State.raise_cmd (e : ErrorCode) : (s.raise e).cmd = s.cmd := rfl
@[simp] theorem State.raise_status (e : ErrorCode) : (s.raise e).status = s.status.failed e := rfl
@[simp] theorem State.raise_rangeLo (e : ErrorCode) : (s.raise e).rangeLo = s.rangeLo := rfl
@[simp] theorem State.raise_rangeHi (e : ErrorCode) : (s.raise e).rangeHi = s.rangeHi := rfl
@[simp] theorem State.raise_mem (e : ErrorCode) : (s.raise e).mem = s.mem := rfl
@[simp] theorem State.raise_rst (e : ErrorCode) : (s.raise e).rst = s.rst := rfl
@[simp] theorem State.raise_resp (e : ErrorCode) : (s.raise e).resp = s.resp := rfl
@[simp] theorem State.raise_events (e : ErrorCode) : (s.raise e).events = s.events := rfl

/-! complete -/

@[simp] theorem State.complete_cfg : (s.complete).cfg = s.cfg := rfl
@[simp] theorem State.complete_regs : (s.complete).regs = s.regs := rfl
@[simp] theorem State.complete_cmd : (s.complete).cmd = s.cmd := rfl
@[simp] theorem State.complete_status : (s.complete).status = s.status.succeeded := rfl
@[simp] theorem State.complete_rangeLo : (s.complete).rangeLo = s.rangeLo := rfl
@[simp] theorem State.complete_rangeHi : (s.complete).rangeHi = s.rangeHi := rfl
@[simp] theorem State.complete_mem : (s.complete).mem = s.mem := rfl
@[simp] theorem State.complete_rst : (s.complete).rst = s.rst := rfl
@[simp] theorem State.complete_resp : (s.complete).resp = s.resp := rfl
@[simp] theorem State.complete_events : (s.complete).events = s.events := rfl

/-! commitTorus -/

@[simp] theorem State.commitTorus_cfg (r : Nat) (cs : List Coeff) :
    (s.commitTorus r cs).cfg = s.cfg := rfl
@[simp] theorem State.commitTorus_regs (r : Nat) (cs : List Coeff) :
    (s.commitTorus r cs).regs = s.regs.setIfInBounds r (some ⟨cs⟩) := rfl
@[simp] theorem State.commitTorus_cmd (r : Nat) (cs : List Coeff) :
    (s.commitTorus r cs).cmd = s.cmd := rfl
@[simp] theorem State.commitTorus_status (r : Nat) (cs : List Coeff) :
    (s.commitTorus r cs).status = s.status.succeeded := rfl
@[simp] theorem State.commitTorus_rangeLo (r : Nat) (cs : List Coeff) :
    (s.commitTorus r cs).rangeLo = s.rangeLo := rfl
@[simp] theorem State.commitTorus_rangeHi (r : Nat) (cs : List Coeff) :
    (s.commitTorus r cs).rangeHi = s.rangeHi := rfl
@[simp] theorem State.commitTorus_mem (r : Nat) (cs : List Coeff) :
    (s.commitTorus r cs).mem = s.mem := rfl
@[simp] theorem State.commitTorus_rst (r : Nat) (cs : List Coeff) :
    (s.commitTorus r cs).rst = s.rst := rfl
@[simp] theorem State.commitTorus_resp (r : Nat) (cs : List Coeff) :
    (s.commitTorus r cs).resp = s.resp := rfl
@[simp] theorem State.commitTorus_events (r : Nat) (cs : List Coeff) :
    (s.commitTorus r cs).events = s.events := rfl

/-! commitSpad -/

@[simp] theorem State.commitSpad_cfg (a size : Nat) (vs : List Nat) :
    (s.commitSpad a size vs).cfg = s.cfg := rfl
@[simp] theorem State.commitSpad_regs (a size : Nat) (vs : List Nat) :
    (s.commitSpad a size vs).regs = s.regs := rfl
@[simp] theorem State.commitSpad_cmd (a size : Nat) (vs : List Nat) :
    (s.commitSpad a size vs).cmd = s.cmd := rfl
@[simp] theorem State.commitSpad_status (a size : Nat) (vs : List Nat) :
    (s.commitSpad a size vs).status = s.status.succeeded := rfl
@[simp] theorem State.commitSpad_rangeLo (a size : Nat) (vs : List Nat) :
    (s.commitSpad a size vs).rangeLo = s.rangeLo := rfl
@[simp] theorem State.commitSpad_rangeHi (a size : Nat) (vs : List Nat) :
    (s.commitSpad a size vs).rangeHi = s.rangeHi := rfl
@[simp] theorem State.commitSpad_mem (a size : Nat) (vs : List Nat) :
    (s.commitSpad a size vs).mem = writeElements s.mem a size vs := rfl
@[simp] theorem State.commitSpad_rst (a size : Nat) (vs : List Nat) :
    (s.commitSpad a size vs).rst = s.rst := rfl
@[simp] theorem State.commitSpad_resp (a size : Nat) (vs : List Nat) :
    (s.commitSpad a size vs).resp = s.resp := rfl
@[simp] theorem State.commitSpad_events (a size : Nat) (vs : List Nat) :
    (s.commitSpad a size vs).events = s.events := rfl

/-! accept -/

@[simp] theorem State.accept_cfg (c : Word) : (s.accept c).cfg = s.cfg := rfl
@[simp] theorem State.accept_regs (c : Word) : (s.accept c).regs = s.regs := rfl
@[simp] theorem State.accept_cmd (c : Word) : (s.accept c).cmd = c := rfl
@[simp] theorem State.accept_status (c : Word) : (s.accept c).status = s.status.accepted := rfl
@[simp] theorem State.accept_rangeLo (c : Word) : (s.accept c).rangeLo = s.rangeLo := rfl
@[simp] theorem State.accept_rangeHi (c : Word) : (s.accept c).rangeHi = s.rangeHi := rfl
@[simp] theorem State.accept_mem (c : Word) : (s.accept c).mem = s.mem := rfl
@[simp] theorem State.accept_rst (c : Word) : (s.accept c).rst = s.rst := rfl
@[simp] theorem State.accept_resp (c : Word) : (s.accept c).resp = s.resp := rfl
@[simp] theorem State.accept_events (c : Word) : (s.accept c).events = s.events := rfl

/-! refuseAccess -/

@[simp] theorem State.refuseAccess_cfg : (s.refuseAccess).cfg = s.cfg := rfl
@[simp] theorem State.refuseAccess_regs : (s.refuseAccess).regs = s.regs := rfl
@[simp] theorem State.refuseAccess_cmd : (s.refuseAccess).cmd = s.cmd := rfl
@[simp] theorem State.refuseAccess_status :
    (s.refuseAccess).status = { s.status with haz := true } := rfl
@[simp] theorem State.refuseAccess_rangeLo : (s.refuseAccess).rangeLo = s.rangeLo := rfl
@[simp] theorem State.refuseAccess_rangeHi : (s.refuseAccess).rangeHi = s.rangeHi := rfl
@[simp] theorem State.refuseAccess_mem : (s.refuseAccess).mem = s.mem := rfl
@[simp] theorem State.refuseAccess_rst : (s.refuseAccess).rst = s.rst := rfl
@[simp] theorem State.refuseAccess_resp : (s.refuseAccess).resp = s.resp := rfl
@[simp] theorem State.refuseAccess_events : (s.refuseAccess).events = s.events := rfl

/-! coreReset -/

@[simp] theorem State.coreReset_cfg : (s.coreReset).cfg = s.cfg := rfl
@[simp] theorem State.coreReset_regs : (s.coreReset).regs = Vector.replicate 64 none := rfl
@[simp] theorem State.coreReset_cmd : (s.coreReset).cmd = 0 := rfl
@[simp] theorem State.coreReset_status : (s.coreReset).status = Status.reset := rfl
@[simp] theorem State.coreReset_rangeLo : (s.coreReset).rangeLo = 0 := rfl
@[simp] theorem State.coreReset_rangeHi : (s.coreReset).rangeHi = 0 := rfl
@[simp] theorem State.coreReset_mem : (s.coreReset).mem = s.mem := rfl
@[simp] theorem State.coreReset_rst : (s.coreReset).rst = s.rst := rfl
@[simp] theorem State.coreReset_resp : (s.coreReset).resp = s.resp := rfl
@[simp] theorem State.coreReset_events : (s.coreReset).events = s.events := rfl

/-! setRst -/

@[simp] theorem State.setRst_cfg (b : Bool) : (s.setRst b).cfg = s.cfg := rfl
@[simp] theorem State.setRst_regs (b : Bool) :
    (s.setRst b).regs = Vector.replicate 64 none := rfl
@[simp] theorem State.setRst_cmd (b : Bool) : (s.setRst b).cmd = 0 := rfl
@[simp] theorem State.setRst_status (b : Bool) : (s.setRst b).status = Status.reset := rfl
@[simp] theorem State.setRst_rangeLo (b : Bool) : (s.setRst b).rangeLo = 0 := rfl
@[simp] theorem State.setRst_rangeHi (b : Bool) : (s.setRst b).rangeHi = 0 := rfl
@[simp] theorem State.setRst_mem (b : Bool) : (s.setRst b).mem = s.mem := rfl
@[simp] theorem State.setRst_rst (b : Bool) : (s.setRst b).rst = b := rfl
@[simp] theorem State.setRst_resp (b : Bool) : (s.setRst b).resp = s.resp := rfl
@[simp] theorem State.setRst_events (b : Bool) : (s.setRst b).events = s.events := rfl

/-! powerOn -/

@[simp] theorem State.powerOn_cfg : (s.powerOn).cfg = s.cfg := rfl
@[simp] theorem State.powerOn_regs : (s.powerOn).regs = Vector.replicate 64 none := rfl
@[simp] theorem State.powerOn_cmd : (s.powerOn).cmd = 0 := rfl
@[simp] theorem State.powerOn_status : (s.powerOn).status = Status.reset := rfl
@[simp] theorem State.powerOn_rangeLo : (s.powerOn).rangeLo = 0 := rfl
@[simp] theorem State.powerOn_rangeHi : (s.powerOn).rangeHi = 0 := rfl
@[simp] theorem State.powerOn_mem : (s.powerOn).mem = [] := rfl
@[simp] theorem State.powerOn_rst : (s.powerOn).rst = s.rst := rfl
@[simp] theorem State.powerOn_resp : (s.powerOn).resp = s.resp := rfl
@[simp] theorem State.powerOn_events : (s.powerOn).events = s.events := rfl

/-! respond -/

@[simp] theorem State.respond_cfg (v : Response) : (s.respond v).cfg = s.cfg := rfl
@[simp] theorem State.respond_regs (v : Response) : (s.respond v).regs = s.regs := rfl
@[simp] theorem State.respond_cmd (v : Response) : (s.respond v).cmd = s.cmd := rfl
@[simp] theorem State.respond_status (v : Response) : (s.respond v).status = s.status := rfl
@[simp] theorem State.respond_rangeLo (v : Response) : (s.respond v).rangeLo = s.rangeLo := rfl
@[simp] theorem State.respond_rangeHi (v : Response) : (s.respond v).rangeHi = s.rangeHi := rfl
@[simp] theorem State.respond_mem (v : Response) : (s.respond v).mem = s.mem := rfl
@[simp] theorem State.respond_rst (v : Response) : (s.respond v).rst = s.rst := rfl
@[simp] theorem State.respond_resp (v : Response) : (s.respond v).resp = some v := rfl
@[simp] theorem State.respond_events (v : Response) : (s.respond v).events = s.events := rfl

/-! Reset -/

@[simp] theorem State.resetOf_cfg (cfg : Config) : (State.resetOf cfg).cfg = cfg := rfl
@[simp] theorem State.resetOf_regs (cfg : Config) :
    (State.resetOf cfg).regs = Vector.replicate 64 none := rfl
@[simp] theorem State.resetOf_cmd (cfg : Config) : (State.resetOf cfg).cmd = 0 := rfl
@[simp] theorem State.resetOf_status (cfg : Config) : (State.resetOf cfg).status = Status.reset := rfl
@[simp] theorem State.resetOf_rangeLo (cfg : Config) : (State.resetOf cfg).rangeLo = 0 := rfl
@[simp] theorem State.resetOf_rangeHi (cfg : Config) : (State.resetOf cfg).rangeHi = 0 := rfl
@[simp] theorem State.resetOf_mem (cfg : Config) : (State.resetOf cfg).mem = [] := rfl
@[simp] theorem State.resetOf_rst (cfg : Config) : (State.resetOf cfg).rst = false := rfl
@[simp] theorem State.resetOf_resp (cfg : Config) : (State.resetOf cfg).resp = none := rfl
@[simp] theorem State.resetOf_events (cfg : Config) : (State.resetOf cfg).events = [] := rfl

/-! STATUS -/

@[simp] theorem Status.accepted_busy (st : Status) : (st.accepted).busy = true := rfl
@[simp] theorem Status.accepted_done (st : Status) : (st.accepted).done = false := rfl
@[simp] theorem Status.accepted_err (st : Status) : (st.accepted).err = false := rfl
@[simp] theorem Status.accepted_ecode (st : Status) : (st.accepted).ecode = .none := rfl
@[simp] theorem Status.accepted_haz (st : Status) : (st.accepted).haz = st.haz := rfl
@[simp] theorem Status.succeeded_busy (st : Status) : (st.succeeded).busy = false := rfl
@[simp] theorem Status.succeeded_done (st : Status) : (st.succeeded).done = true := rfl
@[simp] theorem Status.succeeded_err (st : Status) : (st.succeeded).err = false := rfl
@[simp] theorem Status.succeeded_ecode (st : Status) : (st.succeeded).ecode = .none := rfl
@[simp] theorem Status.succeeded_haz (st : Status) : (st.succeeded).haz = st.haz := rfl
@[simp] theorem Status.failed_busy (st : Status) (e : ErrorCode) : (st.failed e).busy = false := rfl
@[simp] theorem Status.failed_done (st : Status) (e : ErrorCode) : (st.failed e).done = true := rfl
@[simp] theorem Status.failed_err (st : Status) (e : ErrorCode) : (st.failed e).err = true := rfl
@[simp] theorem Status.failed_ecode (st : Status) (e : ErrorCode) : (st.failed e).ecode = e := rfl
@[simp] theorem Status.failed_haz (st : Status) (e : ErrorCode) : (st.failed e).haz = st.haz := rfl
@[simp] theorem Status.reset_busy : Status.reset.busy = false := rfl
@[simp] theorem Status.reset_done : Status.reset.done = false := rfl
@[simp] theorem Status.reset_err : Status.reset.err = false := rfl
@[simp] theorem Status.reset_haz : Status.reset.haz = false := rfl
@[simp] theorem Status.reset_ecode : Status.reset.ecode = .none := rfl

end Sys2Proof.Machine
end

