-- ==== Sys2Proof/Laws/Memory.lean ====
section
/-! SUPPORT. The laws of the memory operations: read after write, frames, and the canonical form. -/

namespace Sys2Proof.Machine

/-! Bytes -/

@[simp] theorem readByte_nil (a : Nat) : readByte [] a = none := rfl

theorem readByte_writeByte (m : Memory) (a a' : Nat) (b : Byte) :
    readByte (writeByte m a b) a' = if a' = a then some b else readByte m a' := by
  induction m with
  | nil => simp [writeByte, readByte, eq_comm]
  | cons c rest ih =>
    obtain ⟨k, v⟩ := c
    simp only [writeByte]
    split
    · by_cases h : a' = a
      · simp [readByte, h]
      · simp [readByte, h, Ne.symm h]
    · split
      · subst_vars
        by_cases h : a' = k
        · simp [readByte, h]
        · simp [readByte, h, Ne.symm h]
      · simp only [readByte, ih]
        by_cases h : k = a'
        · have : a' ≠ a := by omega
          simp [h, this]
        · simp [h]

theorem mem_writeByte {m : Memory} {a : Nat} {b : Byte} {c : Host.Cell}
    (h : c ∈ writeByte m a b) : c = (a, b) ∨ c ∈ m := by
  induction m with
  | nil => simpa [writeByte] using h
  | cons d rest ih =>
    obtain ⟨k, v⟩ := d
    simp only [writeByte] at h
    split at h
    · simpa using h
    · split at h
      · rcases List.mem_cons.1 h with h | h
        · exact .inl h
        · exact .inr (List.mem_cons_of_mem _ h)
      · rcases List.mem_cons.1 h with h | h
        · exact .inr (h ▸ List.mem_cons_self)
        · exact (ih h).imp_right (List.mem_cons_of_mem _)

/-- The canonical form is: offsets strictly rising. -/
theorem Memory.wf_cons (c : Host.Cell) (m : Memory) :
    Memory.wf (c :: m) = true ↔ (∀ d ∈ m, c.1 < d.1) ∧ Memory.wf m = true := by
  induction m generalizing c with
  | nil => simp [Memory.wf]
  | cons d rest ih =>
    simp only [Memory.wf, Bool.and_eq_true, decide_eq_true_eq, List.mem_cons, forall_eq_or_imp]
    constructor
    · rintro ⟨h, hw⟩
      exact ⟨⟨h, fun e he => lt_trans h (((ih d).1 hw).1 e he)⟩, hw⟩
    · rintro ⟨⟨h, -⟩, hw⟩
      exact ⟨h, hw⟩

theorem Memory.wf_writeByte {m : Memory} (h : Memory.wf m = true) (a : Nat) (b : Byte) :
    Memory.wf (writeByte m a b) = true := by
  induction m with
  | nil => rfl
  | cons c rest ih =>
    obtain ⟨k, v⟩ := c
    obtain ⟨hlt, hwf⟩ := (Memory.wf_cons _ _).1 h
    simp only [writeByte]
    split
    · rename_i hak
      refine (Memory.wf_cons _ _).2 ⟨fun d hd => ?_, h⟩
      rcases List.mem_cons.1 hd with rfl | hd
      · exact hak
      · exact lt_trans hak (hlt d hd)
    · split
      · subst_vars
        exact (Memory.wf_cons _ _).2 ⟨hlt, hwf⟩
      · refine (Memory.wf_cons _ _).2 ⟨fun d hd => ?_, ih hwf⟩
        rcases mem_writeByte hd with rfl | hd
        · show k < a
          omega
        · exact hlt d hd

/-! Runs of bytes -/

theorem readByte_writeBytes_outside {m : Memory} {a n v a' : Nat} (h : a' < a ∨ a + n ≤ a') :
    readByte (writeBytes m a n v) a' = readByte m a' := by
  induction n generalizing m a v with
  | zero => rfl
  | succ n ih =>
    rw [writeBytes, ih (by omega), readByte_writeByte, if_neg (by omega)]

theorem readByte_writeBytes_inside {m : Memory} {a n v i : Nat} (h : i < n) :
    readByte (writeBytes m a n v) (a + i) = some (BitVec.ofNat 8 (v / 2 ^ (8 * i))) := by
  induction n generalizing m a v i with
  | zero => omega
  | succ n ih =>
    rw [writeBytes]
    cases i with
    | zero => rw [readByte_writeBytes_outside (by omega), readByte_writeByte]; simp
    | succ i =>
      rw [show a + (i + 1) = a + 1 + i by omega, ih (by omega), Nat.div_div_eq_div_mul, ← pow_add]
      congr 4
      omega

/-- The bytes written are the `n` from `a` on; all others read as before. -/
theorem readByte_writeBytes (m : Memory) (a n v a' : Nat) :
    readByte (writeBytes m a n v) a' =
      if a ≤ a' ∧ a' < a + n then some (BitVec.ofNat 8 (v / 2 ^ (8 * (a' - a)))) else readByte m a' := by
  split
  · rename_i h
    obtain ⟨i, rfl⟩ := Nat.exists_eq_add_of_le h.1
    rw [readByte_writeBytes_inside (by omega), Nat.add_sub_cancel_left]
  · exact readByte_writeBytes_outside (by omega)

theorem readBytes_congr {m m' : Memory} {a n : Nat}
    (h : ∀ i, i < n → readByte m (a + i) = readByte m' (a + i)) : readBytes m a n = readBytes m' a n := by
  induction n generalizing a with
  | zero => rfl
  | succ n ih =>
    have h0 := h 0 (by omega)
    simp only [Nat.add_zero] at h0
    rw [readBytes, readBytes, h0, ih fun i hi => by
      have := h (i + 1) (by omega)
      rwa [show a + (i + 1) = a + 1 + i by omega] at this]

theorem readBytes_writeBytes (m : Memory) (a n v : Nat) :
    readBytes (writeBytes m a n v) a n = some (v % 2 ^ (8 * n)) := by
  induction n generalizing m a v with
  | zero => simp [readBytes, Nat.mod_one]
  | succ n ih =>
    rw [writeBytes, readBytes, ih, readByte_writeBytes_outside (by omega), readByte_writeByte,
      if_pos rfl]
    simp only [BitVec.toNat_ofNat, Option.some.injEq]
    rw [show 8 * (n + 1) = 8 + 8 * n by omega, pow_add, Nat.mod_mul]

theorem readBytes_writeBytes_disjoint {m : Memory} {a n v a' n' : Nat}
    (h : a' + n' ≤ a ∨ a + n ≤ a') : readBytes (writeBytes m a n v) a' n' = readBytes m a' n' :=
  readBytes_congr fun _ _ => readByte_writeBytes_outside (by omega)

theorem readBytes_isSome {m : Memory} {a n : Nat} :
    (readBytes m a n).isSome = true ↔ ∀ i, i < n → (readByte m (a + i)).isSome = true := by
  induction n generalizing a with
  | zero => simp [readBytes]
  | succ n ih =>
    have hsplit : (∀ i, i < n + 1 → (readByte m (a + i)).isSome = true) ↔
        (readByte m a).isSome = true ∧ ∀ i, i < n → (readByte m (a + 1 + i)).isSome = true := by
      constructor
      · exact fun h => ⟨h 0 (by omega), fun i hi => by
          have := h (i + 1) (by omega); rwa [show a + (i + 1) = a + 1 + i by omega] at this⟩
      · rintro ⟨h0, h⟩ i hi
        cases i with
        | zero => exact h0
        | succ i => rw [show a + (i + 1) = a + 1 + i by omega]; exact h i (by omega)
    rw [hsplit, ← ih, readBytes]
    cases readByte m a <;> cases readBytes m (a + 1) n <;> simp

theorem readBytes_lt {m : Memory} {a n v : Nat} (h : readBytes m a n = some v) : v < 2 ^ (8 * n) := by
  induction n generalizing a v with
  | zero => simp [readBytes] at h; omega
  | succ n ih =>
    rw [readBytes] at h
    split at h
    · rename_i b rest hb hrest
      have hr := ih hrest
      have hb := b.isLt
      cases h
      rw [show 8 * (n + 1) = 8 + 8 * n by omega, pow_add]
      have : 2 ^ 8 * (rest + 1) ≤ 2 ^ 8 * 2 ^ (8 * n) := Nat.mul_le_mul_left _ hr
      omega
    · cases h

theorem Memory.wf_writeBytes {m : Memory} (h : Memory.wf m = true) (a n v : Nat) :
    Memory.wf (writeBytes m a n v) = true := by
  induction n generalizing m a v with
  | zero => exact h
  | succ n ih => exact ih (Memory.wf_writeByte h _ _) _ _

theorem mem_writeBytes {m : Memory} {a n v : Nat} {c : Host.Cell}
    (h : c ∈ writeBytes m a n v) : (a ≤ c.1 ∧ c.1 < a + n) ∨ c ∈ m := by
  induction n generalizing m a v with
  | zero => exact .inr h
  | succ n ih =>
    rcases ih h with h | h
    · exact .inl (by omega)
    · rcases mem_writeByte h with rfl | h
      · exact .inl ⟨le_rfl, by simp⟩
      · exact .inr h

/-! Scratchpad words -/

/-- Reading scratchpad words after a word write (20_memory.md R33, R37). -/
theorem readWord_writeWord (m : Memory) (w w' v : Nat) :
    readWord (writeWord m w v) w' = if w' = w then some (v % 2 ^ 64) else readWord m w' := by
  unfold readWord writeWord
  split
  · subst_vars; exact readBytes_writeBytes m _ 8 v
  · exact readBytes_writeBytes_disjoint (by simp only [spadOffset]; omega)

theorem readWord_lt {m : Memory} {w v : Nat} (h : readWord m w = some v) : v < 2 ^ 64 := readBytes_lt h

theorem readByte_writeWord_outside {m : Memory} {w v a : Nat}
    (h : a < spadOffset w ∨ spadOffset (w + 1) ≤ a) : readByte (writeWord m w v) a = readByte m a :=
  readByte_writeBytes_outside (by simp only [spadOffset] at *; omega)

theorem Memory.wf_writeWord {m : Memory} (h : Memory.wf m = true) (w v : Nat) :
    Memory.wf (writeWord m w v) = true := Memory.wf_writeBytes h _ _ _

theorem Memory.inScratchpad_writeWord {cfg : Config} {m : Memory} (h : Memory.InScratchpad cfg m)
    {w : Nat} (hw : w < cfg.spadWords) (v : Nat) : Memory.InScratchpad cfg (writeWord m w v) := by
  intro c hc
  rcases mem_writeBytes hc with hc | hc
  · simp only [spadOffset] at *; omega
  · exact h c hc

theorem Memory.wholeWords_writeWord {m : Memory} (h : Memory.WholeWords m) (w v : Nat) :
    Memory.WholeWords (writeWord m w v) := by
  intro w' i hi
  simp only [writeWord, readByte_writeBytes, spadOffset]
  by_cases hw : w' = w
  · subst hw
    rw [if_pos (by omega), if_pos (by omega)]
    rfl
  · rw [if_neg (by omega), if_neg (by omega)]
    exact h w' i hi

/-! Elements of several words -/

theorem readByte_spadWrite_outside {m : Memory} {a n v o : Nat}
    (h : o < spadOffset a ∨ spadOffset (a + n) ≤ o) : readByte (spadWrite m a n v) o = readByte m o := by
  induction n generalizing m a v with
  | zero => rfl
  | succ n ih =>
    rw [spadWrite, ih (by simp only [spadOffset] at *; omega)]
    exact readByte_writeWord_outside (by simp only [spadOffset] at *; omega)

theorem readWord_spadWrite_outside {m : Memory} {a n v w : Nat} (h : w < a ∨ a + n ≤ w) :
    readWord (spadWrite m a n v) w = readWord m w :=
  readBytes_congr fun _ _ => readByte_spadWrite_outside (by simp only [spadOffset]; omega)

theorem spadRead_congr {m m' : Memory} {a n : Nat}
    (h : ∀ i, i < n → readWord m (a + i) = readWord m' (a + i)) : spadRead m a n = spadRead m' a n := by
  induction n generalizing a with
  | zero => rfl
  | succ n ih =>
    have h0 := h 0 (by omega)
    simp only [Nat.add_zero] at h0
    rw [spadRead, spadRead, h0, ih fun i hi => by
      have := h (i + 1) (by omega)
      rwa [show a + (i + 1) = a + 1 + i by omega] at this]

/-- SpadRead after SpadWrite of the same words gives the value, modulo their width. -/
theorem spadRead_spadWrite (m : Memory) (a n v : Nat) :
    spadRead (spadWrite m a n v) a n = some (v % 2 ^ (64 * n)) := by
  induction n generalizing m a v with
  | zero => simp [spadRead, Nat.mod_one]
  | succ n ih =>
    rw [spadWrite, spadRead, ih, readWord_spadWrite_outside (by omega), readWord_writeWord, if_pos rfl]
    simp only [Option.some.injEq]
    rw [show 64 * (n + 1) = 64 + 64 * n by omega, pow_add, Nat.mod_mul]

theorem spadRead_spadWrite_disjoint {m : Memory} {a n v a' n' : Nat}
    (h : a' + n' ≤ a ∨ a + n ≤ a') : spadRead (spadWrite m a n v) a' n' = spadRead m a' n' :=
  spadRead_congr fun _ _ => readWord_spadWrite_outside (by omega)

theorem spadRead_one (m : Memory) (a : Nat) : spadRead m a 1 = readWord m a := by
  simp only [spadRead]
  cases readWord m a <;> simp

theorem spadRead_lt {m : Memory} {a n v : Nat} (h : spadRead m a n = some v) : v < 2 ^ (64 * n) := by
  induction n generalizing a v with
  | zero => simp [spadRead] at h; omega
  | succ n ih =>
    rw [spadRead] at h
    split at h
    · rename_i lo rest hlo hrest
      have hr := ih hrest
      have hl := readWord_lt hlo
      cases h
      rw [show 64 * (n + 1) = 64 + 64 * n by omega, pow_add]
      have : 2 ^ 64 * (rest + 1) ≤ 2 ^ 64 * 2 ^ (64 * n) := Nat.mul_le_mul_left _ hr
      omega
    · cases h

/-- What keeps a property of memory through an element write: that a word write keeps it. -/
theorem spadWrite_keeps {P : Memory → Prop} {lim : Nat}
    (hP : ∀ m w v, P m → w < lim → P (writeWord m w v)) {m : Memory} (h : P m) {a n : Nat}
    (hlim : a + n ≤ lim) (v : Nat) : P (spadWrite m a n v) := by
  induction n generalizing m a v with
  | zero => exact h
  | succ n ih => exact ih (hP _ _ _ h (by omega)) (by omega) _

/-! Sequences of elements -/

theorem readByte_writeElements_outside {m : Memory} {a size o : Nat} {vs : List Nat}
    (h : o < spadOffset a ∨ spadOffset (a + vs.length * size) ≤ o) :
    readByte (writeElements m a size vs) o = readByte m o := by
  induction vs generalizing m a with
  | nil => rfl
  | cons v rest ih =>
    have hl : (v :: rest).length * size = size + rest.length * size := by
      rw [List.length_cons, Nat.succ_mul, Nat.add_comm]
    rw [hl] at h
    have hs : a + size + rest.length * size = a + (size + rest.length * size) := by omega
    rw [writeElements, ih (by simp only [spadOffset] at *; omega)]
    exact readByte_spadWrite_outside (by simp only [spadOffset] at *; omega)

theorem spadRead_writeElements_outside {m : Memory} {a size a' n' : Nat} {vs : List Nat}
    (h : a' + n' ≤ a ∨ a + vs.length * size ≤ a') :
    spadRead (writeElements m a size vs) a' n' = spadRead m a' n' :=
  spadRead_congr fun _ _ => readBytes_congr fun _ _ =>
    readByte_writeElements_outside (by simp only [spadOffset]; omega)

/-- Element j after writing a sequence (20_memory.md R33). -/
theorem spadRead_writeElements (m : Memory) (a size : Nat) (vs : List Nat) {j : Nat}
    (hj : j < vs.length) :
    spadRead (writeElements m a size vs) (a + j * size) size = some (vs[j] % 2 ^ (64 * size)) := by
  induction vs generalizing m a j with
  | nil => simp at hj
  | cons v rest ih =>
    rw [writeElements]
    cases j with
    | zero =>
      rw [Nat.zero_mul, Nat.add_zero, spadRead_writeElements_outside (by omega)]
      exact spadRead_spadWrite m a size v
    | succ j =>
      rw [show a + (j + 1) * size = a + size + j * size by rw [Nat.succ_mul]; omega]
      exact ih _ _ (by simpa using hj)

theorem writeElements_keeps {P : Memory → Prop} {lim : Nat}
    (hP : ∀ m w v, P m → w < lim → P (writeWord m w v)) {m : Memory} (h : P m) {a size : Nat}
    {vs : List Nat} (hlim : a + vs.length * size ≤ lim) : P (writeElements m a size vs) := by
  induction vs generalizing m a with
  | nil => exact h
  | cons v rest ih =>
    have hl : (v :: rest).length * size = size + rest.length * size := by
      rw [List.length_cons, Nat.succ_mul, Nat.add_comm]
    exact ih (spadWrite_keeps hP h (by omega) v) (by omega)

theorem Memory.wf_writeElements {m : Memory} (h : Memory.wf m = true) (a size : Nat) (vs : List Nat) :
    Memory.wf (writeElements m a size vs) = true :=
  writeElements_keeps (P := fun m => Memory.wf m = true) (fun _ _ _ h _ => Memory.wf_writeWord h _ _) h
    le_rfl

/-- The elements read are the element reads, in order (41_polynomial_codec.md R69). -/
theorem readElements_eq_some {m : Memory} {a size cnt : Nat} {es : List Nat} :
    readElements m a size cnt = some es ↔
      es.length = cnt ∧ ∀ j (hj : j < es.length), spadRead m (a + j * size) size = some es[j] := by
  induction cnt generalizing a es with
  | zero =>
    rw [readElements]
    constructor
    · rintro ⟨⟩; simp
    · rintro ⟨h, -⟩; rw [List.length_eq_zero_iff.1 h]
  | succ cnt ih =>
    rw [readElements]
    constructor
    · intro h
      split at h
      · rename_i x rest hx hrest
        cases h
        obtain ⟨hl, hr⟩ := ih.1 hrest
        refine ⟨by simp [hl], fun j hj => ?_⟩
        cases j with
        | zero => simpa using hx
        | succ j =>
          rw [show a + (j + 1) * size = a + size + j * size by rw [Nat.succ_mul]; omega]
          exact hr j (by simpa using hj)
      · cases h
    · rintro ⟨hl, hr⟩
      match es, hl, hr with
      | x :: rest, hl, hr =>
        have hx := hr 0 (by simp)
        have hrest : readElements m (a + size) size cnt = some rest := ih.2 ⟨by simpa using hl,
          fun j hj => by
            have := hr (j + 1) (by simpa using hj)
            rwa [show a + (j + 1) * size = a + size + j * size by rw [Nat.succ_mul]; omega] at this⟩
        simp only [Nat.zero_mul, Nat.add_zero, List.getElem_cons_zero] at hx
        rw [hx, hrest]

/-- Reading back a sequence just written. -/
theorem readElements_writeElements (m : Memory) (a size : Nat) (vs : List Nat) :
    readElements (writeElements m a size vs) a size vs.length =
      some (vs.map (· % 2 ^ (64 * size))) :=
  readElements_eq_some.2 ⟨by simp, fun j hj => by
    rw [spadRead_writeElements m a size vs (by simpa using hj)]
    simp⟩

theorem spadRead_isSome {m : Memory} {a n : Nat} :
    (spadRead m a n).isSome = true ↔ ∀ i, i < n → (readWord m (a + i)).isSome = true := by
  induction n generalizing a with
  | zero => simp [spadRead]
  | succ n ih =>
    have hsplit : (∀ i, i < n + 1 → (readWord m (a + i)).isSome = true) ↔
        (readWord m a).isSome = true ∧ ∀ i, i < n → (readWord m (a + 1 + i)).isSome = true := by
      constructor
      · exact fun h => ⟨h 0 (by omega), fun i hi => by
          have := h (i + 1) (by omega); rwa [show a + (i + 1) = a + 1 + i by omega] at this⟩
      · rintro ⟨h0, h⟩ i hi
        cases i with
        | zero => exact h0
        | succ i => rw [show a + (i + 1) = a + 1 + i by omega]; exact h i (by omega)
    rw [hsplit, ← ih, spadRead]
    cases readWord m a <;> cases spadRead m (a + 1) n <;> simp

/-- A sequence can be read exactly when all its words are written. -/
theorem readElements_isSome {m : Memory} {a size cnt : Nat} :
    (readElements m a size cnt).isSome = true ↔
      ∀ i, i < cnt * size → (readWord m (a + i)).isSome = true := by
  induction cnt generalizing a with
  | zero => simp [readElements]
  | succ cnt ih =>
    have hsplit : (∀ i, i < (cnt + 1) * size → (readWord m (a + i)).isSome = true) ↔
        (∀ i, i < size → (readWord m (a + i)).isSome = true) ∧
          ∀ i, i < cnt * size → (readWord m (a + size + i)).isSome = true := by
      have he : (cnt + 1) * size = size + cnt * size := by rw [Nat.succ_mul, Nat.add_comm]
      rw [he]
      constructor
      · exact fun h => ⟨fun i hi => h i (by omega), fun i hi => by
          have := h (size + i) (by omega); rwa [← Nat.add_assoc] at this⟩
      · rintro ⟨h1, h2⟩ i hi
        by_cases hs : i < size
        · exact h1 i hs
        · have := h2 (i - size) (by omega)
          rwa [show a + size + (i - size) = a + i by omega] at this
    rw [hsplit, ← spadRead_isSome, ← ih, readElements]
    cases spadRead m a size <;> cases readElements m (a + size) size cnt <;> simp

end Sys2Proof.Machine
end

