-- ==== Sys2Proof/Laws/Ops.lean ====
section
/-! SUPPORT. The laws of the register operations, of the checks and of the configuration. -/

namespace Sys2Proof

/-! The configuration's ranges (00_scope.md R5) -/

theorem Config.w_cases (cfg : Config) : cfg.w = 64 ∨ cfg.w = 128 := by
  unfold Config.w; cases cfg.width <;> simp

theorem Config.w_pos (cfg : Config) : 0 < cfg.w := by rcases cfg.w_cases with h | h <;> omega

theorem Config.ew_mul (cfg : Config) : 64 * cfg.ew = cfg.w := by
  unfold Config.ew; rcases cfg.w_cases with h | h <;> rw [h]

theorem Config.npreg_le (cfg : Config) : cfg.npreg ≤ 64 := by
  have := cfg.npregM1.isLt; unfold Config.npreg; omega

theorem Config.nmax_pos (cfg : Config) : 1 ≤ cfg.nmax := by unfold Config.nmax; omega

theorem Config.nmax_le (cfg : Config) : cfg.nmax ≤ 65536 := by
  have := cfg.nmaxM1.isLt; unfold Config.nmax; omega

theorem Config.spadWords_le (cfg : Config) : cfg.spadWords ≤ 32768 := by
  have := cfg.spadM1.isLt; unfold Config.spadWords; omega

end Sys2Proof

namespace Sys2Proof.Machine

/-! Torus registers -/

/-- A register write replaces that register and no other; there are 64 indices (10_state.md R15, R16). -/
theorem State.torus_setTorus (s : State) (r r' : Nat) (p : TorusPoly) :
    (s.setTorus r p).torus r' = if r' = r ∧ r < 64 then some p else s.torus r' := by
  simp only [State.torus, State.setTorus_regs, Vector.getElem?_setIfInBounds]
  by_cases h : r = r'
  · subst h
    by_cases h64 : r < 64
    · simp [h64]
    · simp [h64]
  · simp [h, Ne.symm h]

theorem State.torus_commitTorus (s : State) (r r' : Nat) (cs : List Coeff) :
    (s.commitTorus r cs).torus r' = if r' = r ∧ r < 64 then some ⟨cs⟩ else s.torus r' :=
  State.torus_setTorus s r r' ⟨cs⟩

@[simp] theorem State.torus_coreReset (s : State) (r : Nat) : s.coreReset.torus r = none := by
  simp only [State.torus, State.coreReset_regs, Vector.getElem?_replicate]
  split <;> rfl

@[simp] theorem State.torus_resetOf (cfg : Config) (r : Nat) : (State.resetOf cfg).torus r = none := by
  simp only [State.torus, State.resetOf_regs, Vector.getElem?_replicate]
  split <;> rfl

@[simp] theorem State.torus_setRst (s : State) (b : Bool) (r : Nat) : (s.setRst b).torus r = none :=
  s.torus_coreReset r

@[simp] theorem State.torus_powerOn (s : State) (r : Nat) : s.powerOn.torus r = none :=
  s.torus_coreReset r

@[simp] theorem State.torus_raise (s : State) (e : ErrorCode) (r : Nat) :
    (s.raise e).torus r = s.torus r := rfl
@[simp] theorem State.torus_complete (s : State) (r : Nat) : s.complete.torus r = s.torus r := rfl
@[simp] theorem State.torus_commitSpad (s : State) (a size : Nat) (vs : List Nat) (r : Nat) :
    (s.commitSpad a size vs).torus r = s.torus r := rfl
@[simp] theorem State.torus_accept (s : State) (c : Word) (r : Nat) :
    (s.accept c).torus r = s.torus r := rfl
@[simp] theorem State.torus_refuseAccess (s : State) (r : Nat) :
    s.refuseAccess.torus r = s.torus r := rfl
@[simp] theorem State.torus_respond (s : State) (v : Response) (r : Nat) :
    (s.respond v).torus r = s.torus r := rfl

theorem State.torus_eq_none_of_le (s : State) {r : Nat} (h : 64 ≤ r) : s.torus r = none := by
  simp [State.torus, Nat.not_lt.2 h]

theorem State.coeffs_of_torus {s : State} {r : Nat} {p : TorusPoly} (h : s.torus r = some p) :
    s.coeffs r = p.coeff := by simp [State.coeffs, h]

theorem State.torus_of_valid {s : State} {r : Nat} (h : s.valid r = true) :
    s.torus r = some ⟨s.coeffs r⟩ := by
  unfold State.valid at h
  obtain ⟨p, hp⟩ := Option.isSome_iff_exists.1 h
  rw [hp, State.coeffs_of_torus hp]

/-! Checks (60_exceptions.md R87) -/

theorem firstFailing_eq_none {cs : List Check} :
    firstFailing cs = none ↔ ∀ c ∈ cs, c.2 = false := by
  induction cs with
  | nil => simp [firstFailing]
  | cons c rest ih =>
    obtain ⟨e, b⟩ := c
    cases b <;> simp [firstFailing, ih]

theorem firstFailing_eq_some {cs : List Check} {e : ErrorCode} (h : firstFailing cs = some e) :
    (e, true) ∈ cs := by
  induction cs with
  | nil => cases h
  | cons c rest ih =>
    obtain ⟨e', b⟩ := c
    cases b
    · exact List.mem_cons_of_mem _ (ih h)
    · simp only [firstFailing, Option.some.injEq] at h
      exact h ▸ List.mem_cons_self

/-- Either the first failing check is raised, or every check passes and the command is performed. -/
theorem checked_cases (s : State) (cs : List Check) (perform : Result) :
    (∃ e, (e, true) ∈ cs ∧ checked s cs perform = .next (s.raise e)) ∨
      ((∀ c ∈ cs, c.2 = false) ∧ checked s cs perform = perform) := by
  unfold checked
  split
  · rename_i e he
    exact .inl ⟨e, firstFailing_eq_some he, rfl⟩
  · rename_i hn
    exact .inr ⟨firstFailing_eq_none.1 hn, rfl⟩

theorem checked_pass {s : State} {cs : List Check} {perform : Result} (h : ∀ c ∈ cs, c.2 = false) :
    checked s cs perform = perform := by
  rw [checked, firstFailing_eq_none.2 h]

@[simp] theorem checked_nil (s : State) (perform : Result) : checked s [] perform = perform := rfl

/-- One check at a time, in order. -/
theorem checked_cons (s : State) (e : ErrorCode) (b : Bool) (cs : List Check) (perform : Result) :
    checked s ((e, b) :: cs) perform = if b = true then .next (s.raise e) else checked s cs perform := by
  cases b <;> rfl

end Sys2Proof.Machine
end

