-- ==== Sys2Proof/Laws/Values.lean ====
section
/-! SUPPORT. The ranges and lengths of the per-coefficient functions, and the rounding primitives. -/

namespace Sys2Proof.Machine

/-! Rounding primitives (00_scope.md R9, R10) -/

theorem frac_nonneg (x : Rat) : 0 ≤ frac x := by
  have := Rat.floor_le x
  unfold frac
  linarith

theorem frac_lt_one (x : Rat) : frac x < 1 := by
  have := Rat.lt_floor_add_one x
  unfold frac
  push_cast at this
  linarith

theorem floor_add_frac (x : Rat) : (x.floor : Rat) + frac x = x := by unfold frac; ring

/-- frac does not change with an integer shift. -/
theorem frac_add_int (x : Rat) (z : Int) : frac (x + z) = frac x := by
  unfold frac
  rw [Rat.floor_add_intCast]
  push_cast
  ring

/-- frac is Mathlib's fractional part. -/
theorem frac_eq_fract (x : Rat) : frac x = Int.fract x := rfl

/-- Rounding half up is within one half. -/
theorem rhu_near (x : Rat) : |(rhu x : Rat) - x| ≤ 1 / 2 := by
  unfold rhu
  have h1 := Rat.floor_le (x + 1 / 2)
  have h2 := Rat.lt_floor_add_one (x + 1 / 2)
  push_cast at h2
  rw [abs_le]
  constructor <;> linarith

/-- Rounding half to even is within one half. -/
theorem rhe_near (x : Rat) : |(rhe x : Rat) - x| ≤ 1 / 2 := by
  have hf := floor_add_frac x
  have h0 := frac_nonneg x
  have h1 := frac_lt_one x
  unfold rhe
  split_ifs <;> rw [abs_le] <;> push_cast <;> constructor <;> linarith

/-- Both tie rules are within one half. -/
theorem rtie_near (tie : RealTie) (x : Rat) : |(rtie tie x : Rat) - x| ≤ 1 / 2 := by
  cases tie
  · exact rhu_near x
  · exact rhe_near x

/-- An integer rounds to itself. -/
theorem rhe_int (z : Int) : rhe (z : Rat) = z := by
  have hz : (z : Rat).floor = z := by simp [Rat.floor_def]
  have : frac (z : Rat) = 0 := by simp [frac, hz]
  unfold rhe
  rw [this, hz, if_pos (by norm_num)]

theorem rhu_int (z : Int) : rhu (z : Rat) = z := by
  have h := rhu_near z
  rw [abs_le] at h
  have h1 : (rhu (z : Rat) : Rat) < z + 1 := by linarith
  have h2 : (z : Rat) - 1 < rhu (z : Rat) := by linarith
  have h1' : rhu (z : Rat) < z + 1 := by exact_mod_cast h1
  have h2' : z - 1 < rhu (z : Rat) := by exact_mod_cast h2
  omega

theorem rtie_int (tie : RealTie) (z : Int) : rtie tie (z : Rat) = z := by
  cases tie
  · exact rhu_int z
  · exact rhe_int z

/-! Ranges of the encoders and decoders (40_torus_value.md R55) -/

theorem encInt_lt {w k : Nat} (h : k ≤ w) (i : Nat) : encInt w i k < 2 ^ w := by
  unfold encInt
  calc i % 2 ^ k * 2 ^ (w - k) < 2 ^ k * 2 ^ (w - k) :=
        Nat.mul_lt_mul_of_pos_right (Nat.mod_lt _ (by positivity)) (by positivity)
    _ = 2 ^ w := by rw [← pow_add, Nat.add_sub_cancel' h]

theorem decInt_lt (w raw k : Nat) : decInt w raw k < 2 ^ k := Nat.mod_lt _ (by positivity)

/-- A residue modulo 2^bits as a natural number. -/
theorem emod_toNat_lt (z : Int) (bits : Nat) : (z % (2 ^ bits : Nat)).toNat < 2 ^ bits := by
  have hp : (0 : Int) < (2 ^ bits : Nat) := by positivity
  exact (Int.toNat_lt (Int.emod_nonneg z (ne_of_gt hp))).2 (Int.emod_lt_of_pos z hp)

theorem roundMod_lt (tie : RealTie) (bits : Nat) (x : Rat) : roundMod tie bits x < 2 ^ bits :=
  emod_toNat_lt _ _

theorem encFrac_lt (cfg : Config) (t : Rat) : encFrac cfg t < 2 ^ cfg.w := roundMod_lt _ _ _

theorem encReal_lt (cfg : Config) (b : Word) : encReal cfg b < 2 ^ cfg.w := encFrac_lt _ _

theorem encFloat_lt (cfg : Config) (lo hi b : Word) {k : Nat} (h : k ≤ cfg.w) :
    encFloat cfg lo hi b k < 2 ^ cfg.w := by
  unfold encFloat
  dsimp only
  split
  · exact encInt_lt h _
  · exact encFrac_lt _ _

theorem addRaw_lt (w a b : Nat) : addRaw w a b < 2 ^ w := Nat.mod_lt _ (by positivity)

theorem subRaw_lt (w a b : Nat) : subRaw w a b < 2 ^ w := emod_toNat_lt _ _

/-! The convolution (42_ring_arith.md R81) -/

@[simp] theorem length_negaConv (a b : List Nat) (k : Nat) : (negaConv a b k).length = a.length := by
  simp [negaConv]

theorem negaConv_lt {a b : List Nat} {k c : Nat} (h : c ∈ negaConv a b k) : c < 2 ^ k := by
  unfold negaConv at h
  obtain ⟨i, -, rfl⟩ := List.mem_map.1 h
  exact emod_toNat_lt _ _

@[simp] theorem length_mulCoeffs (w : Nat) (a b : List Coeff) (k : Nat) :
    (mulCoeffs w a b k).length = a.length := by simp [mulCoeffs]

theorem mulCoeffs_lt {w k : Nat} (hk : k ≤ w) {a b : List Coeff} {c : Coeff}
    (h : c ∈ mulCoeffs w a b k) : c < 2 ^ w := by
  unfold mulCoeffs at h
  obtain ⟨r, -, rfl⟩ := List.mem_map.1 h
  exact encInt_lt hk r

theorem mem_zipWith_lt {w : Nat} {f : Nat → Nat → Nat} (hf : ∀ x y, f x y < 2 ^ w) {a b : List Nat}
    {c : Nat} (h : c ∈ List.zipWith f a b) : c < 2 ^ w := by
  obtain ⟨j, hj, rfl⟩ := List.getElem_of_mem h
  rw [List.getElem_zipWith]
  exact hf _ _

end Sys2Proof.Machine
end

