-- ==== Sys2Proof/Laws/Binary64.lean ====
section
/-! SUPPORT. The laws of binary64 patterns and of RNE64: what value a rounding gives, and that values a
pattern can hold round to themselves (00_scope.md R10, R11). -/

namespace Sys2Proof.Machine

/-! Patterns -/

/-- One unit of the smallest binade, 2^-1074. -/
abbrev unit64 : Rat := 1 / ((2 ^ 1074 : Nat) : Rat)

theorem unit64_pos : 0 < unit64 := by unfold unit64; positivity

theorem val64_eq (b : Word) :
    val64 b = (if signOf b = 1 then -(magnitudeOf b : Rat) else (magnitudeOf b : Rat)) * unit64 := by
  unfold val64 unit64
  split <;> push_cast <;> ring

theorem signOf_ofNat_low {n : Nat} (h : n < 2 ^ 63) : signOf (BitVec.ofNat 64 n) = 0 := by
  simp only [signOf, slice, BitVec.toNat_ofNat]
  omega

theorem signOf_ofNat_high {n : Nat} (h : n < 2 ^ 63) : signOf (BitVec.ofNat 64 (2 ^ 63 + n)) = 1 := by
  simp only [signOf, slice, BitVec.toNat_ofNat]
  omega

/-- The sign bit does not touch the magnitude. -/
theorem exponentOf_ofNat_high (n : Nat) :
    exponentOf (BitVec.ofNat 64 (2 ^ 63 + n)) = exponentOf (BitVec.ofNat 64 n) := by
  simp only [exponentOf, slice, BitVec.toNat_ofNat]
  omega

theorem fractionOf_ofNat_high (n : Nat) :
    fractionOf (BitVec.ofNat 64 (2 ^ 63 + n)) = fractionOf (BitVec.ofNat 64 n) := by
  simp only [fractionOf, slice, BitVec.toNat_ofNat]
  omega

theorem magnitudeOf_ofNat_high (n : Nat) :
    magnitudeOf (BitVec.ofNat 64 (2 ^ 63 + n)) = magnitudeOf (BitVec.ofNat 64 n) := by
  simp only [magnitudeOf, significandOf, exponentOf_ofNat_high, fractionOf_ofNat_high]

theorem finite64_ofNat_high (n : Nat) :
    finite64 (BitVec.ofNat 64 (2 ^ 63 + n)) = finite64 (BitVec.ofNat 64 n) := by
  simp only [finite64, exponentOf_ofNat_high]

theorem exponentOf_ofNat {n : Nat} (h : n < 2 ^ 63) : exponentOf (BitVec.ofNat 64 n) = n / 2 ^ 52 := by
  simp only [exponentOf, slice, BitVec.toNat_ofNat]
  omega

theorem fractionOf_ofNat (n : Nat) : fractionOf (BitVec.ofNat 64 n) = n % 2 ^ 52 := by
  simp only [fractionOf, slice, BitVec.toNat_ofNat]
  omega

/-- Bits `sh * 2^52 + m` hold the magnitude `m * 2^sh`: a significand of 2^53 carries into the exponent, and
only the smallest binade (sh = 0) has significands below 2^52. -/
theorem magnitudeOf_bits {sh m : Nat} (hm : m ≤ 2 ^ 53) (hn : sh = 0 ∨ 2 ^ 52 ≤ m)
    (hlt : sh * 2 ^ 52 + m < 2 ^ 63) :
    magnitudeOf (BitVec.ofNat 64 (sh * 2 ^ 52 + m)) = m * 2 ^ sh := by
  rw [magnitudeOf, significandOf, exponentOf_ofNat hlt, fractionOf_ofNat]
  rcases lt_or_ge m (2 ^ 52) with h | h
  · have hsh : sh = 0 := hn.resolve_right (by omega)
    subst hsh
    rw [if_pos (by omega), show (0 * 2 ^ 52 + m) / 2 ^ 52 = 0 by omega]
    simp only [Nat.zero_sub, pow_zero, Nat.mul_one]
    omega
  · rcases lt_or_eq_of_le hm with h' | h'
    · have he : (sh * 2 ^ 52 + m) / 2 ^ 52 = sh + 1 := by omega
      have hf : (sh * 2 ^ 52 + m) % 2 ^ 52 = m - 2 ^ 52 := by omega
      rw [he, hf, if_neg (by omega), Nat.add_sub_cancel, Nat.add_sub_cancel' h]
    · have he : (sh * 2 ^ 52 + m) / 2 ^ 52 = sh + 2 := by omega
      have hf : (sh * 2 ^ 52 + m) % 2 ^ 52 = 0 := by omega
      rw [he, hf, if_neg (by omega), h', show sh + 2 - 1 = sh + 1 by omega]
      ring

theorem finite64_bits {n : Nat} (h : n < 2047 * 2 ^ 52) : finite64 (BitVec.ofNat 64 n) = true := by
  rw [finite64, exponentOf_ofNat (by omega)]
  simp only [bne_iff_ne, ne_eq]
  omega

/-- The magnitude of any finite pattern is `m * 2^sh`, m below 2^53 and at least 2^52 above the smallest
binade, and sh at most 2045. -/
theorem magnitudeOf_form {b : Word} (h : finite64 b = true) :
    ∃ sh m, magnitudeOf b = m * 2 ^ sh ∧ m < 2 ^ 53 ∧ (sh = 0 ∨ 2 ^ 52 ≤ m) ∧ sh ≤ 2045 := by
  have hf : fractionOf b < 2 ^ 52 := Nat.mod_lt _ (by decide)
  have he : exponentOf b < 2 ^ 11 := Nat.mod_lt _ (by decide)
  have hfin : exponentOf b ≠ 2047 := by simpa [finite64] using h
  unfold magnitudeOf significandOf
  split
  · rename_i h0
    exact ⟨0, fractionOf b, by rw [h0], by omega, .inl rfl, by omega⟩
  · exact ⟨exponentOf b - 1, 2 ^ 52 + fractionOf b, rfl, by omega, .inr (by omega), by omega⟩

/-! Rounding a magnitude -/

/-- The binade `roundMagnitude` rounds in. -/
def binadeOf (x : Rat) : Nat := Nat.log2 x.floor.toNat - 52

/-- The significand `roundMagnitude` rounds to. -/
def roundedSig (x : Rat) : Nat := (rhe (x / ((2 ^ binadeOf x : Nat) : Rat))).toNat

theorem roundMagnitude_eq (x : Rat) :
    roundMagnitude x = min (binadeOf x * 2 ^ 52 + roundedSig x) (2047 * 2 ^ 52) := rfl

/-- x lies in its binade: below 2^53 units, and at least 2^52 units above the smallest binade. -/
theorem binadeOf_spec {x : Rat} (hx : 0 ≤ x) :
    x < ((2 ^ 53 * 2 ^ binadeOf x : Nat) : Rat) ∧
      (binadeOf x = 0 ∨ ((2 ^ 52 * 2 ^ binadeOf x : Nat) : Rat) ≤ x) := by
  have hfl : (x.floor.toNat : Int) = x.floor :=
    Int.toNat_of_nonneg (Rat.le_floor_iff.2 (by simpa using hx))
  have hle : ((x.floor.toNat : Nat) : Rat) ≤ x := by
    have := Rat.floor_le x
    rw [← hfl] at this
    exact_mod_cast this
  have hlt : x < ((x.floor.toNat : Nat) : Rat) + 1 := by
    have := Rat.lt_floor_add_one x
    rw [← hfl] at this
    exact_mod_cast this
  unfold binadeOf
  generalize x.floor.toNat = q at *
  have hq : q < 2 ^ (Nat.log2 q + 1) := Nat.lt_log2_self
  have hsucc : ((q : Nat) : Rat) + 1 ≤ ((2 ^ (Nat.log2 q + 1) : Nat) : Rat) := by exact_mod_cast hq
  constructor
  · refine lt_of_lt_of_le hlt (hsucc.trans ?_)
    rw [← pow_add]
    exact_mod_cast Nat.pow_le_pow_right (by decide) (by omega)
  · by_cases h : Nat.log2 q ≤ 52
    · exact .inl (by omega)
    · refine .inr (le_trans ?_ hle)
      rw [← pow_add, show 52 + (Nat.log2 q - 52) = Nat.log2 q by omega]
      have hq0 : q ≠ 0 := by rintro rfl; simp at h
      exact_mod_cast Nat.log2_self_le hq0

/-- A rounding never passes an integer it lies below or above. -/
theorem rhe_le_of_le {x : Rat} {z : Int} (h : x ≤ z) : rhe x ≤ z := by
  have h1 := abs_le.1 (rhe_near x)
  have : (rhe x : Rat) < z + 1 := by linarith
  have : rhe x < z + 1 := by exact_mod_cast this
  omega

theorem le_rhe_of_le {x : Rat} {z : Int} (h : (z : Rat) ≤ x) : z ≤ rhe x := by
  have h1 := abs_le.1 (rhe_near x)
  have : (z : Rat) - 1 < rhe x := by linarith
  have : z - 1 < rhe x := by exact_mod_cast this
  omega

theorem roundedSig_spec {x : Rat} (hx : 0 ≤ x) :
    (roundedSig x : Int) = rhe (x / ((2 ^ binadeOf x : Nat) : Rat)) ∧ roundedSig x ≤ 2 ^ 53 ∧
      (binadeOf x = 0 ∨ 2 ^ 52 ≤ roundedSig x) := by
  have hp : (0 : Rat) < ((2 ^ binadeOf x : Nat) : Rat) := by positivity
  obtain ⟨hlt, hge⟩ := binadeOf_spec hx
  have h0 : 0 ≤ rhe (x / ((2 ^ binadeOf x : Nat) : Rat)) :=
    le_rhe_of_le (by push_cast; positivity)
  have heq : (roundedSig x : Int) = rhe (x / ((2 ^ binadeOf x : Nat) : Rat)) := Int.toNat_of_nonneg h0
  refine ⟨heq, ?_, ?_⟩
  · have : rhe (x / ((2 ^ binadeOf x : Nat) : Rat)) ≤ ((2 ^ 53 : Nat) : Int) := by
      refine rhe_le_of_le ?_
      rw [div_le_iff₀ hp]
      push_cast at hlt ⊢
      exact hlt.le
    omega
  · refine hge.imp_right fun hge => ?_
    have : ((2 ^ 52 : Nat) : Int) ≤ rhe (x / ((2 ^ binadeOf x : Nat) : Rat)) := by
      refine le_rhe_of_le ?_
      rw [le_div_iff₀ hp]
      push_cast at hge ⊢
      exact hge
    omega

/-- What a rounding that stays finite gives: the magnitude `roundedSig x * 2^(binadeOf x)`. -/
theorem roundMagnitude_finite {x : Rat} (hx : 0 ≤ x)
    (hfin : binadeOf x * 2 ^ 52 + roundedSig x < 2047 * 2 ^ 52) :
    finite64 (BitVec.ofNat 64 (roundMagnitude x)) = true ∧
      magnitudeOf (BitVec.ofNat 64 (roundMagnitude x)) = roundedSig x * 2 ^ binadeOf x := by
  obtain ⟨-, hm, hn⟩ := roundedSig_spec hx
  rw [roundMagnitude_eq, min_eq_left hfin.le]
  exact ⟨finite64_bits hfin, magnitudeOf_bits hm hn (by omega)⟩

theorem roundMagnitude_lt (x : Rat) : roundMagnitude x < 2 ^ 63 := by
  rw [roundMagnitude_eq]
  exact lt_of_le_of_lt (min_le_right _ _) (by decide)

theorem mul_two_pow_le {m n a b : Nat} (h : m ≤ n) (h' : a ≤ b) : m * 2 ^ a ≤ n * 2 ^ b :=
  Nat.mul_le_mul h (Nat.pow_le_pow_right (by decide) h')

/-- A rounding of at most 2^1024 - 2^970, the largest finite magnitude, stays finite. -/
theorem rounding_stays_finite {x : Rat} (hx : 0 ≤ x) (h : x ≤ (((2 ^ 53 - 1) * 2 ^ 2045 : Nat) : Rat)) :
    binadeOf x * 2 ^ 52 + roundedSig x < 2047 * 2 ^ 52 := by
  obtain ⟨heq, hm, -⟩ := roundedSig_spec hx
  obtain ⟨-, hge⟩ := binadeOf_spec hx
  have hb : binadeOf x ≤ 2045 := by
    by_contra hcon
    rcases hge with hge | hge
    · omega
    · have h2 : ((2 ^ 52 * 2 ^ binadeOf x : Nat) : Rat) ≤ (((2 ^ 53 - 1) * 2 ^ 2045 : Nat) : Rat) :=
        hge.trans h
      have h3 : 2 ^ 52 * 2 ^ binadeOf x ≤ (2 ^ 53 - 1) * 2 ^ 2045 := by exact_mod_cast h2
      have h4 : 2 ^ 52 * 2 ^ 2046 ≤ 2 ^ 52 * 2 ^ binadeOf x :=
        Nat.mul_le_mul_left _ (Nat.pow_le_pow_right (by decide) (by omega))
      have h5 := h4.trans h3
      rw [show (2 : Nat) ^ 2046 = 2 * 2 ^ 2045 from pow_succ' 2 2045] at h5
      have h6 : 0 < (2 : Nat) ^ 2045 := Nat.two_pow_pos _
      clear h h2 h3 h4
      generalize (2 : Nat) ^ 2045 = p at h5 h6
      omega
  rcases lt_or_eq_of_le hb with hlt | heq'
  · omega
  · have hs : rhe (x / ((2 ^ binadeOf x : Nat) : Rat)) ≤ ((2 ^ 53 - 1 : Nat) : Int) := by
      refine rhe_le_of_le ?_
      rw [div_le_iff₀ (by positivity), heq']
      push_cast at h ⊢
      exact h
    omega

/-- The value of a rounding, given the sign. -/
theorem val64_rne64 {v : Rat}
    (hfin : binadeOf (|v| * ((2 ^ 1074 : Nat) : Rat)) * 2 ^ 52 + roundedSig (|v| * ((2 ^ 1074 : Nat) : Rat))
      < 2047 * 2 ^ 52) :
    finite64 (rne64 v) = true ∧
      val64 (rne64 v) = (if v < 0 then (-1 : Rat) else 1) *
        ((roundedSig (|v| * ((2 ^ 1074 : Nat) : Rat)) * 2 ^ binadeOf (|v| * ((2 ^ 1074 : Nat) : Rat)) : Nat)
          : Rat) * unit64 := by
  have hx : 0 ≤ |v| * ((2 ^ 1074 : Nat) : Rat) := by positivity
  obtain ⟨h1, h2⟩ := roundMagnitude_finite hx hfin
  have hlt := roundMagnitude_lt (|v| * ((2 ^ 1074 : Nat) : Rat))
  unfold rne64
  split
  · rename_i hneg
    rw [← abs_of_neg hneg]
    rw [finite64_ofNat_high, val64_eq, signOf_ofNat_high hlt, magnitudeOf_ofNat_high, h2,
      if_pos rfl]
    exact ⟨h1, by ring⟩
  · rename_i hpos
    rw [abs_of_nonneg (not_lt.1 hpos)] at *
    rw [val64_eq, signOf_ofNat_low hlt, h2, if_neg (by decide)]
    exact ⟨h1, by ring⟩

/-- A magnitude `m * 2^sh` with m below 2^53 is rounded to itself. -/
theorem roundedSig_exact {m sh : Nat} (hm : m < 2 ^ 53) :
    roundedSig ((m * 2 ^ sh : Nat) : Rat) * 2 ^ binadeOf ((m * 2 ^ sh : Nat) : Rat) = m * 2 ^ sh := by
  have hx : (0 : Rat) ≤ ((m * 2 ^ sh : Nat) : Rat) := by positivity
  obtain ⟨heq, -, -⟩ := roundedSig_spec hx
  have hbin : binadeOf ((m * 2 ^ sh : Nat) : Rat) ≤ sh := by
    by_contra hcon
    rcases (binadeOf_spec hx).2 with h | h
    · omega
    · have h3 : 2 ^ 52 * 2 ^ binadeOf ((m * 2 ^ sh : Nat) : Rat) ≤ m * 2 ^ sh := by exact_mod_cast h
      have h4 : 2 ^ 52 * 2 ^ (sh + 1) ≤ 2 ^ 52 * 2 ^ binadeOf ((m * 2 ^ sh : Nat) : Rat) :=
        Nat.mul_le_mul_left _ (Nat.pow_le_pow_right (by decide) (by omega))
      have h5 : m * 2 ^ sh < 2 ^ 53 * 2 ^ sh := Nat.mul_lt_mul_of_pos_right hm (by positivity)
      have h6 := (h4.trans h3).trans_lt h5
      rw [pow_succ] at h6
      have key : ∀ p : Nat, ¬2 ^ 52 * (p * 2) < 2 ^ 53 * p := fun p => by omega
      exact key _ h6
  generalize binadeOf ((m * 2 ^ sh : Nat) : Rat) = t at *
  obtain ⟨d, rfl⟩ := Nat.exists_eq_add_of_le hbin
  have hdiv : ((m * 2 ^ (t + d) : Nat) : Rat) / ((2 ^ t : Nat) : Rat) = ((m * 2 ^ d : Nat) : Int) := by
    rw [div_eq_iff (by positivity)]
    push_cast
    ring
  rw [hdiv, rhe_int] at heq
  have : roundedSig ((m * 2 ^ (t + d) : Nat) : Rat) = m * 2 ^ d := by exact_mod_cast heq
  rw [this, pow_add]
  ring

/-- A value a pattern can hold, `± m * 2^sh` units with m below 2^53 and sh at most 2045, rounds to itself
(00_scope.md R10). -/
theorem val64_rne64_exact {v : Rat} {m sh : Nat} (hm : m < 2 ^ 53) (hsh : sh ≤ 2045)
    (hv : |v| = ((m * 2 ^ sh : Nat) : Rat) * unit64) :
    finite64 (rne64 v) = true ∧ val64 (rne64 v) = v := by
  have hscale : |v| * ((2 ^ 1074 : Nat) : Rat) = ((m * 2 ^ sh : Nat) : Rat) := by
    rw [hv, unit64, mul_assoc, one_div, inv_mul_cancel₀ (by positivity), mul_one]
  have hle : ((m * 2 ^ sh : Nat) : Rat) ≤ (((2 ^ 53 - 1) * 2 ^ 2045 : Nat) : Rat) := by
    have h7 := mul_two_pow_le (a := sh) (b := 2045) (m := m) (n := 2 ^ 53 - 1) (by omega) hsh
    rw [Nat.cast_le]
    exact h7
  have hfin := rounding_stays_finite (x := ((m * 2 ^ sh : Nat) : Rat)) (Nat.cast_nonneg _) hle
  have h := val64_rne64 (v := v) (by rw [hscale]; exact hfin)
  refine ⟨h.1, ?_⟩
  rw [h.2, hscale, roundedSig_exact hm, mul_assoc, ← hv]
  split
  · rename_i hneg; rw [abs_of_neg hneg]; ring
  · rename_i hpos; rw [abs_of_nonneg (not_lt.1 hpos)]; ring

/-- Every finite pattern's value rounds to itself. -/
theorem val64_rne64_val64 {b : Word} (h : finite64 b = true) :
    finite64 (rne64 (val64 b)) = true ∧ val64 (rne64 (val64 b)) = val64 b := by
  obtain ⟨sh, m, hmag, hm, -, hsh⟩ := magnitudeOf_form h
  refine val64_rne64_exact hm hsh ?_
  have hu := unit64_pos
  rw [val64_eq, hmag, abs_mul, abs_of_pos hu]
  split
  · rw [abs_neg, abs_of_nonneg (by positivity)]
  · rw [abs_of_nonneg (by positivity)]

end Sys2Proof.Machine
end

