-- ==== Sys2Proof/Laws/Bus.lean ====
section
/-! SUPPORT. The laws of the window map and of host accesses. -/

namespace Sys2Proof.Machine

/-! The window map (20_memory.md R34) -/

@[simp] theorem targetAt_cap (cfg : Config) : targetAt cfg 0x00000 = some .cap := rfl
@[simp] theorem targetAt_cmd (cfg : Config) : targetAt cfg 0x00008 = some .cmd := rfl
@[simp] theorem targetAt_status (cfg : Config) : targetAt cfg 0x00010 = some .status := rfl
@[simp] theorem targetAt_ctrl (cfg : Config) : targetAt cfg 0x00018 = some .ctrl := rfl
@[simp] theorem targetAt_rangeLo (cfg : Config) : targetAt cfg 0x00020 = some .rangeLo := rfl
@[simp] theorem targetAt_rangeHi (cfg : Config) : targetAt cfg 0x00028 = some .rangeHi := rfl

/-- At and above 0x30 the map is the scratchpad or reserved. -/
theorem targetAt_high (cfg : Config) {off : Nat} (h : 0x30 ≤ off) :
    targetAt cfg off = spadTarget cfg off := by
  unfold targetAt
  split <;> first | omega | rfl

theorem targetAt_spad (cfg : Config) {w : Nat} (h : w < cfg.spadWords) :
    targetAt cfg (spadOffset w) = some (.spad w) := by
  have hq : (spadOffset w - 0x40000) / 8 = w := by unfold spadOffset; omega
  rw [targetAt_high cfg (by unfold spadOffset; omega), spadTarget, hq,
    if_pos ⟨by unfold spadOffset; omega, by unfold spadOffset; omega, h⟩]

/-- Every offset the map answers at is one of the six CSRs or a scratchpad word. -/
theorem targetAt_cases {cfg : Config} {off : Nat} {t : Target} (h : targetAt cfg off = some t) :
    (off < 0x30 ∧ off % 8 = 0 ∧ ∀ w, t ≠ .spad w) ∨
      ∃ w, w < cfg.spadWords ∧ off = spadOffset w ∧ t = .spad w := by
  unfold targetAt at h
  split at h
  case h_7 =>
    unfold spadTarget at h
    split at h
    · rename_i hc
      refine .inr ⟨(off - 0x40000) / 8, hc.2.2, ?_, ?_⟩
      · unfold spadOffset; omega
      · exact (Option.some.inj h).symm
    · cases h
  all_goals
    cases h
    exact .inl ⟨by omega, by omega, by simp⟩

/-! Host accesses -/

/-- A full-word access to a mapped offset of the window, while `rst` is released. -/
theorem hostAccess_read {s : State} (hr : s.rst = false) {off : Nat} (ho : off < 2 ^ 19) {t : Target}
    (ht : targetAt s.cfg off = some t) :
    hostAccess { kind := .read, offset := BitVec.ofNat 19 off, width := 64, strobe := 0xFF } s =
      hostRead s t := by
  have hm : off % 524288 = off := Nat.mod_eq_of_lt ho
  simp [hostAccess, hr, Access.target, Access.fullWord, hm, ht]

theorem hostAccess_write {s : State} (hr : s.rst = false) {off : Nat} (ho : off < 2 ^ 19) {t : Target}
    (ht : targetAt s.cfg off = some t) (v : Word) :
    hostAccess { kind := .write v, offset := BitVec.ofNat 19 off, width := 64, strobe := 0xFF } s =
      hostWrite s v t := by
  have hm : off % 524288 = off := Nat.mod_eq_of_lt ho
  simp [hostAccess, hr, Access.target, Access.fullWord, hm, ht]

/-- Every scratchpad word lies in the 19-bit window (20_memory.md R32, R34). -/
theorem spadOffset_lt {cfg : Config} {w : Nat} (h : w < cfg.spadWords) : spadOffset w < 2 ^ 19 := by
  have := cfg.spadWords_le
  unfold spadOffset
  omega

/-- An access that reaches a target is a full-word access at the target's offset (20_memory.md R36). -/
theorem Access.target_eq_some {cfg : Config} {a : Access} {t : Target} (h : a.target cfg = some t) :
    a.width = 64 ∧ a.strobe = 0xFF ∧ targetAt cfg a.offset.toNat = some t := by
  unfold Access.target at h
  split at h
  · rename_i hf
    simp only [Access.fullWord, Bool.and_eq_true, beq_iff_eq] at hf
    exact ⟨hf.1, hf.2, h⟩
  · cases h

/-- What a host access can answer, said once: a fault while `rst` is asserted, a bus error, or the read or
write of a mapped target by a full-word access. -/
theorem hostAccess_cases (a : Access) (s : State) :
    (s.rst = true ∧ hostAccess a s = .fault .hostAccessDuringReset) ∨
      (s.rst = false ∧ a.target s.cfg = none ∧ hostAccess a s = .next (s.respond .busError)) ∨
      (s.rst = false ∧ ∃ t, targetAt s.cfg a.offset.toNat = some t ∧ a.target s.cfg = some t ∧
        ((a.kind = .read ∧ hostAccess a s = hostRead s t) ∨
          ∃ v, a.kind = .write v ∧ hostAccess a s = hostWrite s v t)) := by
  unfold hostAccess
  cases hr : s.rst with
  | true => exact .inl ⟨rfl, by simp⟩
  | false =>
    cases ht : a.target s.cfg with
    | none => exact .inr (.inl ⟨rfl, rfl, by simp⟩)
    | some t =>
      refine .inr (.inr ⟨rfl, t, (Access.target_eq_some ht).2.2, rfl, ?_⟩)
      cases a.kind with
      | read => exact .inl ⟨rfl, by simp⟩
      | write v => exact .inr ⟨v, rfl, by simp⟩

/-- A host read answers data, leaving at most HAZ changed, or faults on an unwritten word (20_memory.md
R37, R38). -/
theorem hostRead_cases (s : State) (t : Target) :
    (∃ v, hostRead s t = .next (s.respond (.data v))) ∨
      (s.status.busy = true ∧ (∃ w, t = .spad w) ∧
        hostRead s t = .next (s.refuseAccess.respond (.data 0))) ∨
      (s.status.busy = false ∧ (∃ w, t = .spad w ∧ readWord s.mem w = none) ∧
        hostRead s t = .fault .unwrittenScratchpadRead) := by
  cases t with
  | spad w =>
    simp only [hostRead, readSpad]
    cases hb : s.status.busy with
    | true => exact .inr (.inl ⟨rfl, ⟨w, rfl⟩, by simp [answerRead]⟩)
    | false =>
      cases hw : readWord s.mem w with
      | none => exact .inr (.inr ⟨rfl, ⟨w, rfl, hw⟩, by simp⟩)
      | some v => exact .inl ⟨BitVec.ofNat 64 v, by simp [answerRead]⟩
  | cap => exact .inl ⟨_, rfl⟩
  | cmd => exact .inl ⟨_, rfl⟩
  | status => exact .inl ⟨_, rfl⟩
  | ctrl => exact .inl ⟨_, rfl⟩
  | rangeLo => exact .inl ⟨_, rfl⟩
  | rangeHi => exact .inl ⟨_, rfl⟩

/-- A write that is refused while BUSY sets HAZ; otherwise it has its effect (20_memory.md R38). -/
theorem writeUnlessBusy_cases (s idle : State) :
    (s.status.busy = true ∧ writeUnlessBusy s idle = .next (s.refuseAccess.respond .done)) ∨
      (s.status.busy = false ∧ writeUnlessBusy s idle = .next (idle.respond .done)) := by
  unfold writeUnlessBusy answerWrite
  cases s.status.busy <;> simp

/-- What a host write can leave, said once. -/
theorem hostWrite_cases (s : State) (v : Word) (t : Target) :
    ∃ u, hostWrite s v t = .next (u.respond .done) ∧
      (u = s ∨ u = s.refuseAccess ∧ s.status.busy = true ∨
        u = s.coreReset ∧ t = .ctrl ∧ v.getLsbD 0 = true ∨
        u = { s with status := { s.status with haz := false } } ∧ t = .ctrl ∧ v.getLsbD 1 = true ∨
        s.status.busy = false ∧
          (u = s.accept v ∧ t = .cmd ∨ u = { s with rangeLo := v } ∧ t = .rangeLo ∨
            u = { s with rangeHi := v } ∧ t = .rangeHi ∨
            ∃ w, u = { s with mem := writeWord s.mem w v.toNat } ∧ t = .spad w)) := by
  cases t with
  | cap => exact ⟨s, rfl, .inl rfl⟩
  | status => exact ⟨s, rfl, .inl rfl⟩
  | ctrl =>
    refine ⟨s.writeCtrl v, rfl, ?_⟩
    unfold State.writeCtrl
    split
    · rename_i h; exact .inr (.inr (.inl ⟨rfl, rfl, h⟩))
    · split
      · rename_i h; exact .inr (.inr (.inr (.inl ⟨rfl, rfl, h⟩)))
      · exact .inl rfl
  | cmd =>
    rcases writeUnlessBusy_cases s (s.accept v) with ⟨hb, h⟩ | ⟨hb, h⟩
    · exact ⟨_, h, .inr (.inl ⟨rfl, hb⟩)⟩
    · exact ⟨_, h, .inr (.inr (.inr (.inr ⟨hb, .inl ⟨rfl, rfl⟩⟩)))⟩
  | rangeLo =>
    rcases writeUnlessBusy_cases s { s with rangeLo := v } with ⟨hb, h⟩ | ⟨hb, h⟩
    · exact ⟨_, h, .inr (.inl ⟨rfl, hb⟩)⟩
    · exact ⟨_, h, .inr (.inr (.inr (.inr ⟨hb, .inr (.inl ⟨rfl, rfl⟩)⟩)))⟩
  | rangeHi =>
    rcases writeUnlessBusy_cases s { s with rangeHi := v } with ⟨hb, h⟩ | ⟨hb, h⟩
    · exact ⟨_, h, .inr (.inl ⟨rfl, hb⟩)⟩
    · exact ⟨_, h, .inr (.inr (.inr (.inr ⟨hb, .inr (.inr (.inl ⟨rfl, rfl⟩))⟩)))⟩
  | spad w =>
    rcases writeUnlessBusy_cases s { s with mem := writeWord s.mem w v.toNat } with ⟨hb, h⟩ | ⟨hb, h⟩
    · exact ⟨_, h, .inr (.inl ⟨rfl, hb⟩)⟩
    · exact ⟨_, h, .inr (.inr (.inr (.inr ⟨hb, .inr (.inr (.inr ⟨w, rfl, rfl⟩))⟩)))⟩

end Sys2Proof.Machine
end

