-- ==== Sys2Proof/Laws/Encoding.lean ====
section
/-! SUPPORT. The fields of an assembled command word (30_encoding.md R45). -/

namespace Sys2Proof

/-- The eight fields fit their widths (30_encoding.md R45). -/
structure FieldsFit (op rd rs1 rs2 k b len addr : Nat) : Prop where
  op : op < 64
  rd : rd < 64
  rs1 : rs1 < 64
  rs2 : rs2 < 64
  k : k < 256
  b : b < 2
  len : len < 65536
  addr : addr < 32768

variable {op rd rs1 rs2 k b len addr : Nat}

theorem assemble_toNat (h : FieldsFit op rd rs1 rs2 k b len addr) :
    (assemble op rd rs1 rs2 k b len addr).toNat =
      op + rd * 2 ^ 6 + rs1 * 2 ^ 12 + rs2 * 2 ^ 18 + k * 2 ^ 24 + b * 2 ^ 32 + len * 2 ^ 33
        + addr * 2 ^ 49 := by
  obtain ⟨h1, h2, h3, h4, h5, h6, h7, h8⟩ := h
  rw [assemble, BitVec.toNat_ofNat, Nat.mod_eq_of_lt]
  omega

theorem opOf_assemble (h : FieldsFit op rd rs1 rs2 k b len addr) :
    opOf (assemble op rd rs1 rs2 k b len addr) = op := by
  rw [opOf, slice, assemble_toNat h]
  obtain ⟨h1, h2, h3, h4, h5, h6, h7, h8⟩ := h
  omega

theorem rdOf_assemble (h : FieldsFit op rd rs1 rs2 k b len addr) :
    rdOf (assemble op rd rs1 rs2 k b len addr) = rd := by
  rw [rdOf, slice, assemble_toNat h]
  obtain ⟨h1, h2, h3, h4, h5, h6, h7, h8⟩ := h
  omega

theorem rs1Of_assemble (h : FieldsFit op rd rs1 rs2 k b len addr) :
    rs1Of (assemble op rd rs1 rs2 k b len addr) = rs1 := by
  rw [rs1Of, slice, assemble_toNat h]
  obtain ⟨h1, h2, h3, h4, h5, h6, h7, h8⟩ := h
  omega

theorem rs2Of_assemble (h : FieldsFit op rd rs1 rs2 k b len addr) :
    rs2Of (assemble op rd rs1 rs2 k b len addr) = rs2 := by
  rw [rs2Of, slice, assemble_toNat h]
  obtain ⟨h1, h2, h3, h4, h5, h6, h7, h8⟩ := h
  omega

theorem kOf_assemble (h : FieldsFit op rd rs1 rs2 k b len addr) :
    kOf (assemble op rd rs1 rs2 k b len addr) = k := by
  rw [kOf, slice, assemble_toNat h]
  obtain ⟨h1, h2, h3, h4, h5, h6, h7, h8⟩ := h
  omega

theorem bOf_assemble (h : FieldsFit op rd rs1 rs2 k b len addr) :
    bOf (assemble op rd rs1 rs2 k b len addr) = b := by
  rw [bOf, slice, assemble_toNat h]
  obtain ⟨h1, h2, h3, h4, h5, h6, h7, h8⟩ := h
  omega

theorem lenOf_assemble (h : FieldsFit op rd rs1 rs2 k b len addr) :
    lenOf (assemble op rd rs1 rs2 k b len addr) = len := by
  rw [lenOf, slice, assemble_toNat h]
  obtain ⟨h1, h2, h3, h4, h5, h6, h7, h8⟩ := h
  omega

theorem addrOf_assemble (h : FieldsFit op rd rs1 rs2 k b len addr) :
    addrOf (assemble op rd rs1 rs2 k b len addr) = addr := by
  rw [addrOf, slice, assemble_toNat h]
  obtain ⟨h1, h2, h3, h4, h5, h6, h7, h8⟩ := h
  omega

/-- The fields of any word fit their widths. -/
theorem fieldsFit_of_word (c : Word) :
    FieldsFit (opOf c) (rdOf c) (rs1Of c) (rs2Of c) (kOf c) (bOf c) (lenOf c) (addrOf c) := by
  constructor <;> exact Nat.mod_lt _ (by decide)

end Sys2Proof
end

