-- ==== Sys2Proof/Laws/Exec.lean ====
section
/-! SUPPORT. What each meaning can answer, said once: an error, a committed register, a committed
scratchpad range, or the fault of an unwritten read. -/

namespace Sys2Proof.Machine

/-- An Execute answer that raised an error; the code is never NONE. -/
def RaisesError (s : State) (o : Result) : Prop := ∃ e, e ≠ ErrorCode.none ∧ o = .next (s.raise e)

theorem checked_outcome {s : State} {cs : List Check} {perform : Result}
    (hcodes : ∀ c ∈ cs, c.1 ≠ ErrorCode.none) :
    RaisesError s (checked s cs perform) ∨
      ((∀ c ∈ cs, c.2 = false) ∧ checked s cs perform = perform) := by
  rcases checked_cases s cs perform with ⟨e, he, h⟩ | h
  · exact .inl ⟨e, hcodes _ he, h⟩
  · exact .inr h

/-- A fault comes only after every check has passed. -/
theorem checked_fault {s : State} {cs : List Check} {perform : Result} {f : Fault}
    (h : checked s cs perform = .fault f) : (∀ c ∈ cs, c.2 = false) ∧ perform = .fault f := by
  rcases checked_cases s cs perform with ⟨e, -, h'⟩ | ⟨hp, h'⟩
  · rw [h'] at h; cases h
  · exact ⟨hp, h' ▸ h⟩

/-- Committed scratchpad words leave every byte outside them. -/
theorem readByte_commitSpad_outside {s : State} {a size o : Nat} {vs : List Nat}
    (h : o < spadOffset a ∨ spadOffset (a + vs.length * size) ≤ o) :
    readByte (s.commitSpad a size vs).mem o = readByte s.mem o :=
  readByte_writeElements_outside h

theorem execTadd_cases (rd rs1 rs2 : Nat) (s : State) :
    RaisesError s (execTadd rd rs1 rs2 s) ∨
      (rd < s.cfg.npreg ∧ s.valid rs1 = true ∧ s.valid rs2 = true ∧ s.len rs1 = s.len rs2 ∧
        execTadd rd rs1 rs2 s =
          .next (s.commitTorus rd (List.zipWith (addRaw s.cfg.w) (s.coeffs rs1) (s.coeffs rs2)))) := by
  rcases checked_outcome (s := s) (perform := .next (s.commitTorus rd
      (List.zipWith (addRaw s.cfg.w) (s.coeffs rs1) (s.coeffs rs2))))
      (cs := [registerCheck s [rd, rs1, rs2], emptyCheck s [rs1, rs2], sizeCheck s rs1 rs2])
      (by simp [registerCheck, emptyCheck, sizeCheck]) with h | ⟨hp, h⟩
  · exact .inl h
  · simp [registerCheck, emptyCheck, sizeCheck] at hp
    exact .inr ⟨hp.1.1, hp.2.1.1, hp.2.1.2, hp.2.2, h⟩

theorem execTsub_cases (rd rs1 rs2 : Nat) (s : State) :
    RaisesError s (execTsub rd rs1 rs2 s) ∨
      (rd < s.cfg.npreg ∧ s.valid rs1 = true ∧ s.valid rs2 = true ∧ s.len rs1 = s.len rs2 ∧
        execTsub rd rs1 rs2 s =
          .next (s.commitTorus rd (List.zipWith (subRaw s.cfg.w) (s.coeffs rs1) (s.coeffs rs2)))) := by
  rcases checked_outcome (s := s) (perform := .next (s.commitTorus rd
      (List.zipWith (subRaw s.cfg.w) (s.coeffs rs1) (s.coeffs rs2))))
      (cs := [registerCheck s [rd, rs1, rs2], emptyCheck s [rs1, rs2], sizeCheck s rs1 rs2])
      (by simp [registerCheck, emptyCheck, sizeCheck]) with h | ⟨hp, h⟩
  · exact .inl h
  · simp [registerCheck, emptyCheck, sizeCheck] at hp
    exact .inr ⟨hp.1.1, hp.2.1.1, hp.2.1.2, hp.2.2, h⟩

theorem execTmul_cases (rd rs1 rs2 k : Nat) (s : State) :
    RaisesError s (execTmul rd rs1 rs2 k s) ∨
      (rd < s.cfg.npreg ∧ k ≤ s.cfg.w ∧ s.valid rs1 = true ∧ s.valid rs2 = true ∧
        s.len rs1 = s.len rs2 ∧
        execTmul rd rs1 rs2 k s =
          .next (s.commitTorus rd (mulCoeffs s.cfg.w (s.coeffs rs1) (s.coeffs rs2) k))) := by
  rcases checked_outcome (s := s)
      (perform := .next (s.commitTorus rd (mulCoeffs s.cfg.w (s.coeffs rs1) (s.coeffs rs2) k)))
      (cs := [registerCheck s [rd, rs1, rs2], modulusCheck s k, emptyCheck s [rs1, rs2],
        sizeCheck s rs1 rs2])
      (by simp [registerCheck, modulusCheck, emptyCheck, sizeCheck]) with h | ⟨hp, h⟩
  · exact .inl h
  · simp [registerCheck, modulusCheck, emptyCheck, sizeCheck] at hp
    exact .inr ⟨hp.1.1, hp.2.1, hp.2.2.1.1, hp.2.2.1.2, hp.2.2.2, h⟩

/-- Reading elements faults or goes on with `cnt` of them. -/
theorem withElements_cases (s : State) (addr size cnt : Nat) (go : List Nat → Result) :
    withElements s addr size cnt go = .fault .unwrittenScratchpadRead ∨
      ∃ es, readElements s.mem addr size cnt = some es ∧ es.length = cnt ∧
        withElements s addr size cnt go = go es := by
  unfold withElements
  split
  · rename_i es hes
    exact .inr ⟨es, hes, (readElements_eq_some.1 hes).1, rfl⟩
  · exact .inl rfl

/-- Reading binary64 elements faults, raises NON_FINITE_INPUT, or goes on with `cnt` finite ones. -/
theorem withReals_cases (s : State) (addr cnt : Nat) (go : List Word → Result) :
    withReals s addr cnt go = .fault .unwrittenScratchpadRead ∨
      RaisesError s (withReals s addr cnt go) ∨
      ∃ bs : List Word, readElements s.mem addr 1 cnt = some (bs.map BitVec.toNat) ∧ bs.length = cnt ∧
        (∀ b ∈ bs, finite64 b = true) ∧ withReals s addr cnt go = go bs := by
  unfold withReals
  rcases withElements_cases s addr 1 cnt fun es =>
      checked s [finiteCheck (es.map (BitVec.ofNat 64))] (go (es.map (BitVec.ofNat 64)))
    with h | ⟨es, hes, hlen, h⟩
  · exact .inl h
  · rw [h]
    rcases checked_outcome (s := s) (cs := [finiteCheck (es.map (BitVec.ofNat 64))])
        (perform := go (es.map (BitVec.ofNat 64))) (by simp [finiteCheck]) with h | ⟨hp, h⟩
    · exact .inr (.inl h)
    · refine .inr (.inr ⟨es.map (BitVec.ofNat 64), ?_, by simpa using hlen, ?_, h⟩)
      · rw [hes]
        congr 1
        refine List.ext_getElem (by simp) fun j h1 h2 => ?_
        have := spadRead_lt ((readElements_eq_some.1 hes).2 j h1)
        simp [Nat.mod_eq_of_lt (by simpa using this : es[j] < 18446744073709551616)]
      · simpa [finiteCheck] using hp

theorem length_spread {α : Type} {bcast : Bool} {n : Nat} {es : List α}
    (h : es.length = elementCount bcast n) : (spread bcast n es).length = n := by
  cases bcast
  · simpa [spread, elementCount] using h
  · match es, h with
    | [e], _ => simp [spread]

theorem execPencI_cases (rd k : Nat) (bcast : Bool) (n addr : Nat) (s : State) :
    RaisesError s (execPencI rd k bcast n addr s) ∨
      execPencI rd k bcast n addr s = .fault .unwrittenScratchpadRead ∨
      ∃ es, rd < s.cfg.npreg ∧ k ≤ s.cfg.w ∧ n ≤ s.cfg.nmax ∧
        addr + elementCount bcast n * s.cfg.ew ≤ s.cfg.spadWords ∧ (spread bcast n es).length = n ∧
        readElements s.mem addr s.cfg.ew (elementCount bcast n) = some es ∧
        execPencI rd k bcast n addr s =
          .next (s.commitTorus rd ((spread bcast n es).map (encInt s.cfg.w · k))) := by
  unfold execPencI
  rcases checked_outcome (s := s)
      (cs := [registerCheck s [rd], modulusCheck s k, lengthCheck s n,
        addressCheck s addr (elementCount bcast n * s.cfg.ew)])
      (perform := withElements s addr s.cfg.ew (elementCount bcast n) fun es =>
        .next (s.commitTorus rd ((spread bcast n es).map (encInt s.cfg.w · k))))
      (by simp [registerCheck, modulusCheck, lengthCheck, addressCheck]) with h | ⟨hp, h⟩
  · exact .inl h
  · rw [h]
    rcases withElements_cases s addr s.cfg.ew (elementCount bcast n) fun es =>
        .next (s.commitTorus rd ((spread bcast n es).map (encInt s.cfg.w · k)))
      with h | ⟨es, hes, hlen, h⟩
    · exact .inr (.inl h)
    · simp [registerCheck, modulusCheck, lengthCheck, addressCheck] at hp
      exact .inr (.inr ⟨es, hp.1, hp.2.1, hp.2.2.1, hp.2.2.2, length_spread hlen, hes, h⟩)

theorem execPencR_cases (rd : Nat) (bcast : Bool) (n addr : Nat) (s : State) :
    RaisesError s (execPencR rd bcast n addr s) ∨
      execPencR rd bcast n addr s = .fault .unwrittenScratchpadRead ∨
      ∃ bs : List Word, rd < s.cfg.npreg ∧ n ≤ s.cfg.nmax ∧
        addr + elementCount bcast n ≤ s.cfg.spadWords ∧ (spread bcast n bs).length = n ∧
        readElements s.mem addr 1 (elementCount bcast n) = some (bs.map BitVec.toNat) ∧
        (∀ b ∈ bs, finite64 b = true) ∧
        execPencR rd bcast n addr s =
          .next (s.commitTorus rd ((spread bcast n bs).map (encReal s.cfg))) := by
  unfold execPencR
  rcases checked_outcome (s := s)
      (cs := [registerCheck s [rd], lengthCheck s n, addressCheck s addr (elementCount bcast n)])
      (perform := withReals s addr (elementCount bcast n) fun bs =>
        .next (s.commitTorus rd ((spread bcast n bs).map (encReal s.cfg))))
      (by simp [registerCheck, lengthCheck, addressCheck]) with h | ⟨hp, h⟩
  · exact .inl h
  · rw [h]
    rcases withReals_cases s addr (elementCount bcast n) fun bs =>
        .next (s.commitTorus rd ((spread bcast n bs).map (encReal s.cfg)))
      with h | h | ⟨bs, hbs, hlen, hfin, h⟩
    · exact .inr (.inl h)
    · exact .inl h
    · simp [registerCheck, lengthCheck, addressCheck] at hp
      exact .inr (.inr ⟨bs, hp.1, hp.2.1, hp.2.2, length_spread hlen, hbs, hfin, h⟩)

theorem execPencF_cases (rd k : Nat) (bcast : Bool) (n addr : Nat) (s : State) :
    RaisesError s (execPencF rd k bcast n addr s) ∨
      execPencF rd k bcast n addr s = .fault .unwrittenScratchpadRead ∨
      ∃ bs : List Word, rd < s.cfg.npreg ∧ k ≤ s.cfg.w ∧ n ≤ s.cfg.nmax ∧
        rangeOK s.rangeLo s.rangeHi = true ∧ addr + elementCount bcast n ≤ s.cfg.spadWords ∧
        (spread bcast n bs).length = n ∧
        readElements s.mem addr 1 (elementCount bcast n) = some (bs.map BitVec.toNat) ∧
        (∀ b ∈ bs, finite64 b = true) ∧
        execPencF rd k bcast n addr s = .next (s.commitTorus rd
          ((spread bcast n bs).map (encFloat s.cfg s.rangeLo s.rangeHi · k))) := by
  unfold execPencF
  rcases checked_outcome (s := s)
      (cs := [registerCheck s [rd], modulusCheck s k, lengthCheck s n, rangeCheck s,
        addressCheck s addr (elementCount bcast n)])
      (perform := withReals s addr (elementCount bcast n) fun bs =>
        .next (s.commitTorus rd ((spread bcast n bs).map (encFloat s.cfg s.rangeLo s.rangeHi · k))))
      (by simp [registerCheck, modulusCheck, lengthCheck, rangeCheck, addressCheck]) with h | ⟨hp, h⟩
  · exact .inl h
  · rw [h]
    rcases withReals_cases s addr (elementCount bcast n) fun bs =>
        .next (s.commitTorus rd ((spread bcast n bs).map (encFloat s.cfg s.rangeLo s.rangeHi · k)))
      with h | h | ⟨bs, hbs, hlen, hfin, h⟩
    · exact .inr (.inl h)
    · exact .inl h
    · simp [registerCheck, modulusCheck, lengthCheck, rangeCheck, addressCheck] at hp
      exact .inr (.inr ⟨bs, hp.1, hp.2.1, hp.2.2.1, hp.2.2.2.1, hp.2.2.2.2, length_spread hlen, hbs, hfin, h⟩)

theorem execPdecI_cases (rs1 k addr : Nat) (s : State) :
    RaisesError s (execPdecI rs1 k addr s) ∨
      (k ≤ s.cfg.w ∧ s.valid rs1 = true ∧ addr + s.len rs1 * s.cfg.ew ≤ s.cfg.spadWords ∧
        execPdecI rs1 k addr s =
          .next (s.commitSpad addr s.cfg.ew ((s.coeffs rs1).map (decInt s.cfg.w · k)))) := by
  unfold execPdecI
  rcases checked_outcome (s := s)
      (cs := [registerCheck s [rs1], modulusCheck s k, emptyCheck s [rs1],
        addressCheck s addr (s.len rs1 * s.cfg.ew)])
      (perform := .next (s.commitSpad addr s.cfg.ew ((s.coeffs rs1).map (decInt s.cfg.w · k))))
      (by simp [registerCheck, modulusCheck, emptyCheck, addressCheck]) with h | ⟨hp, h⟩
  · exact .inl h
  · simp [registerCheck, modulusCheck, emptyCheck, addressCheck] at hp
    exact .inr ⟨hp.2.1, hp.2.2.1, hp.2.2.2, h⟩

theorem execPdecR_cases (rs1 k addr : Nat) (s : State) :
    RaisesError s (execPdecR rs1 k addr s) ∨
      (k ≤ s.cfg.w ∧ s.valid rs1 = true ∧ addr + s.len rs1 ≤ s.cfg.spadWords ∧
        execPdecR rs1 k addr s = .next (s.commitSpad addr 1
          ((s.coeffs rs1).map fun c => (decReal s.cfg.w c k).toNat))) := by
  unfold execPdecR
  rcases checked_outcome (s := s)
      (cs := [registerCheck s [rs1], modulusCheck s k, emptyCheck s [rs1],
        addressCheck s addr (s.len rs1)])
      (perform := .next (s.commitSpad addr 1
        ((s.coeffs rs1).map fun c => (decReal s.cfg.w c k).toNat)))
      (by simp [registerCheck, modulusCheck, emptyCheck, addressCheck]) with h | ⟨hp, h⟩
  · exact .inl h
  · simp [registerCheck, modulusCheck, emptyCheck, addressCheck] at hp
    exact .inr ⟨hp.2.1, hp.2.2.1, hp.2.2.2, h⟩

theorem execPdecF_cases (rs1 k addr : Nat) (s : State) :
    RaisesError s (execPdecF rs1 k addr s) ∨
      (k ≤ s.cfg.w ∧ rangeOK s.rangeLo s.rangeHi = true ∧ s.valid rs1 = true ∧
        addr + s.len rs1 ≤ s.cfg.spadWords ∧
        execPdecF rs1 k addr s = .next (s.commitSpad addr 1
          ((s.coeffs rs1).map fun c => (decFloat s.cfg.w s.rangeLo s.rangeHi c k).toNat))) := by
  unfold execPdecF
  rcases checked_outcome (s := s)
      (cs := [registerCheck s [rs1], modulusCheck s k, rangeCheck s, emptyCheck s [rs1],
        addressCheck s addr (s.len rs1)])
      (perform := .next (s.commitSpad addr 1
        ((s.coeffs rs1).map fun c => (decFloat s.cfg.w s.rangeLo s.rangeHi c k).toNat)))
      (by simp [registerCheck, modulusCheck, rangeCheck, emptyCheck, addressCheck]) with h | ⟨hp, h⟩
  · exact .inl h
  · simp [registerCheck, modulusCheck, rangeCheck, emptyCheck, addressCheck] at hp
    exact .inr ⟨hp.2.1, hp.2.2.1, hp.2.2.2.1, hp.2.2.2.2, h⟩

/-- What exec can answer, said once for every command: an error, the fault of an unwritten read, a committed
register that exists, or committed scratchpad words that exist. -/
theorem exec_cases (i : Instr) (s : State) :
    RaisesError s (exec i s) ∨ exec i s = .fault .unwrittenScratchpadRead ∨
      (∃ rd cs, rd < s.cfg.npreg ∧ exec i s = .next (s.commitTorus rd cs)) ∨
      ∃ a size vs, a + vs.length * size ≤ s.cfg.spadWords ∧
        exec i s = .next (s.commitSpad a size vs) := by
  cases i with
  | pencI rd k bcast n addr =>
    rcases execPencI_cases rd k bcast n addr s with h | h | ⟨_, hrd, -, -, -, -, -, h⟩
    · exact .inl h
    · exact .inr (.inl h)
    · exact .inr (.inr (.inl ⟨_, _, hrd, h⟩))
  | pencR rd bcast n addr =>
    rcases execPencR_cases rd bcast n addr s with h | h | ⟨_, hrd, -, -, -, -, -, h⟩
    · exact .inl h
    · exact .inr (.inl h)
    · exact .inr (.inr (.inl ⟨_, _, hrd, h⟩))
  | pencF rd k bcast n addr =>
    rcases execPencF_cases rd k bcast n addr s with h | h | ⟨_, hrd, -, -, -, -, -, -, -, h⟩
    · exact .inl h
    · exact .inr (.inl h)
    · exact .inr (.inr (.inl ⟨_, _, hrd, h⟩))
  | pdecI rs1 k addr =>
    rcases execPdecI_cases rs1 k addr s with h | ⟨-, -, ha, h⟩
    · exact .inl h
    · exact .inr (.inr (.inr ⟨_, _, _, by simpa [State.len] using ha, h⟩))
  | pdecR rs1 k addr =>
    rcases execPdecR_cases rs1 k addr s with h | ⟨-, -, ha, h⟩
    · exact .inl h
    · exact .inr (.inr (.inr ⟨_, _, _, by simpa [State.len] using ha, h⟩))
  | pdecF rs1 k addr =>
    rcases execPdecF_cases rs1 k addr s with h | ⟨-, -, -, ha, h⟩
    · exact .inl h
    · exact .inr (.inr (.inr ⟨_, _, _, by simpa [State.len] using ha, h⟩))
  | tadd rd rs1 rs2 =>
    rcases execTadd_cases rd rs1 rs2 s with h | ⟨hrd, -, -, -, h⟩
    · exact .inl h
    · exact .inr (.inr (.inl ⟨_, _, hrd, h⟩))
  | tsub rd rs1 rs2 =>
    rcases execTsub_cases rd rs1 rs2 s with h | ⟨hrd, -, -, -, h⟩
    · exact .inl h
    · exact .inr (.inr (.inl ⟨_, _, hrd, h⟩))
  | tmul rd rs1 rs2 k =>
    rcases execTmul_cases rd rs1 rs2 k s with h | ⟨hrd, -, -, -, -, h⟩
    · exact .inl h
    · exact .inr (.inr (.inl ⟨_, _, hrd, h⟩))

end Sys2Proof.Machine
end

