-- ==== Sys2Proof/Laws/PerInstr.lean ====
section
/-! SUPPORT. The per-instruction family EncodedFields: in the word of a well-formed command, OP is the
command's and every reserved-zero field is 0 (30_encoding.md R47, R48). -/

namespace Sys2Proof.Laws.EncodedFields

/-- The OP column of 30_encoding.md R47. -/
def opcode : Instr → Nat
  | .pencI .. => 0x01
  | .pencR .. => 0x02
  | .pencF .. => 0x03
  | .pdecI .. => 0x05
  | .pdecR .. => 0x06
  | .pdecF .. => 0x07
  | .tadd .. => 0x08
  | .tsub .. => 0x09
  | .tmul .. => 0x0A

/-- The bits (hi, lo) of the fields marked 0 in 30_encoding.md R47. -/
def reserved : Instr → List (Nat × Nat)
  | .pencI .. => [(17, 12), (23, 18)]
  | .pencR .. => [(17, 12), (23, 18), (31, 24)]
  | .pencF .. => [(17, 12), (23, 18)]
  | .pdecI .. => [(11, 6), (23, 18), (32, 32), (48, 33)]
  | .pdecR .. => [(11, 6), (23, 18), (32, 32), (48, 33)]
  | .pdecF .. => [(11, 6), (23, 18), (32, 32), (48, 33)]
  | .tadd .. => [(31, 24), (32, 32), (48, 33), (63, 49)]
  | .tsub .. => [(31, 24), (32, 32), (48, 33), (63, 49)]
  | .tmul .. => [(32, 32), (48, 33), (63, 49)]

def Statement (i : Instr) : Prop :=
  i.wellFormed = true →
    opOf (encode i) = opcode i ∧ ∀ f ∈ reserved i, slice (encode i) f.1 f.2 = 0

theorem fit_penc {op rd k n addr : Nat} (bcast : Bool) (hop : op < 64) (hrd : rd ≤ 63) (hk : k ≤ 255)
    (hn : 1 ≤ n ∧ n ≤ 65536) (ha : addr ≤ 32767) :
    FieldsFit op rd 0 0 k bcast.toNat (n - 1) addr := by
  constructor <;> first | omega | exact Bool.toNat_lt bcast

theorem pencI (rd k : Nat) (bcast : Bool) (n addr : Nat) : Statement (.pencI rd k bcast n addr) := by
  intro h
  simp only [Instr.wellFormed, regEncodable, expEncodable, lenEncodable, addrEncodable,
    Bool.and_eq_true, decide_eq_true_eq] at h
  have hf := fit_penc (op := 0x01) bcast (by decide) h.1.1.1 h.1.1.2 h.1.2 h.2
  refine ⟨opOf_assemble hf, ?_⟩
  simp only [reserved, List.mem_cons, List.not_mem_nil, or_false, forall_eq_or_imp, forall_eq]
  exact ⟨rs1Of_assemble hf, rs2Of_assemble hf⟩

theorem pencR (rd : Nat) (bcast : Bool) (n addr : Nat) : Statement (.pencR rd bcast n addr) := by
  intro h
  simp only [Instr.wellFormed, regEncodable, lenEncodable, addrEncodable,
    Bool.and_eq_true, decide_eq_true_eq] at h
  have hf := fit_penc (op := 0x02) (k := 0) bcast (by decide) h.1.1 (by decide) h.1.2 h.2
  refine ⟨opOf_assemble hf, ?_⟩
  simp only [reserved, List.mem_cons, List.not_mem_nil, or_false, forall_eq_or_imp, forall_eq]
  exact ⟨rs1Of_assemble hf, rs2Of_assemble hf, kOf_assemble hf⟩

theorem pencF (rd k : Nat) (bcast : Bool) (n addr : Nat) : Statement (.pencF rd k bcast n addr) := by
  intro h
  simp only [Instr.wellFormed, regEncodable, expEncodable, lenEncodable, addrEncodable,
    Bool.and_eq_true, decide_eq_true_eq] at h
  have hf := fit_penc (op := 0x03) bcast (by decide) h.1.1.1 h.1.1.2 h.1.2 h.2
  refine ⟨opOf_assemble hf, ?_⟩
  simp only [reserved, List.mem_cons, List.not_mem_nil, or_false, forall_eq_or_imp, forall_eq]
  exact ⟨rs1Of_assemble hf, rs2Of_assemble hf⟩

theorem fit_pdec {op rs1 k addr : Nat} (hop : op < 64) (hrs : rs1 ≤ 63) (hk : k ≤ 255)
    (ha : addr ≤ 32767) : FieldsFit op 0 rs1 0 k 0 0 addr := by
  constructor <;> omega

theorem pdec {op rs1 k addr : Nat} (hf : FieldsFit op 0 rs1 0 k 0 0 addr) :
    opOf (assemble op 0 rs1 0 k 0 0 addr) = op ∧
      ∀ f ∈ [(11, 6), (23, 18), (32, 32), (48, 33)],
        slice (assemble op 0 rs1 0 k 0 0 addr) f.1 f.2 = 0 := by
  refine ⟨opOf_assemble hf, ?_⟩
  simp only [List.mem_cons, List.not_mem_nil, or_false, forall_eq_or_imp, forall_eq]
  exact ⟨rdOf_assemble hf, rs2Of_assemble hf, bOf_assemble hf, lenOf_assemble hf⟩

theorem pdecI (rs1 k addr : Nat) : Statement (.pdecI rs1 k addr) := by
  intro h
  simp only [Instr.wellFormed, regEncodable, expEncodable, addrEncodable, Bool.and_eq_true,
    decide_eq_true_eq] at h
  exact pdec (fit_pdec (by decide) h.1.1 h.1.2 h.2)

theorem pdecR (rs1 k addr : Nat) : Statement (.pdecR rs1 k addr) := by
  intro h
  simp only [Instr.wellFormed, regEncodable, expEncodable, addrEncodable, Bool.and_eq_true,
    decide_eq_true_eq] at h
  exact pdec (fit_pdec (by decide) h.1.1 h.1.2 h.2)

theorem pdecF (rs1 k addr : Nat) : Statement (.pdecF rs1 k addr) := by
  intro h
  simp only [Instr.wellFormed, regEncodable, expEncodable, addrEncodable, Bool.and_eq_true,
    decide_eq_true_eq] at h
  exact pdec (fit_pdec (by decide) h.1.1 h.1.2 h.2)

theorem fit_ring {op rd rs1 rs2 k : Nat} (hop : op < 64) (hrd : rd ≤ 63) (h1 : rs1 ≤ 63)
    (h2 : rs2 ≤ 63) (hk : k ≤ 255) : FieldsFit op rd rs1 rs2 k 0 0 0 := by
  constructor <;> omega

theorem ring {op rd rs1 rs2 k : Nat} (hf : FieldsFit op rd rs1 rs2 k 0 0 0) :
    opOf (assemble op rd rs1 rs2 k 0 0 0) = op ∧
      ∀ f ∈ [(32, 32), (48, 33), (63, 49)], slice (assemble op rd rs1 rs2 k 0 0 0) f.1 f.2 = 0 := by
  refine ⟨opOf_assemble hf, ?_⟩
  simp only [List.mem_cons, List.not_mem_nil, or_false, forall_eq_or_imp, forall_eq]
  exact ⟨bOf_assemble hf, lenOf_assemble hf, addrOf_assemble hf⟩

theorem tadd (rd rs1 rs2 : Nat) : Statement (.tadd rd rs1 rs2) := by
  intro h
  simp only [Instr.wellFormed, regEncodable, Bool.and_eq_true, decide_eq_true_eq] at h
  have hf := fit_ring (op := 0x08) (k := 0) (by decide) h.1.1 h.1.2 h.2 (by decide)
  exact ⟨(ring hf).1, List.forall_mem_cons.2 ⟨kOf_assemble hf, (ring hf).2⟩⟩

theorem tsub (rd rs1 rs2 : Nat) : Statement (.tsub rd rs1 rs2) := by
  intro h
  simp only [Instr.wellFormed, regEncodable, Bool.and_eq_true, decide_eq_true_eq] at h
  have hf := fit_ring (op := 0x09) (k := 0) (by decide) h.1.1 h.1.2 h.2 (by decide)
  exact ⟨(ring hf).1, List.forall_mem_cons.2 ⟨kOf_assemble hf, (ring hf).2⟩⟩

theorem tmul (rd rs1 rs2 k : Nat) : Statement (.tmul rd rs1 rs2 k) := by
  intro h
  simp only [Instr.wellFormed, regEncodable, expEncodable, Bool.and_eq_true, decide_eq_true_eq] at h
  exact ring (fit_ring (by decide) h.1.1.1 h.1.1.2 h.1.2 h.2)

end Sys2Proof.Laws.EncodedFields
end

