-- ==== Sys2Proof/Tests/Slice0.lean ====
section
/-! SUPPORT. Tests of the model against the vectors of spec/95_test_vectors.md, and for every statement with
hypotheses a witness that something meets them. `decide +kernel` stands where real arithmetic is evaluated:
Lean's rational operations are irreducible to its elaborator, and the kernel evaluates them. -/

namespace Sys2Proof.Tests

-- One proof after another: each `decide +kernel` waits for all that stands before it, and many waiting at
-- once would take a thread each.
set_option Elab.async false

open Sys2Proof.Machine Sys2Proof.Claims

/-! Small states. -/

/-- Scratchpad words from word address `a`. -/
def withWords (s : State) (a : Nat) (ws : List Nat) : State := { s with mem := writeElements s.mem a 1 ws }

/-- A torus register with coefficients. -/
def withT (s : State) (r : Nat) (cs : List Coeff) : State := withRegister s r cs

/-- A pending command word. -/
def withCmd (s : State) (c : Word) : State := s.accept c

/-- The range [-1.0, 1.0) of 95_test_vectors.md 2.5. -/
def withRange (s : State) : State := { s with rangeLo := 0xBFF0000000000000, rangeHi := 0x3FF0000000000000 }

/-- The default instance with W = 128. -/
def wide : Config := { Config.default with width := .w128 }

/-- The default instance with REAL_TIE = HALF_EVEN, and with FENC_QUANT = 1. -/
def even : Config := { Config.default with realTie := .halfEven }
def quant : Config := { Config.default with fencQuant := true }

/-- What a field of the next state is, none where there is no next state. -/
def after {α : Type} (o : Result) (f : State → α) : Option α :=
  match o with
  | .next t => some (f t)
  | .fault _ => none
  | .refused _ => none

/-- Two registers of unequal lengths, all else as after reset: a start like that of 95_test_vectors.md 2.9. -/
def two : State :=
  withT (withT (withWords State.reset 0 [1, 2, 3, 4]) 0
    [0x1000000000000000, 0x2000000000000000, 0x3000000000000000, 0x4000000000000000])
    1 [0x1000000000000000, 0x2000000000000000]

/-- The non-finite inputs of 95_test_vectors.md 2.9: NaN, 0.5 and +inf at words 100 to 102. -/
def reals : State := withWords State.reset 100 [0x7FF8000000000000, 0x3FE0000000000000, 0x7FF0000000000000]

/-! Well-formedness: an ill-formed command for each check (30_encoding.md R52). -/

theorem test_wellFormed : (Instr.pencI 63 255 true 65536 32767).wellFormed = true := by decide
theorem test_illFormed_register :
    (Instr.tadd 64 0 0).wellFormed = false ∧ (Instr.tsub 0 64 0).wellFormed = false ∧
      (Instr.tmul 0 0 64 0).wellFormed = false := by decide
theorem test_illFormed_exponent : (Instr.pdecI 0 256 0).wellFormed = false := by decide
theorem test_illFormed_length :
    (Instr.pencR 0 false 0 0).wellFormed = false ∧ (Instr.pencR 0 false 65537 0).wellFormed = false := by
  decide
theorem test_illFormed_address : (Instr.pencF 0 0 false 1 32768).wellFormed = false := by decide

/-! Decoding: a word of each command, from 95_test_vectors.md 2.1. -/

theorem test_decode_pencI : decode 0x0010000604000041 = .ok (.pencI 1 4 false 4 8) := by decide
theorem test_decode_pencI_b : decode 0x0004000303000041 = .ok (.pencI 1 3 true 2 2) := by decide
theorem test_decode_pencR : decode 0x0020000400000082 = .ok (.pencR 2 false 3 0x10) := by decide
theorem test_decode_pencF : decode 0x00400002080000C3 = .ok (.pencF 3 8 false 2 0x20) := by decide
theorem test_decode_pdecI : decode 0x0200000004002005 = .ok (.pdecI 2 4 0x100) := by decide
theorem test_decode_pdecR : decode 0x0200000002002006 = .ok (.pdecR 2 2 0x100) := by decide
theorem test_decode_pdecF : decode 0x0060000008003007 = .ok (.pdecF 3 8 0x30) := by decide
theorem test_decode_tadd : decode 0x0000000000040108 = .ok (.tadd 4 0 1) := by decide
theorem test_decode_tsub : decode 0x0000000000040149 = .ok (.tsub 5 0 1) := by decide
theorem test_decode_tmul : decode 0x000000000404008A = .ok (.tmul 2 0 1 4) := by decide
theorem test_decode_pseudo :
    decode 0x0000000080000001 = .ok (tld wide 0 1 0) ∧ decode 0x0008000080001005 = .ok (tst wide 1 4) := by
  decide
theorem test_encode :
    encode (.pencI 1 4 true 4 8) = 0x0010000704000041 ∧ encode (.pdecF 3 8 0x30) = 0x0060000008003007 ∧
      encode (.tmul 2 0 1 3) = 0x000000000304008A := by decide

/-- Reserved OP values and one nonzero reserved field of each kind (95_test_vectors.md 2.9). -/
theorem test_decode_refuses :
    decode 0 = .error (.reservedOp 0) ∧ decode 0x04 = .error (.reservedOp 4) ∧
      decode 0x3F = .error (.reservedOp 0x3F) ∧ decode 0x0000000041001081 = .error (.reservedField 1) ∧
      decode 0x0000000004000082 = .error (.reservedField 2) ∧
      decode 0x0200000204000005 = .error (.reservedField 5) ∧
      decode 0x0002000000000088 = .error (.reservedField 8) := by decide

theorem test_assembly :
    assembly (.pencI 1 4 true 4 8) = "penc.i.b t1, 4, 4, 8" ∧
      assembly (.tmul 2 0 1 4) = "tmul t2, t0, t1, 4" := by decide +kernel

/-- The host's two questions: a table word decodes, and the step after reset runs it. -/
theorem test_withFetchWord :
    decodeTableWord 64 0x000000000404008A = some (.tmul 2 0 1 4) ∧
      after (step (State.reset.withFetchWord 64 0x000000000404008A)) (fun t => t.status.ecode) =
        some .emptyRegister := by decide +kernel

/-! The commands (95_test_vectors.md 2.2 to 2.8, 2.11 and the programs of section 3). -/

theorem test_pencI :
    after (exec (.pencI 0 4 false 4 0) (withWords State.reset 0 [1, 2, 3, 20])) (fun t => t.coeffs 0) =
      some [0x1000000000000000, 0x2000000000000000, 0x3000000000000000, 0x4000000000000000] := by
  decide +kernel
theorem test_pencI_broadcast_at_the_top :
    after (exec (.pencI 2 4 true 4 16383) (withWords State.reset 16383 [9])) (fun t => t.coeffs 2) =
      some (List.replicate 4 0x9000000000000000) := by decide +kernel

theorem test_pencR_half_up :
    after (exec (.pencR 2 false 4 0x10)
        (withWords State.reset 0x10
          [0xBFD0000000000000, 0x3BE0000000000000, 0xBAF0000000000000, 0x3FB999999999999A]))
      (fun t => t.coeffs 2) = some [0xC000000000000000, 1, 0, 0x1999999999999A00] := by decide +kernel
theorem test_pencR_half_even :
    after (exec (.pencR 2 false 2 0x10)
        (withWords (State.resetOf even) 0x10 [0x3BE0000000000000, 0x3BF8000000000000]))
      (fun t => t.coeffs 2) = some [0, 2] := by decide +kernel

theorem test_pencF :
    after (exec (.pencF 3 8 false 3 0x20)
        (withRange (withWords State.reset 0x20
          [0x3FEFF7CED916872B, 0x4008000000000000, 0xBFEFF7CED916872B])))
      (fun t => t.coeffs 3) = some [0xFFDF3B645A1CAC00, 0, 0x0020C49BA5E35400] := by decide +kernel
theorem test_pencF_quantized :
    after (exec (.pencF 3 8 false 2 0x20)
        (withRange (withWords (State.resetOf quant) 0x20 [0x3FEFF7CED916872B, 0x3FE0000000000000])))
      (fun t => t.coeffs 3) = some [0, 0xC000000000000000] := by decide +kernel

theorem test_pdecI_rounds :
    after (exec (.pdecI 0 4 0x100)
        (withT State.reset 0 [0x0800000000000000, 0x07FFFFFFFFFFFFFF, 0xF800000000000000]))
      (fun t => readElements t.mem 0x100 1 3) = some (some [1, 0, 0]) := by decide +kernel
theorem test_pdecI_wide :
    after (exec (.pdecI 0 4 6) (withT (State.resetOf wide) 0 [2 ^ 127 + 5]))
      (fun t => (readWord t.mem 6, readWord t.mem 7)) = some (some 8, some 0) := by decide +kernel

theorem test_pdecR_wraps :
    after (exec (.pdecR 0 64 0)
        (withT State.reset 0 [0xFFFFFFFFFFFFFFFF, 0xFFFFFFFFFFFFFC00, 0xFFFFFFFFFFFFFBFF, 1]))
      (fun t => readElements t.mem 0 1 4) =
      some (some [0, 0, 0x3FEFFFFFFFFFFFFF, 0x3BF0000000000000]) := by decide +kernel

theorem test_pdecF_wraps :
    after (exec (.pdecF 0 64 0)
        (withRange (withT State.reset 0 [0xFFFFFFFFFFFFFFFF, 0x7FFFFFFFFFFFFFFF])))
      (fun t => readElements t.mem 0 1 2) = some (some [0xBFF0000000000000, 0xBC00000000000000]) := by
  decide +kernel

theorem test_tadd_wraps :
    after (exec (.tadd 1 0 1)
        (withT (withT State.reset 0 [0xFFFFFFFFFFFFFFFF, 0x8000000000000000]) 1 [1, 0xC000000000000000]))
      (fun t => t.coeffs 1) = some [0, 0x4000000000000000] := by decide +kernel
theorem test_tadd_wide :
    after (exec (.tadd 1 0 0) (withT (State.resetOf wide) 0 [2 ^ 127 + 5])) (fun t => t.coeffs 1) =
      some [10] := by decide +kernel

theorem test_tsub_wraps :
    after (exec (.tsub 0 0 1)
        (withT (withT State.reset 0 [0, 0x4000000000000000]) 1 [1, 0xE000000000000000]))
      (fun t => t.coeffs 0) = some [0xFFFFFFFFFFFFFFFF, 0x6000000000000000] := by decide +kernel

theorem test_tmul_same_register :
    after (exec (.tmul 0 0 0 4) (withT State.reset 0 [0x3000000000000000])) (fun t => t.coeffs 0) =
      some [0x9000000000000000] := by decide +kernel
theorem test_tmul_folds :
    after (exec (.tmul 2 0 1 64)
        (withT (withT State.reset 0 [0x8000000000000000, 1]) 1 [2, 0xFFFFFFFFFFFFFFFF]))
      (fun t => t.coeffs 2) = some [1, 0x8000000000000002] := by decide +kernel

theorem test_negaConv :
    negaConv [1, 2, 3, 4] [5, 6, 7, 8] 4 = [8, 12, 2, 12] ∧ negaConv [1, 2, 3] [4, 5, 6] 8 = [233, 251, 28] ∧
      negaConv [3, 5] [1, 1] 3 = [6, 0] := by decide +kernel

/-! Errors: the words and STATUS values of 95_test_vectors.md 2.9. -/

def statusAfter (s : State) (c : Word) : Option Word := after (execute (withCmd s c)) fun t => t.status.word

theorem test_errors :
    [(0x0000000000000000, 0x1006), (0x0000000004000401, 0x1106), (0x0000000000FC0088, 0x1106),
      (0x0000000041000081, 0x0106), (0x00000000FF00008A, 0x0106), (0x0000200004000081, 0x1306),
      (0x0000000008000083, 0x0306), (0x0000000004009005, 0x1206), (0x0000000000040088, 0x0206),
      (0x7FFA000604000081, 0x1406), (0x7FFA000004000005, 0x1406)].all
      (fun p : Nat × Nat => statusAfter two (BitVec.ofNat 64 p.1) == some (BitVec.ofNat 64 p.2)) = true := by
  decide +kernel

theorem test_error_priority :
    [(0x0000000041001081, 0x1006), (0x0000000000268088, 0x1106), (0x0000000000009088, 0x1206),
      (0x0000270E41000081, 0x0106)].all
      (fun p : Nat × Nat => statusAfter two (BitVec.ofNat 64 p.1) == some (BitVec.ofNat 64 p.2)) = true := by
  decide +kernel

theorem test_non_finite_inputs :
    statusAfter reals 0x00C80002000000C2 = some 0x1506 ∧ statusAfter reals 0x00CA0000000000C2 = some 0x2 ∧
      statusAfter reals 0x00CA000200000102 = some 0x1506 := by decide +kernel

/-- An encode that reads a word nothing has written stops (93_implementation_defined.md row 1). -/
theorem test_unwritten_read :
    after (exec (.pencI 0 4 false 1 0) State.reset) (fun _ => ()) = none := by decide

/-! The host interface (95_test_vectors.md 2.10). -/

theorem test_cap : capWord Config.default = 0x01003FFF0FFF1040 := by decide
theorem test_misaligned_and_reserved :
    after (hostAccess (readAt 0x00004) State.reset) (fun t => t.resp) = some (some .busError) ∧
      after (hostAccess (readAt 0x00030) State.reset) (fun t => t.resp) = some (some .busError) := by decide
theorem test_busy_accesses :
    after (hostAccess (readAt 0x40000) (withCmd two 8)) (fun t => (t.resp, t.status.word)) =
        some (some (.data 0), 0x10001) ∧
      after (hostAccess (writeAt 0x00008 9) (withCmd two 8)) (fun t => (t.cmd, t.status.word)) =
        some (8, 0x10001) := by decide
theorem test_soft_reset :
    after (hostAccess (writeAt 0x00018 3) (withCmd two 8)) (fun t => (t.cmd, t.status.word, t.valid 0)) =
      some (0, 0, false) := by decide
theorem test_spad_write :
    after (hostAccess (writeAt 0x40008 0x0123456789ABCDEF) State.reset)
      (fun t => (readByte t.mem 0x40008, readByte t.mem 0x4000F, readWord t.mem 1)) =
      some (some 0xEF, some 0x01, some 0x0123456789ABCDEF) := by decide

/-! Witnesses: for every statement with hypotheses, what meets them. -/

/-- An accepted state followed by the answer of a step. -/
theorem next_of_after {α : Type} {o : Result} {f : State → α} {a : α} (h : after o f = some a) :
    ∃ t, o = .next t ∧ f t = a := by
  cases o with
  | next t => exact ⟨t, rfl, Option.some.inj h⟩
  | fault _ => exact nomatch h
  | refused _ => exact nomatch h

theorem witness_DecodeAfterEncode : (Instr.pencF 63 255 true 65536 32767).wellFormed = true := by decide
theorem witness_EncodeAfterDecode : decode 0xFFFE000000002006 = .ok (.pdecR 2 0 32767) := by decide

/-- Each clause of DecodeReadsFields, with every used field at its largest value. -/
theorem witness_DecodeReadsFields :
    (0xFFFFFFFFFF000FC1 : Word) &&& 0x0000000000FFF03F = 0x01 ∧
    (0xFFFFFFFF00000FC2 : Word) &&& 0x00000000FFFFF03F = 0x02 ∧
    (0xFFFFFFFFFF000FC3 : Word) &&& 0x0000000000FFF03F = 0x03 ∧
    (0xFFFE0000FF03F005 : Word) &&& 0x0001FFFF00FC0FFF = 0x05 ∧
    (0xFFFE0000FF03F006 : Word) &&& 0x0001FFFF00FC0FFF = 0x06 ∧
    (0xFFFE0000FF03F007 : Word) &&& 0x0001FFFF00FC0FFF = 0x07 ∧
    (0x0000000000FFFFC8 : Word) &&& 0xFFFFFFFFFF00003F = 0x08 ∧
    (0x0000000000FFFFC9 : Word) &&& 0xFFFFFFFFFF00003F = 0x09 ∧
    (0x00000000FFFFFFCA : Word) &&& 0xFFFFFFFF0000003F = 0x0A := by decide

theorem witness_ReservedOpIsIllegal :
    ((0x40 : Word).extractLsb 5 0).toNat = 0x00 ∧ ((0xFFFFFFFFFFFFFFC4 : Word).extractLsb 5 0).toNat = 0x04 ∧
    0x0B ≤ ((0x0B : Word).extractLsb 5 0).toNat ∧ 0x0B ≤ ((0x3F : Word).extractLsb 5 0).toNat ∧
    State.reset.cmd = 0 := by decide

/-- A word for each row of NonzeroReservedFieldIsIllegal. -/
theorem witness_NonzeroReservedFieldIsIllegal :
    (((0x0000000041001081 : Word).extractLsb 5 0).toNat = 0x01 ∧ (0x0000000041001081 : Word).extractLsb 17 12 ≠ 0) ∧
    (((0x0000000004000082 : Word).extractLsb 5 0).toNat = 0x02 ∧ (0x0000000004000082 : Word).extractLsb 31 24 ≠ 0) ∧
    (((0x0000000000040003 : Word).extractLsb 5 0).toNat = 0x03 ∧ (0x0000000000040003 : Word).extractLsb 23 18 ≠ 0) ∧
    (((0x0200000204000005 : Word).extractLsb 5 0).toNat = 0x05 ∧ (0x0200000204000005 : Word).extractLsb 48 33 ≠ 0) ∧
    (((0x0000000000000046 : Word).extractLsb 5 0).toNat = 0x06 ∧ (0x0000000000000046 : Word).extractLsb 11 6 ≠ 0) ∧
    (((0x0000000100000007 : Word).extractLsb 5 0).toNat = 0x07 ∧ (0x0000000100000007 : Word).getLsbD 32 = true) ∧
    (((0x0002000000000088 : Word).extractLsb 5 0).toNat = 0x08 ∧ (0x0002000000000088 : Word).extractLsb 63 49 ≠ 0) ∧
    (((0x0000000001000009 : Word).extractLsb 5 0).toNat = 0x09 ∧ (0x0000000001000009 : Word).extractLsb 31 24 ≠ 0) ∧
    (((0x800000000000000A : Word).extractLsb 5 0).toNat = 0x0A ∧ (0x800000000000000A : Word).extractLsb 63 49 ≠ 0) := by
  decide

theorem witness_StepRunsDecodedCommand :
    (withCmd two 0x0200000004000005).status.busy = true ∧ (withCmd two 0x0200000004000005).rst = false ∧
      decode (withCmd two 0x0200000004000005).cmd = .ok (.pdecI 0 4 0x100) := by decide

/-- An IDLE state with a CMD write and the core's turn queued. -/
def issuing : State := { two with events := .host (writeAt 0x00008 0x0200000004000005) :: .core :: [] }

theorem witness_IssuedCommandRuns :
    issuing.status.busy = false ∧ issuing.rst = false ∧
      issuing.events = .host (writeAt 0x00008 0x0200000004000005) :: .core :: [] ∧
      decode 0x0200000004000005 = .ok (.pdecI 0 4 0x100) ∧ ∃ t, step issuing = .next t :=
  ⟨by decide, by decide, rfl, by decide, (next_of_after (f := fun t => t.status.busy) (a := true) (by decide +kernel)).imp fun _ h => h.1⟩

theorem witness_StepTakesTurnsInOrder : two.status.busy = false ∧ two.events = [] := by decide

theorem witness_ExecuteEndsTheCommand :
    (decode (withCmd two 0x0200000004000005).cmd = .ok (.pdecI 0 4 0x100) ∧ 1 ∉ destinations (.pdecI 0 4 0x100) ∧
      (∀ p ∈ wordsStored (withCmd two 0x0200000004000005) (.pdecI 0 4 0x100),
        spadOffset 0x104 < spadOffset p.1 ∨ spadOffset (p.1 + p.2) ≤ spadOffset 0x104) ∧
      ∃ t, execute (withCmd two 0x0200000004000005) = .next t ∧ t.status.err = false) ∧
    (∃ t, execute (withCmd two 0x0000000000040088) = .next t ∧ t.status.err = true) ∧
    decode (withCmd two 0x04).cmd = .error (.reservedOp 4) ∧
      ∃ t, execute (withCmd two 0x04) = .next t ∧ t.status.err = true :=
  ⟨⟨by decide, by decide, by decide +kernel, next_of_after (by decide +kernel)⟩,
    next_of_after (by decide +kernel), by decide, next_of_after (by decide +kernel)⟩

/-! The command results. -/

/-- The last scratchpad word written, for a broadcast from it. -/
def top : State := withWords State.reset 16383 [9]

theorem witness_PencIResult :
    15 < top.cfg.npreg ∧ 64 ≤ top.cfg.w ∧ 4096 ≤ top.cfg.nmax ∧
    16383 + (if true then 1 else 4096) * top.cfg.ew ≤ top.cfg.spadWords ∧
    (∀ j, j < (if true then 1 else 4096) →
      spadRead top.mem (16383 + j * top.cfg.ew) top.cfg.ew = some ((fun _ => 9) j)) := by decide +kernel

theorem witness_PencIResult_sequence :
    0 < two.cfg.npreg ∧ 0 ≤ two.cfg.w ∧ 4 ≤ two.cfg.nmax ∧
    0 + (if false then 1 else 4) * two.cfg.ew ≤ two.cfg.spadWords ∧
    (∀ j, j < (if false then 1 else 4) →
      spadRead two.mem (0 + j * two.cfg.ew) two.cfg.ew = some ((fun j => j + 1) j)) := by decide +kernel

theorem witness_PencRResult :
    3 < reals.cfg.npreg ∧ 1 ≤ reals.cfg.nmax ∧ 101 + (if false then 1 else 1) ≤ reals.cfg.spadWords ∧
    (∀ j, j < (if false then 1 else 1) →
      readWord reals.mem (101 + j) = some ((fun _ => (0x3FE0000000000000 : Word)) j).toNat ∧
        finite64 ((fun _ => (0x3FE0000000000000 : Word)) j) = true) := by decide +kernel

theorem witness_PencFResult :
    0 < (withRange reals).cfg.npreg ∧ 0 ≤ (withRange reals).cfg.w ∧ 1 ≤ (withRange reals).cfg.nmax ∧
    finite64 (withRange reals).rangeLo = true ∧ finite64 (withRange reals).rangeHi = true ∧
    val64 (withRange reals).rangeLo < val64 (withRange reals).rangeHi ∧
    101 + (if true then 1 else 1) ≤ (withRange reals).cfg.spadWords ∧
    (∀ j, j < (if true then 1 else 1) →
      readWord (withRange reals).mem (101 + j) = some ((fun _ => (0x3FE0000000000000 : Word)) j).toNat ∧
        finite64 ((fun _ => (0x3FE0000000000000 : Word)) j) = true) := by decide +kernel

/-- The largest address that fits, with T0 of two[0]. -/
theorem witness_PdecResults :
    1 < (withRange two).cfg.npreg ∧ 64 ≤ (withRange two).cfg.w ∧
    finite64 (withRange two).rangeLo = true ∧ finite64 (withRange two).rangeHi = true ∧
    val64 (withRange two).rangeLo < val64 (withRange two).rangeHi ∧
    (withRange two).torus 1 = some ⟨[0x1000000000000000, 0x2000000000000000]⟩ ∧
    16382 + [0x1000000000000000, 0x2000000000000000].length * (withRange two).cfg.ew
      ≤ (withRange two).cfg.spadWords ∧
    16382 + [0x1000000000000000, 0x2000000000000000].length ≤ (withRange two).cfg.spadWords := by
  decide +kernel

theorem witness_RingResults :
    1 < two.cfg.npreg ∧ 64 ≤ two.cfg.w ∧
    two.torus 1 = some ⟨[0x1000000000000000, 0x2000000000000000]⟩ ∧
    ([0x1000000000000000, 0x2000000000000000] : List Coeff).length =
      ([0x1000000000000000, 0x2000000000000000] : List Coeff).length := by decide

/-! The checks. -/

theorem witness_ErrorsInCheckOrder_decode :
    decode (withCmd two 0x04).cmd = .error (.reservedOp 4) ∧
      decode (withCmd two 0x0000000004009005).cmd = .ok (.pdecI 9 4 0) := by decide

/-- For each check, a command that passes the earlier ones and fails it (95_test_vectors.md 2.9). -/
theorem witness_ErrorsInCheckOrder_2 : ¬RegistersExist two (.tadd 2 0 63) := by
  unfold RegistersExist; decide
theorem witness_ErrorsInCheckOrder_3 :
    RegistersExist two (.pencI 2 65 false 5000 0) ∧ ¬ModulusLegal two (.pencI 2 65 false 5000 0) := by
  unfold RegistersExist ModulusLegal; decide
theorem witness_ErrorsInCheckOrder_4 :
    RegistersExist two (.pencF 2 64 false 4097 0) ∧ ModulusLegal two (.pencF 2 64 false 4097 0) ∧
      ¬LengthFits two (.pencF 2 64 false 4097 0) := by
  unfold RegistersExist ModulusLegal LengthFits; decide
theorem witness_ErrorsInCheckOrder_5 :
    RegistersExist two (.pdecF 9 64 0) ∧ ModulusLegal two (.pdecF 9 64 0) ∧ LengthFits two (.pdecF 9 64 0) ∧
      ¬RangeLegal two (.pdecF 9 64 0) := by
  unfold RegistersExist ModulusLegal LengthFits RangeLegal; decide +kernel
theorem witness_ErrorsInCheckOrder_6 :
    RegistersExist two (.tadd 2 9 0) ∧ ModulusLegal two (.tadd 2 9 0) ∧ LengthFits two (.tadd 2 9 0) ∧
      RangeLegal two (.tadd 2 9 0) ∧ ¬SourcesValid two (.tadd 2 9 0) := by
  unfold RegistersExist ModulusLegal LengthFits RangeLegal SourcesValid; decide +kernel
theorem witness_ErrorsInCheckOrder_7 :
    RegistersExist two (.tmul 2 0 1 4) ∧ ModulusLegal two (.tmul 2 0 1 4) ∧ LengthFits two (.tmul 2 0 1 4) ∧
      RangeLegal two (.tmul 2 0 1 4) ∧ SourcesValid two (.tmul 2 0 1 4) ∧ ¬SizesMatch two (.tmul 2 0 1 4) := by
  unfold RegistersExist ModulusLegal LengthFits RangeLegal SourcesValid SizesMatch; decide +kernel
theorem witness_ErrorsInCheckOrder_8 :
    RegistersExist two (.pdecI 0 4 16381) ∧ ModulusLegal two (.pdecI 0 4 16381) ∧
      LengthFits two (.pdecI 0 4 16381) ∧ RangeLegal two (.pdecI 0 4 16381) ∧
      SourcesValid two (.pdecI 0 4 16381) ∧ SizesMatch two (.pdecI 0 4 16381) ∧
      ¬AddressFits two (.pdecI 0 4 16381) := by
  unfold RegistersExist ModulusLegal LengthFits RangeLegal SourcesValid SizesMatch AddressFits
  decide +kernel

/-- The same clauses for an encode whose broadcast reads past the end, and at the boundary address. -/
theorem witness_ErrorsInCheckOrder_8_boundary :
    ¬AddressFits two (.pencI 2 4 false 4 16381) ∧ AddressFits two (.pencI 2 4 false 4 16380) ∧
      AddressFits two (.pencI 2 4 true 4 16383) ∧ ¬AddressFits two (.pencI 2 4 true 4 16384) := by
  unfold AddressFits; decide

theorem witness_ErrorsInCheckOrder_9 :
    EarlierChecksPass reals (.pencR 4 false 2 101) ∧ InputsWritten reals (.pencR 4 false 2 101) ∧
      ¬InputsFinite reals (.pencR 4 false 2 101) := by
  refine ⟨?_, ?_, fun h => absurd (h rfl (101, 2) (by decide) 1 (by decide) 0x7FF0000000000000
    (by decide +kernel)) (by decide)⟩
  · unfold EarlierChecksPass RegistersExist ModulusLegal LengthFits RangeLegal SourcesValid SizesMatch
      AddressFits
    decide +kernel
  · unfold InputsWritten; decide +kernel

theorem witness_NoErrorWithoutCause :
    EarlierChecksPass reals (.pencR 3 false 1 101) ∧ InputsWritten reals (.pencR 3 false 1 101) ∧
      InputsFinite reals (.pencR 3 false 1 101) := by
  refine ⟨?_, ?_, fun _ p hp j hj v hv => ?_⟩
  · unfold EarlierChecksPass RegistersExist ModulusLegal LengthFits RangeLegal SourcesValid SizesMatch
      AddressFits
    decide +kernel
  · unfold InputsWritten; decide +kernel
  · have hread : readWord reals.mem 101 = some 0x3FE0000000000000 := by decide +kernel
    rw [List.mem_singleton.1 hp] at hj hv
    rw [Nat.lt_one_iff.1 hj] at hv
    cases hread.symm.trans hv
    decide

theorem witness_OnlyUnwrittenReadsFault :
    EarlierChecksPass reals (.pencI 3 4 false 1 0) ∧ ¬InputsWritten reals (.pencI 3 4 false 1 0) ∧
      exec (.pencI 3 4 false 1 0) reals = .fault .unwrittenScratchpadRead := by
  refine ⟨?_, ?_, rfl⟩
  · unfold EarlierChecksPass RegistersExist ModulusLegal LengthFits RangeLegal SourcesValid SizesMatch
      AddressFits
    decide +kernel
  · unfold InputsWritten; decide +kernel

theorem witness_ErrorChangesOnlyStatus :
    ∃ t, execute (withCmd two 0x0000000000040088) = .next t ∧ (t.status.err, t.rst) = (true, false) :=
  next_of_after (by decide +kernel)

/-! Frames. -/

theorem witness_RegisterCommandsFrame :
    (∃ t, exec (.pencI 1 4 false 4 0) two = .next t ∧ t.status.err = false) ∧
    (∃ t, exec (.pencR 1 false 1 101) reals = .next t ∧ t.status.err = false) ∧
    (∃ t, exec (.pencF 1 8 false 1 101) (withRange reals) = .next t ∧ t.status.err = false) ∧
    (∃ t, exec (.tadd 2 0 0) two = .next t ∧ t.status.err = false) ∧
    (∃ t, exec (.tsub 2 1 1) two = .next t ∧ t.status.err = false) ∧
    ∃ t, exec (.tmul 0 0 0 4) two = .next t ∧ t.status.err = false := by
  refine ⟨?_, ?_, ?_, ?_, ?_, ?_⟩ <;> exact next_of_after (by decide +kernel)

theorem witness_DecodeCommandsFrame :
    (∃ t, exec (.pdecI 0 4 16380) two = .next t ∧ t.status.err = false) ∧
    (∃ t, exec (.pdecR 0 4 0) two = .next t ∧ t.status.err = false) ∧
    ∃ t, exec (.pdecF 0 4 0) (withRange two) = .next t ∧ t.status.err = false := by
  refine ⟨?_, ?_, ?_⟩ <;> exact next_of_after (by decide +kernel)

/-! The host's accesses. -/

/-- The hypotheses of CmdWriteAccepts, RangeRegisters and ScratchpadWriteAndRead (at the last word), and of
ReadOnlyRegisters, CtrlActions (each of its writes), SoftResetDiscardsPending, CapFields and StatusFields. -/
theorem witness_host_accesses :
    two.rst = false ∧ two.status.busy = false ∧ 16383 < two.cfg.spadWords ∧
    (3 : Word).getLsbD 0 = true ∧ ((2 : Word).getLsbD 0 = false ∧ (2 : Word).getLsbD 1 = true) ∧
    ((0xFFFFFFFFFFFFFFFC : Word).getLsbD 0 = false ∧ (0xFFFFFFFFFFFFFFFC : Word).getLsbD 1 = false) := by
  decide

theorem witness_AccessesWhileBusy :
    (withCmd two 8).rst = false ∧ (withCmd two 8).status.busy = true ∧ 16383 < (withCmd two 8).cfg.spadWords ∧
    ∃ t, hostAccess (writeAt 0x40000 7) (withCmd two 8) = .next t ∧ t.status.busy = true :=
  ⟨by decide, by decide, by decide, next_of_after (by decide +kernel)⟩

theorem witness_HardReset : (two.setRst true).rst = true := by decide

/-- A narrow access, a partly strobed one, a misaligned and a reserved offset, the first offset past the last
scratchpad word, and that word itself. -/
theorem witness_BusErrors :
    ¬({ kind := .read, offset := 0, width := 32, strobe := 0xFF } : Access).width = 64 ∧
    ¬({ kind := .write 0, offset := 0, width := 64, strobe := 0x0F } : Access).strobe = 0xFF ∧
    ¬Mapped two.cfg 0x00004 ∧ ¬Mapped two.cfg 0x00030 ∧ ¬Mapped two.cfg 0x3FFF8 ∧
    ¬Mapped two.cfg (0x40000 + 8 * 16384) ∧ Mapped two.cfg (0x40000 + 8 * 16383) ∧ Mapped two.cfg 0x00028 ∧
    ∃ t, hostAccess (readAt 0x00000) two = .next t ∧ t.status.busy = false := by
  refine ⟨by decide, by decide, ?_, ?_, ?_, ?_, ?_, ?_, next_of_after (by decide)⟩ <;>
    unfold Mapped <;> decide

theorem witness_SpadReadIsTheSum :
    ∀ w, w < 2 → readWord two.mem (1 + w) = some ((fun w => w + 2) w) := by decide +kernel

theorem witness_ReadsHaveNoSideEffect :
    (readAt 0x40000).kind = .read ∧
    (∃ t, hostAccess (readAt 0x40000) two = .next t ∧ t.resp = some (.data 1)) ∧
    (readAt (0x40000 + 8 * 16383)).kind = .read ∧
    ∃ t, hostAccess (readAt (0x40000 + 8 * 16383)) (withCmd two 8) = .next t ∧ t.status.haz = true :=
  ⟨rfl, next_of_after (by decide +kernel), rfl, next_of_after (by decide +kernel)⟩

/-! Whole-machine rules. -/

theorem witness_OnlyResetClearsValid :
    (two.torus 0).isSome = true ∧
    ∃ t, step { two with events := [.host (writeAt 0x00018 1)] } = .next t ∧ (t.torus 0).isSome = false :=
  ⟨by decide, next_of_after (by decide +kernel)⟩

theorem witness_CmdChangesOnlyOnAccept :
    (∃ t, step issuing = .next t ∧ t.cmd = 0x0200000004000005) ∧ issuing.cmd = 0 ∧
    (∃ t, step { withCmd two 8 with events := [.rst true] } = .next t ∧ t.cmd = 0) ∧
      (withCmd two 8).cmd = 8 :=
  ⟨next_of_after (by decide +kernel), by decide, next_of_after (by decide +kernel), by decide⟩

theorem witness_HazIsSticky :
    (withHaz two).status.haz = true ∧
    (∃ t, step { withHaz two with events := [.host (writeAt 0x00018 2)] } = .next t ∧ t.status.haz = false) ∧
    two.status.haz = false ∧
    ∃ t, step { withCmd two 8 with events := [.host (writeAt 0x40000 2)] } = .next t ∧ t.status.haz = true :=
  ⟨by decide, next_of_after (by decide +kernel), by decide, next_of_after (by decide +kernel)⟩

theorem witness_StepKeepsConfiguration : ∃ t, step issuing = .next t ∧ t.status.busy = true :=
  next_of_after (by decide +kernel)

theorem witness_MulImplNotObservable :
    (∃ t, exec (.tmul 2 0 0 4) two = .next t ∧ t.status.err = false) ∧
      exec (.pencI 3 4 false 1 0) State.reset = .fault .unwrittenScratchpadRead :=
  ⟨next_of_after (by decide +kernel), rfl⟩

theorem witness_StepKeepsMemoryCanonical :
    Memory.wf two.mem = true ∧
      ∃ t, step { withCmd two 0x0200000004000005 with events := [.core] } = .next t ∧
        (readWord t.mem 0x100).isSome = true :=
  ⟨by decide +kernel, next_of_after (by decide +kernel)⟩

/-- A state that is not the reset state and has the invariant: a written word, a valid register and a pending
command, with its Execute as the step. -/
def working : State := withCmd (withT { State.reset with mem := writeWord [] 5 7 } 15 [2 ^ 64 - 1]) 0x0200000004000005

theorem witness_StepKeepsInvariant :
    working.Inv ∧ ∃ t, step { working with events := [.core] } = .next t ∧ t.status.done = true := by
  refine ⟨⟨by decide +kernel, fun c hc => ?_, Memory.wholeWords_writeWord (fun _ _ _ => rfl) 5 7,
    fun r hr => ?_, fun r p hp => ?_, by decide, by decide⟩, next_of_after (by decide +kernel)⟩
  · exact (by decide +kernel : ∀ c ∈ working.mem, spadOffset 0 ≤ c.1 ∧ c.1 < spadOffset working.cfg.spadWords)
      c hc
  · rcases Nat.lt_or_ge r 64 with h | h
    · exact (by decide +kernel : ∀ r < 64, 16 ≤ r → working.torus r = none) r h hr
    · exact working.torus_eq_none_of_le h
  · have hr : r < 64 := by
      by_contra h
      exact nomatch (working.torus_eq_none_of_le (not_lt.1 h)).symm.trans hp
    have hall : ∀ r < 64, ∀ p ∈ working.torus r, p = ⟨[2 ^ 64 - 1]⟩ := by decide +kernel
    rw [hall r hr p hp]
    unfold TorusPoly.Legal
    decide +kernel

/-! Laws of the values. -/

theorem witness_IntegerRoundTrip : 64 ≤ Config.default.w ∧ 2 ^ 64 - 1 < 2 ^ 64 := by decide

/-- At W = 128, a raw word in the last two scratchpad words and in T15. -/
def wideTop : State := withT (withWords (State.resetOf wide) 16382 [5, 2 ^ 63]) 15 [2 ^ 127 + 5]

/-- The four parts of RawPassThrough at W = 128: two words as one element, at the top of the scratchpad. -/
theorem witness_RawPassThrough :
    2 ^ 128 - 1 < 2 ^ wide.w ∧
    (15 < wideTop.cfg.npreg ∧ 1 ≤ wideTop.cfg.nmax ∧ 16382 + 1 * wideTop.cfg.ew ≤ wideTop.cfg.spadWords ∧
      readElements wideTop.mem 16382 wideTop.cfg.ew 1 = some [2 ^ 127 + 5]) ∧
    15 < wideTop.cfg.npreg ∧ wideTop.torus 15 = some ⟨[2 ^ 127 + 5]⟩ ∧
    (∀ c ∈ [2 ^ 127 + 5], c < 2 ^ wideTop.cfg.w) ∧
    16382 + [2 ^ 127 + 5].length * wideTop.cfg.ew ≤ wideTop.cfg.spadWords := by
  decide +kernel

/-- Also of RawRingLaws. -/
theorem witness_EncIntReducesInput : 128 ≤ wide.w ∧ 0 ≤ wide.w := by decide

/-- DecIntByShift: a carry out of the top, a tie, and p = 1 (95_test_vectors.md 2.2). -/
theorem witness_DecIntByShift :
    0xF800000000000000 < 2 ^ Config.default.w ∧ 4 < Config.default.w ∧
    2 ^ Config.default.w - 2 ^ (Config.default.w - 4 - 1) ≤ 0xF800000000000000 ∧
    0 + 1 < 2 ^ 4 ∧ 0x0800000000000000 = 0 * 2 ^ (Config.default.w - 4) + 2 ^ (Config.default.w - 4 - 1) := by
  decide

/-- RneIsNearestEven: a value below the largest finite one, and a tie, 1 + 2^-53, whose two neighbours are 1.0
and 1 + 2^-52. -/
theorem witness_RneIsNearestEven :
    finite64 0x3FF0000000000001 = true ∧ |(1 : Rat) + 1 / 2 ^ 53| ≤ val64 0x7FEFFFFFFFFFFFFF ∧
    |val64 (rne64 (1 + 1 / 2 ^ 53)) - (1 + 1 / 2 ^ 53)| = |val64 0x3FF0000000000001 - (1 + 1 / 2 ^ 53)| ∧
    val64 0x3FF0000000000001 ≠ val64 (rne64 (1 + 1 / 2 ^ 53)) := by decide +kernel

theorem witness_DecRealInUnitInterval : 64 ≤ Config.default.w := by decide

theorem witness_DecFloatInRange :
    64 ≤ Config.default.w ∧ rangeOK 0xBFF0000000000000 0x3FF0000000000000 = true := by decide +kernel

/-- RealRoundTrip: 0.999999, and 0.75 for the exact part. -/
theorem witness_RealRoundTrip :
    finite64 0x3FEFFFFDE7210BE9 = true ∧ 0 ≤ val64 0x3FEFFFFDE7210BE9 ∧ val64 0x3FEFFFFDE7210BE9 < 1 ∧
    64 ≤ Config.default.w ∧ val64 0x3FE8000000000000 = (3 : Int) / 2 ^ 2 := by decide +kernel

theorem witness_BatchEncodeMatchesScalar :
    3 < 4 ∧
    (∃ t, exec (.pencI 1 4 false 4 0) two = .next t ∧ t.status.err = false) ∧
    (∃ t, exec (.pencR 1 false 1 101) reals = .next t ∧ t.status.err = false) ∧
    (∃ t, exec (.pencF 1 8 false 1 101) (withRange reals) = .next t ∧ t.status.err = false) ∧
    (∃ t, exec (.pencI 1 4 true 4096 3) two = .next t ∧ t.status.err = false) ∧
    (∃ t, exec (.pencR 1 true 2 101) reals = .next t ∧ t.status.err = false) ∧
    ∃ t, exec (.pencF 1 8 true 2 101) (withRange reals) = .next t ∧ t.status.err = false := by
  refine ⟨by decide, ?_, ?_, ?_, ?_, ?_, ?_⟩ <;> exact next_of_after (by decide +kernel)

theorem witness_NegaConvFoldsConvolution :
    ([1, 2, 3] : List Nat).length = ([4, 5, 6] : List Nat).length ∧ 2 < ([1, 2, 3] : List Nat).length := by
  decide

theorem witness_DecodedSumIsClose : 2 ^ 64 - 1 < 2 ^ Config.default.w ∧ 53 ≤ 53 := by decide

end Sys2Proof.Tests
end

section
/-! Proofs of the statements on SpadRead and RNE64 (00_scope.md R10 to R12). -/

namespace Sys2Proof.Machine

/-! SpadRead (00_scope.md R12, 20_memory.md R33) -/

/-- `spadRead` of written words is their weighted sum: that over `n + 1` words is the first word plus 2^64 times
the sum over the words after it. -/
theorem spadRead_eq_sum {m : Memory} {n : Nat} :
    ∀ {a : Nat} {x : Nat → Nat}, (∀ w, w < n → readWord m (a + w) = some (x w)) →
      spadRead m a n = some (∑ w ∈ Finset.range n, x w * 2 ^ (64 * w)) := by
  induction n with
  | zero => intro a x _; simp [spadRead]
  | succ n ih =>
    intro a x h
    have hfirst : readWord m a = some (x 0) := h 0 (by omega)
    have hrest : spadRead m (a + 1) n = some (∑ w ∈ Finset.range n, x (w + 1) * 2 ^ (64 * w)) :=
      ih fun w hw => by
        rw [show a + 1 + w = a + (w + 1) by omega]
        exact h (w + 1) (by omega)
    have hsum : ∑ w ∈ Finset.range (n + 1), x w * 2 ^ (64 * w) =
        x 0 + 2 ^ 64 * ∑ w ∈ Finset.range n, x (w + 1) * 2 ^ (64 * w) := by
      rw [Finset.sum_range_succ', Finset.mul_sum, add_comm]
      simp only [Nat.mul_zero, pow_zero, Nat.mul_one, Nat.mul_succ, pow_add]
      congr 1
      exact Finset.sum_congr rfl fun w _ => by ring
    simp only [spadRead, hfirst, hrest, hsum]

/-! Rounding half to even: nearest integer, and even at a tie (00_scope.md R10) -/

/-- An integer other than `rhe x` is at least one half away from x. -/
theorem half_le_of_ne_rhe {x : Rat} {c : Int} (hc : c ≠ rhe x) : 1 / 2 ≤ |(c : Rat) - x| := by
  have hnear := rhe_near x
  have hone : (1 : Rat) ≤ |(c : Rat) - rhe x| := by exact_mod_cast Int.one_le_abs (sub_ne_zero.2 hc)
  have htri := abs_sub_le (c : Rat) x (rhe x)
  rw [abs_sub_comm x] at htri
  linarith

theorem rhe_nearest (x : Rat) (c : Int) : |(rhe x : Rat) - x| ≤ |(c : Rat) - x| := by
  by_cases hc : c = rhe x
  · rw [hc]
  · exact (rhe_near x).trans (half_le_of_ne_rhe hc)

theorem rhe_even_of_half {x : Rat} (h : |(rhe x : Rat) - x| = 1 / 2) : rhe x % 2 = 0 := by
  have hx := floor_add_frac x
  have h0 := frac_nonneg x
  have h1 := frac_lt_one x
  unfold rhe at h ⊢
  split_ifs at h ⊢ with hlt hgt heven
  · rw [abs_of_nonpos (by linarith)] at h
    linarith
  · push_cast at h
    rw [abs_of_nonneg (by linarith)] at h
    linarith
  · exact heven
  · omega

theorem rhe_even_of_tie {x : Rat} {c : Int} (hc : c ≠ rhe x) (h : |(rhe x : Rat) - x| = |(c : Rat) - x|) :
    rhe x % 2 = 0 :=
  rhe_even_of_half (le_antisymm (rhe_near x) (h ▸ half_le_of_ne_rhe hc))

/-! The values near x: a finite value is a multiple of the spacing in x's binade, or below that binade -/

/-- A signed magnitude of a finite pattern is a multiple of `2^sh`, or lies below the binade of `sh`. -/
theorem signed_magnitude_grid {b : Word} (hb : finite64 b = true) {z : Int} (hz : z.natAbs = magnitudeOf b)
    (sh : Nat) : (∃ c : Int, z = c * 2 ^ sh) ∨ sh ≠ 0 ∧ z < 2 ^ 52 * 2 ^ sh := by
  obtain ⟨e, m, hmag, hm, -, -⟩ := magnitudeOf_form hb
  by_cases hle : sh ≤ e
  · left
    have hdvd : 2 ^ sh ∣ z.natAbs := by
      rw [hz, hmag]
      exact Dvd.dvd.mul_left (Nat.pow_dvd_pow 2 hle) m
    obtain ⟨c, hc⟩ := Int.natCast_dvd.2 hdvd
    exact ⟨c, by rw [hc]; push_cast; ring⟩
  · refine .inr ⟨by omega, ?_⟩
    have hlt : z.natAbs < 2 ^ 52 * 2 ^ sh := calc
      z.natAbs = m * 2 ^ e := hz.trans hmag
      _ < 2 ^ 53 * 2 ^ e := Nat.mul_lt_mul_of_pos_right hm (by positivity)
      _ = 2 ^ 52 * 2 ^ (e + 1) := by ring
      _ ≤ 2 ^ 52 * 2 ^ sh := mul_two_pow_le le_rfl (by omega)
    have hcast : (z.natAbs : Int) < 2 ^ 52 * 2 ^ sh := by exact_mod_cast hlt
    omega

/-- x measured in the spacing of its binade: what `roundedSig` rounds. -/
abbrev exactSig (x : Rat) : Rat := x / ((2 ^ binadeOf x : Nat) : Rat)

/-- The magnitude x rounds to, in units of 2^-1074, where the rounding stays finite. -/
def roundedUnits (x : Rat) : Nat := roundedSig x * 2 ^ binadeOf x

/-- Distances to x, measured in units and in multiples of x's spacing. -/
theorem abs_mul_binade_sub (x c : Rat) :
    |c * 2 ^ binadeOf x - x| = |c - exactSig x| * 2 ^ binadeOf x := by
  have hp : (0 : Rat) < 2 ^ binadeOf x := by positivity
  rw [← abs_of_pos hp, ← abs_mul, abs_of_pos hp, sub_mul, exactSig]
  push_cast
  rw [div_mul_cancel₀ _ hp.ne']

/-- The distance a rounding moves x, in multiples of x's spacing: that of `rhe`. -/
theorem abs_roundedUnits_sub {x : Rat} (hx : 0 ≤ x) :
    |(roundedUnits x : Rat) - x| = |(rhe (exactSig x) : Rat) - exactSig x| * 2 ^ binadeOf x := by
  rw [← abs_mul_binade_sub, ← (roundedSig_spec hx).1, roundedUnits]
  push_cast
  rfl

/-- Among the multiples of x's spacing none is nearer to x than the rounded one. -/
theorem roundedUnits_nearest_multiple {x : Rat} (hx : 0 ≤ x) (c : Int) :
    |(roundedUnits x : Rat) - x| ≤ |(c : Rat) * 2 ^ binadeOf x - x| := by
  rw [abs_roundedUnits_sub hx, abs_mul_binade_sub]
  exact mul_le_mul_of_nonneg_right (rhe_nearest _ c) (by positivity)

/-- Another multiple of the spacing at the same distance: the rounded significand is even. -/
theorem roundedSig_even_of_tie {x : Rat} (hx : 0 ≤ x) {c : Int} (hc : c * 2 ^ binadeOf x ≠ (roundedUnits x : Int))
    (h : |(roundedUnits x : Rat) - x| = |(c : Rat) * 2 ^ binadeOf x - x|) : roundedSig x % 2 = 0 := by
  have hsig : (roundedSig x : Int) = rhe (exactSig x) := (roundedSig_spec hx).1
  rw [abs_roundedUnits_sub hx, abs_mul_binade_sub] at h
  have hne : c ≠ rhe (exactSig x) := by
    rintro rfl
    exact hc (by rw [← hsig, roundedUnits]; push_cast; rfl)
  have heven := rhe_even_of_tie hne (mul_right_cancel₀ (by positivity) h)
  omega

/-- What lies below x's binade is farther from x than the rounding: the binade's least value, a multiple of the
spacing, stands between. -/
theorem roundedUnits_lt_of_below {x z : Rat} (hx : 0 ≤ x) (hsh : binadeOf x ≠ 0)
    (hz : z < 2 ^ 52 * 2 ^ binadeOf x) : |(roundedUnits x : Rat) - x| < |z - x| := by
  have hge := (binadeOf_spec hx).2.resolve_left hsh
  push_cast at hge
  have hleast := roundedUnits_nearest_multiple hx (2 ^ 52)
  push_cast at hleast
  rw [abs_of_nonpos (sub_nonpos.2 hge)] at hleast
  rw [abs_of_neg (a := z - x) (by linarith)]
  linarith

/-- No signed magnitude of a finite pattern is nearer to x than the rounding, and at the same distance the rounded
significand is even (00_scope.md R10). -/
theorem roundedUnits_nearest_even {x : Rat} (hx : 0 ≤ x) {b : Word} (hb : finite64 b = true) {z : Int}
    (hz : z.natAbs = magnitudeOf b) :
    |(roundedUnits x : Rat) - x| ≤ |(z : Rat) - x| ∧
      (|(roundedUnits x : Rat) - x| = |(z : Rat) - x| → z ≠ (roundedUnits x : Int) → roundedSig x % 2 = 0) := by
  rcases signed_magnitude_grid hb hz (binadeOf x) with ⟨c, rfl⟩ | ⟨hsh, hlt⟩
  · push_cast
    exact ⟨roundedUnits_nearest_multiple hx c, fun h hne => roundedSig_even_of_tie hx hne h⟩
  · have hfar := roundedUnits_lt_of_below hx hsh (z := z) (by exact_mod_cast hlt)
    exact ⟨hfar.le, fun h => absurd h hfar.ne⟩

/-! From magnitudes to patterns -/

/-- The magnitude of v, in units of 2^-1074. -/
abbrev unitsOf (v : Rat) : Rat := |v| * ((2 ^ 1074 : Nat) : Rat)

theorem unitsOf_nonneg (v : Rat) : 0 ≤ unitsOf v := by unfold unitsOf; positivity

/-- The sign RNE64 gives: +1 for zero. -/
abbrev signFactor (v : Rat) : Rat := if v < 0 then -1 else 1

/-- The value of a pattern, with the sign of v taken out. -/
theorem val64_eq_signed (v : Rat) (b : Word) :
    ∃ z : Int, z.natAbs = magnitudeOf b ∧ val64 b = signFactor v * z * unit64 := by
  obtain ⟨z, hmag, hval⟩ : ∃ z : Int, z.natAbs = magnitudeOf b ∧ val64 b = z * unit64 := by
    rw [val64_eq]
    split
    · exact ⟨-(magnitudeOf b : Int), by simp, by push_cast; rfl⟩
    · exact ⟨magnitudeOf b, by simp, by push_cast; rfl⟩
  unfold signFactor
  split
  · exact ⟨-z, by rwa [Int.natAbs_neg], by rw [hval]; push_cast; ring⟩
  · exact ⟨z, hmag, by rw [hval]; ring⟩

/-- A distance to v, in units of 2^-1074 and with the sign of v taken out. -/
theorem abs_signed_sub (v y : Rat) : |signFactor v * y * unit64 - v| = |y - unitsOf v| * unit64 := by
  have hu : ((2 ^ 1074 : Nat) : Rat) * unit64 = 1 := mul_one_div_cancel (by positivity)
  rw [← abs_of_pos unit64_pos, ← abs_mul, abs_of_pos unit64_pos, sub_mul, unitsOf, mul_assoc |v|, hu, mul_one]
  unfold signFactor
  split
  · rename_i hneg
    rw [abs_of_neg hneg, ← abs_neg]
    congr 1
    ring
  · rename_i hpos
    rw [abs_of_nonneg (not_lt.1 hpos), one_mul]

/-- The largest finite value: 2^53 - 1 in the highest binade. -/
theorem val64_largest :
    val64 0x7FEFFFFFFFFFFFFF = (((2 ^ 53 - 1) * 2 ^ 2045 : Nat) : Rat) * unit64 := by
  have hmag : magnitudeOf 0x7FEFFFFFFFFFFFFF = (2 ^ 53 - 1) * 2 ^ 2045 := by
    rw [magnitudeOf, show significandOf 0x7FEFFFFFFFFFFFFF = 2 ^ 53 - 1 by decide,
      show exponentOf 0x7FEFFFFFFFFFFFFF - 1 = 2045 by decide]
  rw [val64_eq, hmag, if_neg (by decide)]

/-- Within the finite range the rounded bits stay below infinity's. -/
theorem bits_finite_of_le_largest {v : Rat} (hv : |v| ≤ val64 0x7FEFFFFFFFFFFFFF) :
    binadeOf (unitsOf v) * 2 ^ 52 + roundedSig (unitsOf v) < 2047 * 2 ^ 52 := by
  refine rounding_stays_finite (unitsOf_nonneg v) ?_
  rwa [val64_largest, unit64, mul_one_div, le_div_iff₀ (by positivity)] at hv

/-- RNE64 within the finite range: the rounded magnitude, with the sign of v. -/
theorem val64_rne64_of_le_largest {v : Rat} (hv : |v| ≤ val64 0x7FEFFFFFFFFFFFFF) :
    finite64 (rne64 v) = true ∧ val64 (rne64 v) = signFactor v * roundedUnits (unitsOf v) * unit64 :=
  val64_rne64 (bits_finite_of_le_largest hv)

theorem rne64_eq (v : Rat) :
    rne64 v = BitVec.ofNat 64 ((if v < 0 then 2 ^ 63 else 0) + roundMagnitude (unitsOf v)) := by
  unfold rne64 unitsOf
  split
  · rename_i hneg
    rw [abs_of_neg hneg]
  · rename_i hpos
    rw [abs_of_nonneg (not_lt.1 hpos), Nat.zero_add]

/-- The sign bit of a rounding is the sign of v, and 0 gives +0.0 (00_scope.md R10). -/
theorem getLsbD_sign_rne64 (v : Rat) : (rne64 v).getLsbD 63 = true ↔ v < 0 := by
  have hlow := Nat.testBit_lt_two_pow (roundMagnitude_lt (unitsOf v))
  rw [rne64_eq, BitVec.getLsbD_ofNat]
  split
  · rename_i hneg
    simp only [Nat.testBit_two_pow_add_eq, hlow, hneg]
    decide
  · rename_i hpos
    simp only [Nat.zero_add, hlow, hpos]
    decide

/-- An even rounded significand clears the pattern's lowest bit. -/
theorem getLsbD_zero_rne64 {v : Rat} (hv : |v| ≤ val64 0x7FEFFFFFFFFFFFFF)
    (heven : roundedSig (unitsOf v) % 2 = 0) : (rne64 v).getLsbD 0 = false := by
  have hbits : ((if v < 0 then 2 ^ 63 else 0) + roundMagnitude (unitsOf v)) % 2 = 0 := by
    rw [roundMagnitude_eq, min_eq_left (bits_finite_of_le_largest hv).le]
    split <;> omega
  rw [rne64_eq, BitVec.getLsbD_ofNat, Nat.testBit_zero, hbits]
  decide

end Sys2Proof.Machine

namespace Sys2Proof.Proofs

open Sys2Proof.Machine

/-- Settles O38: by induction on the number of words, for every start address. -/
theorem spadReadIsTheSum : Obligations.SpadReadIsTheSum := by
  intro m a n x h
  exact spadRead_eq_sum h

/-- Settles O52: in units of 2^-1074 and with the sign of v taken out, RNE64 rounds |v| to a multiple of the
spacing of its binade, and every finite value is such a multiple or lies below that binade. -/
theorem rneIsNearestEven : Obligations.RneIsNearestEven := by
  intro v b hb hv
  obtain ⟨hfin, hround⟩ := val64_rne64_of_le_largest hv
  obtain ⟨z, hz, hval⟩ := val64_eq_signed v b
  obtain ⟨hnear, htie⟩ := roundedUnits_nearest_even (unitsOf_nonneg v) hb hz
  have hdist : |val64 (rne64 v) - v| = |(roundedUnits (unitsOf v) : Rat) - unitsOf v| * unit64 := by
    rw [hround, abs_signed_sub]
  have hdist' : |val64 b - v| = |(z : Rat) - unitsOf v| * unit64 := by rw [hval, abs_signed_sub]
  refine ⟨hfin, ?_, ?_, getLsbD_sign_rne64 v⟩
  · rw [hdist, hdist']
    exact mul_le_mul_of_nonneg_right hnear unit64_pos.le
  · intro heq hne
    rw [hdist, hdist'] at heq
    refine getLsbD_zero_rne64 hv (htie (mul_right_cancel₀ unit64_pos.ne' heq) ?_)
    rintro rfl
    exact hne (by rw [hround, hval, Int.cast_natCast])

end Sys2Proof.Proofs
end

section
/-! What an Execute and a turn of the queue can leave, said once each (10_state.md R14, R29; 30_encoding.md R50). -/

namespace Sys2Proof.Machine

open Sys2Proof.Claims

/-! Decoding -/

theorem ifReservedZero_eq_ok {c : Word} {reserved : List Nat} {i j : Instr}
    (h : ifReservedZero c reserved i = .ok j) : i = j := by
  unfold ifReservedZero at h
  split at h
  · exact Except.ok.inj h
  · cases h

/-- LEN holds N - 1, so no word holds a length of 0 (30_encoding.md R46). -/
theorem one_le_lengthUsed_of_decode {c : Word} {i : Instr} (h : decode c = .ok i) :
    ∀ n ∈ lengthUsed i, 1 ≤ n := by
  unfold decode at h
  split at h
  case h_10 => cases h
  all_goals
    obtain rfl := ifReservedZero_eq_ok h
    simp [lengthUsed]

/-! Legal register contents (10_state.md R15) -/

/-- Every valid torus register holds a legal polynomial. -/
def State.RegsLegal (s : State) : Prop := ∀ r p, s.torus r = some p → p.Legal s.cfg

theorem TorusPoly.legal_map {α : Type} {cfg : Config} {es : List α} {n : Nat} (hlen : es.length = n)
    (h1 : 1 ≤ n) (hn : n ≤ cfg.nmax) {f : α → Coeff} (hf : ∀ x, f x < 2 ^ cfg.w) :
    TorusPoly.Legal cfg ⟨es.map f⟩ := by
  subst hlen
  refine ⟨by simpa using h1, by simpa using hn, fun c hc => ?_⟩
  obtain ⟨x, -, rfl⟩ := List.mem_map.1 hc
  exact hf x

/-- Coefficients as many as a valid register's, each below 2^W, are legal. -/
theorem State.RegsLegal.legal_of_length {s : State} (h : s.RegsLegal) {r : Nat} (hv : s.valid r = true)
    {cs : List Coeff} (hlen : cs.length = s.len r) (hlt : ∀ c ∈ cs, c < 2 ^ s.cfg.w) :
    TorusPoly.Legal s.cfg ⟨cs⟩ := by
  obtain ⟨h1, hn, -⟩ := h r _ (State.torus_of_valid hv)
  exact ⟨hlen ▸ h1, hlen ▸ hn, hlt⟩

/-- A coefficient-wise combination of two sources of one length is legal (42_ring_arith.md R79, R80). -/
theorem State.RegsLegal.legal_zipWith {s : State} (h : s.RegsLegal) {rs1 rs2 : Nat} (hv : s.valid rs1 = true)
    (hlen : s.len rs1 = s.len rs2) {f : Coeff → Coeff → Coeff} (hf : ∀ x y, f x y < 2 ^ s.cfg.w) :
    TorusPoly.Legal s.cfg ⟨List.zipWith f (s.coeffs rs1) (s.coeffs rs2)⟩ :=
  h.legal_of_length hv (by rw [List.length_zipWith]; exact min_eq_left hlen.le) fun _ => mem_zipWith_lt hf

/-! Execute -/

/-- What exec can answer to command `i` in `s`, with what it writes: an error, the fault of an unwritten read, the
destination register replaced, or the words stored to. The register's contents are legal where the sources' are
and the command's length is not 0. -/
inductive Answers (i : Instr) (s : State) : Result → Prop
  | raised {e : ErrorCode} (he : e ≠ .none) : Answers i s (.next (s.raise e))
  | fault : Answers i s (.fault .unwrittenScratchpadRead)
  | register {rd : Nat} {cs : List Coeff} (hdest : destinations i = [rd]) (hwords : wordsStored s i = [])
      (hrd : rd < s.cfg.npreg)
      (hlegal : (∀ n ∈ lengthUsed i, 1 ≤ n) → s.RegsLegal → TorusPoly.Legal s.cfg ⟨cs⟩) :
      Answers i s (.next (s.commitTorus rd cs))
  | stored {a size : Nat} {vs : List Nat} (hdest : destinations i = [])
      (hwords : wordsStored s i = [(a, vs.length * size)]) (hfits : a + vs.length * size ≤ s.cfg.spadWords) :
      Answers i s (.next (s.commitSpad a size vs))

theorem Answers.of_eq {i : Instr} {s : State} {o o' : Result} (h : o = o') (ha : Answers i s o') :
    Answers i s o := h ▸ ha

theorem Answers.of_raises {i : Instr} {s : State} {o : Result} (h : RaisesError s o) : Answers i s o := by
  obtain ⟨e, he, rfl⟩ := h
  exact .raised he

/-- A decode command stores one element of `size` words for each coefficient (41_polynomial_codec.md R73). -/
theorem Answers.of_commitSpad {i : Instr} {s : State} {rs1 a size : Nat} {f : Coeff → Nat} {o : Result}
    (h : o = .next (s.commitSpad a size ((s.coeffs rs1).map f))) (hdest : destinations i = [])
    (hwords : wordsStored s i = [(a, s.len rs1 * size)]) (hfits : a + s.len rs1 * size ≤ s.cfg.spadWords) :
    Answers i s o := by
  have hlen : ((s.coeffs rs1).map f).length = s.len rs1 := List.length_map f
  exact .of_eq h (.stored hdest (hlen ▸ hwords) (hlen ▸ hfits))

theorem exec_answers (i : Instr) (s : State) : Answers i s (exec i s) := by
  cases i with
  | pencI rd k bcast n addr =>
    rcases execPencI_cases rd k bcast n addr s with h | h | ⟨es, hrd, hk, hn, -, hlen, -, h⟩
    · exact .of_raises h
    · exact .of_eq h .fault
    · exact .of_eq h (.register rfl rfl hrd fun h1 _ =>
        TorusPoly.legal_map hlen (h1 n (by simp [lengthUsed])) hn (encInt_lt hk))
  | pencR rd bcast n addr =>
    rcases execPencR_cases rd bcast n addr s with h | h | ⟨bs, hrd, hn, -, hlen, -, -, h⟩
    · exact .of_raises h
    · exact .of_eq h .fault
    · exact .of_eq h (.register rfl rfl hrd fun h1 _ =>
        TorusPoly.legal_map hlen (h1 n (by simp [lengthUsed])) hn (encReal_lt s.cfg))
  | pencF rd k bcast n addr =>
    rcases execPencF_cases rd k bcast n addr s with h | h | ⟨bs, hrd, hk, hn, -, -, hlen, -, -, h⟩
    · exact .of_raises h
    · exact .of_eq h .fault
    · exact .of_eq h (.register rfl rfl hrd fun h1 _ =>
        TorusPoly.legal_map hlen (h1 n (by simp [lengthUsed])) hn fun _ => encFloat_lt _ _ _ _ hk)
  | pdecI rs1 k addr =>
    rcases execPdecI_cases rs1 k addr s with h | ⟨-, -, hfits, h⟩
    · exact .of_raises h
    · exact .of_commitSpad h rfl rfl hfits
  | pdecR rs1 k addr =>
    rcases execPdecR_cases rs1 k addr s with h | ⟨-, -, hfits, h⟩
    · exact .of_raises h
    · exact .of_commitSpad h rfl (by rw [Nat.mul_one]; rfl) (by rwa [Nat.mul_one])
  | pdecF rs1 k addr =>
    rcases execPdecF_cases rs1 k addr s with h | ⟨-, -, -, hfits, h⟩
    · exact .of_raises h
    · exact .of_commitSpad h rfl (by rw [Nat.mul_one]; rfl) (by rwa [Nat.mul_one])
  | tadd rd rs1 rs2 =>
    rcases execTadd_cases rd rs1 rs2 s with h | ⟨hrd, hv, -, hlen, h⟩
    · exact .of_raises h
    · exact .of_eq h (.register rfl rfl hrd fun _ hl => hl.legal_zipWith hv hlen (addRaw_lt _))
  | tsub rd rs1 rs2 =>
    rcases execTsub_cases rd rs1 rs2 s with h | ⟨hrd, hv, -, hlen, h⟩
    · exact .of_raises h
    · exact .of_eq h (.register rfl rfl hrd fun _ hl => hl.legal_zipWith hv hlen (subRaw_lt _))
  | tmul rd rs1 rs2 k =>
    rcases execTmul_cases rd rs1 rs2 k s with h | ⟨hrd, hk, hv, -, -, h⟩
    · exact .of_raises h
    · exact .of_eq h (.register rfl rfl hrd fun _ hl =>
        hl.legal_of_length hv (length_mulCoeffs _ _ _ _) fun _ => mulCoeffs_lt hk)

theorem answers_of_exec {i : Instr} {s t : State} (h : exec i s = .next t) : Answers i s (.next t) :=
  h ▸ exec_answers i s

/-- What every Execute keeps: all but the torus registers, the scratchpad and BUSY, DONE, ERR and ECODE
(10_state.md R29). -/
structure State.KeepsControl (s t : State) : Prop where
  cmd : t.cmd = s.cmd
  rangeLo : t.rangeLo = s.rangeLo
  rangeHi : t.rangeHi = s.rangeHi
  cfg : t.cfg = s.cfg
  rst : t.rst = s.rst
  resp : t.resp = s.resp
  events : t.events = s.events
  haz : t.status.haz = s.status.haz

theorem exec_keepsControl {i : Instr} {s t : State} (h : exec i s = .next t) : s.KeepsControl t := by
  cases answers_of_exec h <;> exact ⟨rfl, rfl, rfl, rfl, rfl, rfl, rfl, rfl⟩

theorem State.torus_commitTorus_of_ne (s : State) {r rd : Nat} (h : r ≠ rd) (cs : List Coeff) :
    (s.commitTorus rd cs).torus r = s.torus r := by
  rw [State.torus_commitTorus, if_neg fun hc => h hc.1]

/-- A command writes no torus register but its destination (10_state.md R16). -/
theorem exec_torus {i : Instr} {s t : State} (h : exec i s = .next t) {r : Nat} (hr : r ∉ destinations i) :
    t.torus r = s.torus r := by
  cases answers_of_exec h with
  | raised he => rfl
  | register hdest => exact s.torus_commitTorus_of_ne (by simpa [hdest] using hr) _
  | stored => rfl

/-- A command writes no byte of the scratchpad outside the words it stores to (41_polynomial_codec.md R73). -/
theorem exec_readByte {i : Instr} {s t : State} (h : exec i s = .next t) {o : Nat}
    (ho : ∀ p ∈ wordsStored s i, o < spadOffset p.1 ∨ spadOffset (p.1 + p.2) ≤ o) :
    readByte t.mem o = readByte s.mem o := by
  cases answers_of_exec h with
  | raised he => rfl
  | register => rfl
  | stored _ hwords => exact readByte_commitSpad_outside (ho _ (hwords ▸ List.mem_singleton_self _))

/-- A command's end: an error that changes STATUS alone, or success with registers or scratchpad as they were. -/
theorem exec_ends {i : Instr} {s t : State} (h : exec i s = .next t) :
    (∃ e, e ≠ .none ∧ t = s.raise e) ∨
      t.status = s.status.succeeded ∧ (t.mem = s.mem ∨ t.regs = s.regs) := by
  cases answers_of_exec h with
  | raised he => exact .inl ⟨_, he, rfl⟩
  | register => exact .inr ⟨rfl, .inl rfl⟩
  | stored => exact .inr ⟨rfl, .inr rfl⟩

theorem execute_of_decode {s : State} {i : Instr} (h : decode s.cmd = .ok i) : execute s = exec i s := by
  simp [execute, h]

theorem execute_of_decode_error {s : State} {d : DecodeError} (h : decode s.cmd = .error d) :
    execute s = .next (s.raise .illegalCommand) := by
  simp [execute, h]

/-- Execute runs the decoded command, or raises ILLEGAL_COMMAND for a word that is none (30_encoding.md R50). -/
theorem execute_cases {s t : State} (h : execute s = .next t) :
    t = s.raise .illegalCommand ∨ ∃ i, decode s.cmd = .ok i ∧ exec i s = .next t := by
  cases hd : decode s.cmd with
  | error d =>
    rw [execute_of_decode_error hd] at h
    cases h
    exact .inl rfl
  | ok i => exact .inr ⟨i, rfl, execute_of_decode hd ▸ h⟩

theorem execute_keepsControl {s t : State} (h : execute s = .next t) : s.KeepsControl t := by
  rcases execute_cases h with rfl | ⟨i, -, h⟩
  · exact ⟨rfl, rfl, rfl, rfl, rfl, rfl, rfl, rfl⟩
  · exact exec_keepsControl h

theorem execute_ends {s t : State} (h : execute s = .next t) :
    (∃ e, e ≠ .none ∧ t = s.raise e) ∨
      (∃ i, decode s.cmd = .ok i) ∧ t.status = s.status.succeeded ∧ (t.mem = s.mem ∨ t.regs = s.regs) := by
  rcases execute_cases h with rfl | ⟨i, hi, h⟩
  · exact .inl ⟨_, by decide, rfl⟩
  · exact (exec_ends h).imp_right fun hs => ⟨⟨i, hi⟩, hs⟩

/-- No command makes a valid register invalid (10_state.md R17). -/
theorem execute_valid {s t : State} (h : execute s = .next t) {r : Nat} (hv : (s.torus r).isSome = true) :
    (t.torus r).isSome = true := by
  rcases execute_cases h with rfl | ⟨i, -, h⟩
  · exact hv
  · cases answers_of_exec h with
    | raised he => exact hv
    | register =>
      rw [State.torus_commitTorus]
      split
      · rfl
      · exact hv
    | stored => exact hv

/-! Turns (10_state.md R14; log 2) -/

theorem coreTurn_of_enabled {s : State} (h : s.executeEnabled = true) : coreTurn s = execute s := if_pos h

theorem coreTurn_of_not_enabled {s : State} (h : s.executeEnabled = false) : coreTurn s = .next s := by
  simp [coreTurn, h]

/-- The turn a step takes: the first of the queue, and the core's when none is queued. -/
def State.nextTurn (s : State) : Event := s.events.headD .core

/-- The state with that turn taken off the queue. -/
def State.dequeue (s : State) : State := { s with events := s.events.tail }

@[simp] theorem State.dequeue_cfg (s : State) : s.dequeue.cfg = s.cfg := rfl
@[simp] theorem State.dequeue_cmd (s : State) : s.dequeue.cmd = s.cmd := rfl
@[simp] theorem State.dequeue_status (s : State) : s.dequeue.status = s.status := rfl
@[simp] theorem State.torus_dequeue (s : State) (r : Nat) : s.dequeue.torus r = s.torus r := rfl

theorem step_eq_takeTurn (s : State) : step s = takeTurn s.nextTurn s.dequeue := by
  obtain ⟨cfg, regs, cmd, status, rangeLo, rangeHi, mem, rst, resp, events⟩ := s
  cases events <;> rfl

/-- Only the core's turn is taken from an empty queue. -/
theorem State.events_of_nextTurn {s : State} {e : Event} (h : s.nextTurn = e) (he : e ≠ .core) :
    ∃ rest, s.events = e :: rest := by
  unfold State.nextTurn at h
  cases hq : s.events with
  | nil => rw [hq] at h; exact absurd h.symm he
  | cons e' rest => rw [hq] at h; exact ⟨rest, h ▸ rfl⟩

/-- The window offset of a target (20_memory.md R34). -/
def Target.offset : Target → Nat
  | .cap => 0x00000
  | .cmd => 0x00008
  | .status => 0x00010
  | .ctrl => 0x00018
  | .rangeLo => 0x00020
  | .rangeHi => 0x00028
  | .spad w => spadOffset w

theorem targetAt_offset {cfg : Config} {off : Nat} {t : Target} (h : targetAt cfg off = some t) :
    off = t.offset := by
  rcases targetAt_cases h with ⟨hoff, hal, -⟩ | ⟨w, -, rfl, rfl⟩
  · have hcsr : off = 0x00 ∨ off = 0x08 ∨ off = 0x10 ∨ off = 0x18 ∨ off = 0x20 ∨ off = 0x28 := by omega
    rcases hcsr with rfl | rfl | rfl | rfl | rfl | rfl
    all_goals
      cases h
      rfl
  · rfl

/-- A write that reaches a target is the full-word write at its offset (20_memory.md R36). -/
theorem Access.eq_writeAt {cfg : Config} {a : Access} {v : Word} {t : Target} (hk : a.kind = .write v)
    (ht : a.target cfg = some t) : a = writeAt t.offset v := by
  obtain ⟨hw, hs, hoff⟩ := Access.target_eq_some ht
  obtain ⟨kind, offset, width, strobe⟩ := a
  simp only at hk hw hs hoff
  rw [writeAt, ← targetAt_offset hoff, hk, hw, hs, BitVec.ofNat_toNat, BitVec.setWidth_eq]

/-- What a turn can leave, said once: `TurnEffect s e t` when turn `e`, taken in `s`, can leave `t`. -/
inductive TurnEffect (s : State) : Event → State → Prop
  | idle (he : s.executeEnabled = false) : TurnEffect s .core s
  | executed {t : State} (he : s.executeEnabled = true) (h : execute s = .next t) : TurnEffect s .core t
  | rst (b : Bool) : TurnEffect s (.rst b) (s.setRst b)
  | powerCycle : TurnEffect s .powerCycle s.powerOn
  | answered (a : Access) (r : Response) : TurnEffect s (.host a) (s.respond r)
  | refused (a : Access) (r : Response) (hb : s.status.busy = true) :
      TurnEffect s (.host a) (s.refuseAccess.respond r)
  | softReset (v : Word) (hv : v.getLsbD 0 = true) :
      TurnEffect s (.host (writeAt 0x00018 v)) (s.coreReset.respond .done)
  | clearedHaz (v : Word) (hv : v.getLsbD 1 = true) :
      TurnEffect s (.host (writeAt 0x00018 v))
        (State.respond { s with status := { s.status with haz := false } } .done)
  | accepted (c : Word) (hb : s.status.busy = false) (hr : s.rst = false) :
      TurnEffect s (.host (writeAt 0x00008 c)) ((s.accept c).respond .done)
  | wroteRangeLo (v : Word) (hb : s.status.busy = false) :
      TurnEffect s (.host (writeAt 0x00020 v)) (State.respond { s with rangeLo := v } .done)
  | wroteRangeHi (v : Word) (hb : s.status.busy = false) :
      TurnEffect s (.host (writeAt 0x00028 v)) (State.respond { s with rangeHi := v } .done)
  | wroteWord (w : Nat) (v : Word) (hb : s.status.busy = false) (hw : w < s.cfg.spadWords) :
      TurnEffect s (.host (writeAt (spadOffset w) v))
        (State.respond { s with mem := writeWord s.mem w v.toNat } .done)

/-! Each turn leaves one of these effects -/

theorem hostRead_effect {a : Access} {s t : State} {tg : Target} (h : hostRead s tg = .next t) :
    TurnEffect s (.host a) t := by
  rcases hostRead_cases s tg with ⟨v, h'⟩ | ⟨hb, -, h'⟩ | ⟨-, -, h'⟩
  · cases h'.symm.trans h
    exact .answered a _
  · cases h'.symm.trans h
    exact .refused a _ hb
  · cases h'.symm.trans h

theorem hostWrite_effect {a : Access} {s t : State} {v : Word} {tg : Target} (hr : s.rst = false)
    (hk : a.kind = .write v) (ht : a.target s.cfg = some tg) (h : hostWrite s v tg = .next t) :
    TurnEffect s (.host a) t := by
  have ha := Access.eq_writeAt hk ht
  obtain ⟨u, h', hu⟩ := hostWrite_cases s v tg
  rw [h'] at h
  cases h
  rcases hu with rfl | ⟨rfl, hb⟩ | ⟨rfl, rfl, hv⟩ | ⟨rfl, rfl, hv⟩ |
    ⟨hb, ⟨rfl, rfl⟩ | ⟨rfl, rfl⟩ | ⟨rfl, rfl⟩ | ⟨w, rfl, rfl⟩⟩
  · exact .answered a _
  · exact .refused a _ hb
  · exact ha ▸ .softReset v hv
  · exact ha ▸ .clearedHaz v hv
  · exact ha ▸ .accepted v hb hr
  · exact ha ▸ .wroteRangeLo v hb
  · exact ha ▸ .wroteRangeHi v hb
  · rcases targetAt_cases (Access.target_eq_some ht).2.2 with ⟨-, -, hne⟩ | ⟨w', hw, -, heq⟩
    · exact absurd rfl (hne w)
    · cases heq
      exact ha ▸ .wroteWord w v hb hw

theorem takeTurn_effect {e : Event} {s t : State} (h : takeTurn e s = .next t) : TurnEffect s e t := by
  cases e with
  | host a =>
    simp only [takeTurn] at h
    rcases hostAccess_cases a s with ⟨-, h'⟩ | ⟨-, -, h'⟩ | ⟨hr, tg, -, htg, ⟨-, h'⟩ | ⟨v, hk, h'⟩⟩
    · cases h'.symm.trans h
    · cases h'.symm.trans h
      exact .answered a _
    · exact hostRead_effect (h'.symm.trans h)
    · exact hostWrite_effect hr hk htg (h'.symm.trans h)
  | core =>
    simp only [takeTurn] at h
    cases he : s.executeEnabled with
    | true => exact .executed he (coreTurn_of_enabled he ▸ h)
    | false =>
      rw [coreTurn_of_not_enabled he] at h
      cases h
      exact .idle he
  | rst b => cases h; exact .rst b
  | powerCycle => cases h; exact .powerCycle

/-- What a step can leave: what its turn can. -/
theorem step_effect {s t : State} (h : step s = .next t) : TurnEffect s.dequeue s.nextTurn t :=
  takeTurn_effect (step_eq_takeTurn s ▸ h)

end Sys2Proof.Machine
end

section
/-! The invariant of the machine, update by update and turn by turn (10_state.md R15, R26; 20_memory.md R34). -/

namespace Sys2Proof.Machine

open Sys2Proof.Claims

/-! STATUS (10_state.md R26) -/

theorem Status.legal_failed (st : Status) {e : ErrorCode} (he : e ≠ .none) : (st.failed e).legal = true := by
  simp [Status.legal, he]

/-- HAZ is in no combination R26 forbids. -/
theorem Status.legal_haz (st : Status) (b : Bool) : ({ st with haz := b } : Status).legal = st.legal := rfl

/-! The updates of the state -/

/-- The invariant speaks of the configuration, the registers, the scratchpad, STATUS and `rst` alone. -/
theorem State.Inv.of_same_data {s t : State} (h : s.Inv) (hcfg : t.cfg = s.cfg) (hregs : t.regs = s.regs)
    (hmem : t.mem = s.mem) (hlegal : t.status.legal = true) (hidle : t.rst = true → t.status.busy = false) :
    t.Inv := by
  have htorus : ∀ r, t.torus r = s.torus r := fun r => by simp only [State.torus, hregs]
  constructor
  case mem_wf => exact hmem ▸ h.mem_wf
  case mem_in => exact hcfg ▸ hmem ▸ h.mem_in
  case mem_words => exact hmem ▸ h.mem_words
  case regs_exist => exact fun r hr => htorus r ▸ h.regs_exist r (hcfg ▸ hr)
  case regs_legal => exact fun r p hp => hcfg ▸ h.regs_legal r p (htorus r ▸ hp)
  case status_legal => exact hlegal
  case rst_idle => exact hidle

theorem State.Inv.dequeue {s : State} (h : s.Inv) : s.dequeue.Inv :=
  h.of_same_data rfl rfl rfl h.status_legal h.rst_idle

theorem State.Inv.respond {s : State} (h : s.Inv) (r : Response) : (s.respond r).Inv :=
  h.of_same_data rfl rfl rfl h.status_legal h.rst_idle

theorem State.Inv.withHaz {s : State} (h : s.Inv) (b : Bool) :
    State.Inv { s with status := { s.status with haz := b } } :=
  h.of_same_data rfl rfl rfl (s.status.legal_haz b ▸ h.status_legal) h.rst_idle

theorem State.Inv.withRange {s : State} (h : s.Inv) (lo hi : Word) :
    State.Inv { s with rangeLo := lo, rangeHi := hi } :=
  h.of_same_data rfl rfl rfl h.status_legal h.rst_idle

theorem State.Inv.accept {s : State} (h : s.Inv) (hr : s.rst = false) (c : Word) : (s.accept c).Inv :=
  h.of_same_data rfl rfl rfl rfl fun hr' => absurd (hr.symm.trans hr') (by decide)

theorem State.Inv.raise {s : State} (h : s.Inv) {e : ErrorCode} (he : e ≠ .none) : (s.raise e).Inv :=
  h.of_same_data rfl rfl rfl (s.status.legal_failed he) fun _ => rfl

/-- New scratchpad contents that meet the invariant's clauses on memory. -/
theorem State.Inv.withMem {s : State} (h : s.Inv) {m : Memory} (hwf : Memory.wf m = true)
    (hin : Memory.InScratchpad s.cfg m) (hwords : Memory.WholeWords m) : State.Inv { s with mem := m } where
  mem_wf := hwf
  mem_in := hin
  mem_words := hwords
  regs_exist := h.regs_exist
  regs_legal := h.regs_legal
  status_legal := h.status_legal
  rst_idle := h.rst_idle

theorem State.Inv.writeWord {s : State} (h : s.Inv) {w : Nat} (hw : w < s.cfg.spadWords) (v : Nat) :
    State.Inv { s with mem := writeWord s.mem w v } :=
  h.withMem (Memory.wf_writeWord h.mem_wf w v) (Memory.inScratchpad_writeWord h.mem_in hw v)
    (Memory.wholeWords_writeWord h.mem_words w v)

theorem State.Inv.complete {s : State} (h : s.Inv) : s.complete.Inv :=
  h.of_same_data rfl rfl rfl rfl fun _ => rfl

theorem State.Inv.commitSpad {s : State} (h : s.Inv) {a size : Nat} {vs : List Nat}
    (hfits : a + vs.length * size ≤ s.cfg.spadWords) : (s.commitSpad a size vs).Inv := by
  have hin : Memory.InScratchpad s.cfg (writeElements s.mem a size vs) :=
    writeElements_keeps (P := Memory.InScratchpad s.cfg)
      (fun _ _ v hm hw => Memory.inScratchpad_writeWord hm hw v) h.mem_in hfits
  have hwords : Memory.WholeWords (writeElements s.mem a size vs) :=
    writeElements_keeps (P := Memory.WholeWords)
      (fun _ w v hm _ => Memory.wholeWords_writeWord hm w v) h.mem_words hfits
  exact (h.withMem (Memory.wf_writeElements h.mem_wf a size vs) hin hwords).complete

/-- A register that exists may take a legal polynomial. -/
theorem State.Inv.commitTorus {s : State} (h : s.Inv) {rd : Nat} {cs : List Coeff} (hrd : rd < s.cfg.npreg)
    (hlegal : TorusPoly.Legal s.cfg ⟨cs⟩) : (s.commitTorus rd cs).Inv := by
  constructor
  case mem_wf => exact h.mem_wf
  case mem_in => exact h.mem_in
  case mem_words => exact h.mem_words
  case regs_exist =>
    intro r hr
    have hne : r ≠ rd := (hrd.trans_le hr).ne'
    exact (s.torus_commitTorus_of_ne hne cs).trans (h.regs_exist r hr)
  case regs_legal =>
    intro r p hp
    rw [State.torus_commitTorus] at hp
    split at hp
    · cases hp
      exact hlegal
    · exact h.regs_legal r p hp
  case status_legal => rfl
  case rst_idle => exact fun _ => rfl

/-- Registers invalid and STATUS at its reset value (10_state.md R31). -/
theorem State.Inv.of_reset {s : State} (hwf : Memory.wf s.mem = true) (hin : Memory.InScratchpad s.cfg s.mem)
    (hwords : Memory.WholeWords s.mem) (hregs : ∀ r, s.torus r = none) (hst : s.status = Status.reset) :
    s.Inv where
  mem_wf := hwf
  mem_in := hin
  mem_words := hwords
  regs_exist r _ := hregs r
  regs_legal r p hp := by rw [hregs r] at hp; cases hp
  status_legal := hst ▸ rfl
  rst_idle _ := hst ▸ rfl

theorem State.Inv.of_reset_unwritten {s : State} (hmem : s.mem = []) (hregs : ∀ r, s.torus r = none)
    (hst : s.status = Status.reset) : s.Inv := by
  refine .of_reset ?_ ?_ ?_ hregs hst <;> rw [hmem]
  · rfl
  · exact fun c hc => absurd hc List.not_mem_nil
  · exact fun _ _ _ => rfl

theorem State.inv_resetOf (cfg : Config) : (State.resetOf cfg).Inv :=
  .of_reset_unwritten rfl (State.torus_resetOf cfg) rfl

theorem State.Inv.coreReset {s : State} (h : s.Inv) : s.coreReset.Inv :=
  .of_reset h.mem_wf h.mem_in h.mem_words s.torus_coreReset rfl

theorem State.Inv.setRst {s : State} (h : s.Inv) (b : Bool) : (s.setRst b).Inv :=
  .of_reset h.mem_wf h.mem_in h.mem_words (s.torus_setRst b) rfl

theorem State.inv_powerOn (s : State) : s.powerOn.Inv :=
  .of_reset_unwritten rfl s.torus_powerOn rfl

/-! Execute and the turns -/

theorem State.Inv.execute {s t : State} (h : s.Inv) (ht : execute s = .next t) : t.Inv := by
  rcases execute_cases ht with rfl | ⟨i, hi, ht⟩
  · exact h.raise (by decide)
  · cases answers_of_exec ht with
    | raised he => exact h.raise he
    | register _ _ hrd hlegal => exact h.commitTorus hrd (hlegal (one_le_lengthUsed_of_decode hi) h.regs_legal)
    | stored _ _ hfits => exact h.commitSpad hfits

theorem TurnEffect.inv {s t : State} {e : Event} (ht : TurnEffect s e t) (h : s.Inv) : t.Inv := by
  cases ht with
  | idle _ => exact h
  | executed _ ht => exact h.execute ht
  | rst b => exact h.setRst b
  | powerCycle => exact s.inv_powerOn
  | answered a r => exact h.respond r
  | refused a r _ => exact (h.withHaz true).respond r
  | softReset v _ => exact h.coreReset.respond _
  | clearedHaz v _ => exact (h.withHaz false).respond _
  | accepted c _ hr => exact (h.accept hr c).respond _
  | wroteRangeLo v _ => exact (h.withRange v s.rangeHi).respond _
  | wroteRangeHi v _ => exact (h.withRange s.rangeLo v).respond _
  | wroteWord w v _ hw => exact (h.writeWord hw v.toNat).respond _

end Sys2Proof.Machine

namespace Sys2Proof.Proofs

open Sys2Proof.Machine

/-- Settles O47: every effect a turn can have keeps the invariant; a command's length operand is at least 1
because it comes from a decoded word. -/
theorem stepKeepsInvariant : Obligations.StepKeepsInvariant := by
  intro s t h ht
  exact (step_effect ht).inv h.dequeue

/-- Settles O46: every register invalid, no byte listed, STATUS 0. -/
theorem resetHasInvariant : Obligations.ResetHasInvariant := State.inv_resetOf

end Sys2Proof.Proofs
end

section
/-! What an Execute ends, writes and keeps (10_state.md R16, R29; 41_polynomial_codec.md R73). -/

namespace Sys2Proof.Proofs

open Sys2Proof.Machine Sys2Proof.Claims

/-- Settles O10: Execute ends in an error, which changes STATUS alone, or in success; what a success may write is
the frame of the decoded command. -/
theorem executeEndsTheCommand : Obligations.ExecuteEndsTheCommand := by
  intro s t h
  obtain ⟨hcmd, hlo, hhi, hcfg, hrst, hresp, hevents, hhaz⟩ := execute_keepsControl h
  have hframe : ∀ i, decode s.cmd = .ok i → (∀ r, r ∉ destinations i → t.torus r = s.torus r) ∧
      ∀ o, (∀ p ∈ wordsStored s i, o < spadOffset p.1 ∨ spadOffset (p.1 + p.2) ≤ o) →
        readByte t.mem o = readByte s.mem o := fun i hi =>
    have hexec := execute_of_decode hi ▸ h
    ⟨fun _ => exec_torus hexec, fun _ => exec_readByte hexec⟩
  rcases execute_ends h with ⟨e, he, rfl⟩ | ⟨⟨i, hi⟩, hst, hone⟩
  · exact ⟨rfl, rfl, ⟨fun _ => he, fun _ => rfl⟩, hhaz, hcmd, hlo, hhi, hcfg, hrst, hresp, hevents, .inl rfl,
      fun _ => ⟨rfl, rfl⟩, fun _ _ => ⟨rfl, rfl⟩, hframe⟩
  · exact ⟨by rw [hst]; rfl, by rw [hst]; rfl, by simp [hst], hhaz, hcmd, hlo, hhi, hcfg, hrst, hresp, hevents,
      hone, by simp [hst], by simp [hi], hframe⟩

/-- Settles O24: the destination of each of these commands is RD, and they store to no scratchpad word. -/
theorem registerCommandsFrame : Obligations.RegisterCommandsFrame := by
  intro s t i rd hi h
  have hdest : destinations i = [rd] ∧ wordsStored s i = [] := by
    rcases hi with ⟨k, bcast, n, addr, rfl⟩ | ⟨bcast, n, addr, rfl⟩ | ⟨k, bcast, n, addr, rfl⟩ |
      ⟨rs1, rs2, rfl⟩ | ⟨rs1, rs2, rfl⟩ | ⟨rs1, rs2, k, rfl⟩ <;> exact ⟨rfl, rfl⟩
  obtain ⟨hdest, hwords⟩ := hdest
  obtain ⟨hcmd, hlo, hhi, hcfg, hrst, hresp, hevents, hhaz⟩ := exec_keepsControl h
  exact ⟨fun r hr => exec_torus h (by simpa [hdest] using hr), fun o => exec_readByte h (by simp [hwords]),
    hcmd, hlo, hhi, hcfg, hrst, hresp, hevents, hhaz⟩

/-- Settles O25: these commands have no destination register, and store to the len * s words from ADDR. -/
theorem decodeCommandsFrame : Obligations.DecodeCommandsFrame := by
  intro s t i rs1 k addr size hi h
  have hdest : destinations i = [] ∧ wordsStored s i = [(addr, s.len rs1 * size)] := by
    rcases hi with ⟨rfl, rfl⟩ | ⟨rfl, rfl⟩ | ⟨rfl, rfl⟩ <;> simp [destinations, wordsStored]
  obtain ⟨hdest, hwords⟩ := hdest
  obtain ⟨hcmd, hlo, hhi, hcfg, hrst, hresp, hevents, hhaz⟩ := exec_keepsControl h
  exact ⟨fun r => exec_torus h (by simp [hdest]), fun o ho => exec_readByte h (by simpa [hwords] using ho),
    hcmd, hlo, hhi, hcfg, hrst, hresp, hevents, hhaz⟩

end Sys2Proof.Proofs
end

section
/-! What a step can do to valid bits, CMD, HAZ and the configuration (10_state.md R17, R24 to R26). -/

namespace Sys2Proof.Machine

open Sys2Proof.Claims

theorem TurnEffect.cfg {s t : State} {e : Event} (h : TurnEffect s e t) : t.cfg = s.cfg := by
  cases h with
  | executed _ h => exact (execute_keepsControl h).cfg
  | _ => rfl

theorem TurnEffect.isReset_or_valid {s t : State} {e : Event} (h : TurnEffect s e t) {r : Nat}
    (hv : (s.torus r).isSome = true) : isReset e ∨ (t.torus r).isSome = true := by
  cases h with
  | executed _ h => exact .inr (execute_valid h hv)
  | rst b => exact .inl trivial
  | powerCycle => exact .inl trivial
  | softReset v hbit => exact .inl ⟨v, rfl, hbit⟩
  | _ => exact .inr hv

theorem TurnEffect.cmd_cases {s t : State} {e : Event} (h : TurnEffect s e t) :
    isReset e ∨ (∃ c, e = .host (writeAt 0x00008 c) ∧ s.status.busy = false ∧ t.cmd = c) ∨ t.cmd = s.cmd := by
  cases h with
  | executed _ h => exact .inr (.inr (execute_keepsControl h).cmd)
  | rst b => exact .inl trivial
  | powerCycle => exact .inl trivial
  | softReset v hbit => exact .inl ⟨v, rfl, hbit⟩
  | accepted c hb _ => exact .inr (.inl ⟨c, rfl, hb, rfl⟩)
  | _ => exact .inr (.inr rfl)

/-- A reset, or a CTRL write with CLRHAZ. -/
def clearsHaz (e : Event) : Prop :=
  isReset e ∨ ∃ v : Word, e = .host (writeAt 0x00018 v) ∧ v.getLsbD 1 = true

theorem TurnEffect.haz_cases {s t : State} {e : Event} (h : TurnEffect s e t) :
    (clearsHaz e ∧ t.status.haz = false) ∨
      (s.status.busy = true ∧ (∃ a, e = .host a) ∧ t.status.haz = true) ∨ t.status.haz = s.status.haz := by
  cases h with
  | executed _ h => exact .inr (.inr (execute_keepsControl h).haz)
  | rst b => exact .inl ⟨.inl trivial, rfl⟩
  | powerCycle => exact .inl ⟨.inl trivial, rfl⟩
  | refused a r hb => exact .inr (.inl ⟨hb, ⟨a, rfl⟩, rfl⟩)
  | softReset v hbit => exact .inl ⟨.inl ⟨v, rfl, hbit⟩, rfl⟩
  | clearedHaz v hbit => exact .inl ⟨.inr ⟨v, rfl, hbit⟩, rfl⟩
  | _ => exact .inr (.inr rfl)

/-- The core's turn is no reset and no host access. -/
theorem State.events_of_clearsHaz {s : State} (h : clearsHaz s.nextTurn) :
    ∃ e rest, s.events = e :: rest ∧ clearsHaz e := by
  have hne : s.nextTurn ≠ .core := by
    intro hcore
    rw [hcore] at h
    rcases h with h | ⟨v, h, -⟩
    · exact h
    · cases h
  obtain ⟨rest, hq⟩ := State.events_of_nextTurn rfl hne
  exact ⟨_, rest, hq, h⟩

theorem State.events_of_isReset {s : State} (h : isReset s.nextTurn) :
    ∃ e rest, s.events = e :: rest ∧ isReset e := by
  have hne : s.nextTurn ≠ .core := fun hcore => by rw [hcore] at h; exact h
  obtain ⟨rest, hq⟩ := State.events_of_nextTurn rfl hne
  exact ⟨_, rest, hq, h⟩

end Sys2Proof.Machine

namespace Sys2Proof.Proofs

open Sys2Proof.Machine

/-- Settles O43: no effect of a turn writes the configuration. -/
theorem stepKeepsConfiguration : Obligations.StepKeepsConfiguration := by
  intro s t h
  exact (step_effect h).cfg

/-- Settles O40: every effect of a turn that is no reset keeps a valid register valid. -/
theorem onlyResetClearsValid : Obligations.OnlyResetClearsValid := by
  intro s t r h hs ht
  rcases (step_effect h).isReset_or_valid hs with hreset | hv
  · exact State.events_of_isReset hreset
  · rw [hv] at ht
    cases ht

/-- Settles O41: of a turn's effects only the resets and the accept write CMD. -/
theorem cmdChangesOnlyOnAccept : Obligations.CmdChangesOnlyOnAccept := by
  intro s t h hne
  rcases (step_effect h).cmd_cases with hreset | ⟨c, he, hb, hc⟩ | hsame
  · obtain ⟨e, rest, hq, he⟩ := State.events_of_isReset hreset
    exact ⟨e, rest, hq, .inl he⟩
  · obtain ⟨rest, hq⟩ := State.events_of_nextTurn he (by simp)
    exact ⟨_, rest, hq, .inr ⟨c, rfl, hb, hc⟩⟩
  · exact absurd hsame hne

/-- Settles O42: a turn clears HAZ by a reset or CLRHAZ, sets it by an access refused while BUSY, or keeps it. -/
theorem hazIsSticky : Obligations.HazIsSticky := by
  intro s t h
  rcases (step_effect h).haz_cases with ⟨hclear, ht⟩ | ⟨hb, ⟨a, he⟩, ht⟩ | hsame
  · exact ⟨fun _ _ => State.events_of_clearsHaz hclear, fun _ ht' => by simp [ht] at ht'⟩
  · obtain ⟨rest, hq⟩ := State.events_of_nextTurn he (by simp)
    exact ⟨fun _ ht' => by simp [ht] at ht', fun _ _ => ⟨hb, a, rest, hq⟩⟩
  · rw [hsame, State.dequeue_status]
    exact ⟨fun hs hs' => by simp [hs] at hs', fun hs hs' => by simp [hs] at hs'⟩

/-- Settles O7: a pending command with `rst` released enables Execute. -/
theorem stepRunsDecodedCommand : Obligations.StepRunsDecodedCommand := by
  intro s rest i hb hr hi
  have hturn : ∀ q, coreTurn { s with events := q } = exec i { s with events := q } := fun q =>
    (coreTurn_of_enabled (by simp [State.executeEnabled, hb, hr])).trans (execute_of_decode hi)
  exact ⟨hturn rest, hturn []⟩

/-- Settles O9: each turn's meaning is read off the queue; an IDLE core is not enabled. -/
theorem stepTakesTurnsInOrder : Obligations.StepTakesTurnsInOrder := by
  intro s rest
  refine ⟨fun a => rfl, fun b => rfl, rfl, fun hb => ⟨?_, fun hq => ?_⟩⟩
  · exact coreTurn_of_not_enabled (by simp [State.executeEnabled, hb])
  · simp only [step, hq]
    exact coreTurn_of_not_enabled (by simp [State.executeEnabled, hb])

end Sys2Proof.Proofs
end

section
/-! The control and status registers as the host sees them (10_state.md R22 to R28, R31). -/

namespace Sys2Proof.Machine

open Sys2Proof.Claims

/-! Fields of a word -/

theorem extractLsb_toNat_eq {c : Word} {hi lo v : Nat} (h : c.toNat / 2 ^ lo % 2 ^ (hi - lo + 1) = v) :
    (c.extractLsb hi lo).toNat = v := by
  rw [BitVec.extractLsb_toNat, Nat.shiftRight_eq_div_pow, h]

theorem extractLsb_eq_zero {c : Word} {hi lo : Nat} (h : c.toNat / 2 ^ lo % 2 ^ (hi - lo + 1) = 0) :
    c.extractLsb hi lo = 0 :=
  BitVec.eq_of_toNat_eq (by rw [extractLsb_toNat_eq h]; simp)

theorem getLsbD_eq {c : Word} {i : Nat} {b : Bool} (h : c.toNat / 2 ^ i % 2 = b.toNat) : c.getLsbD i = b := by
  rw [BitVec.getLsbD, Nat.testBit_eq_decide_div_mod_eq, h]
  cases b <;> rfl

/-! CAP (10_state.md R24) -/

theorem realTieBit_eq (t : RealTie) : realTieBit t = (decide (t = .halfEven)).toNat := by cases t <;> rfl

theorem mulImplBit_eq (m : MulImpl) : mulImplBit m = (decide (m = .transform)).toNat := by cases m <;> rfl

/-- Each parameter stands in its own field of CAP, and the reserved bits are 0. -/
theorem capWord_fields (cfg : Config) :
    ((capWord cfg).extractLsb 7 0).toNat = cfg.w ∧ ((capWord cfg).extractLsb 15 8).toNat = cfg.npreg ∧
      ((capWord cfg).extractLsb 31 16).toNat = cfg.nmax - 1 ∧
      ((capWord cfg).extractLsb 47 32).toNat = cfg.spadWords - 1 ∧
      (capWord cfg).getLsbD 48 = cfg.fencQuant ∧ (capWord cfg).getLsbD 49 = decide (cfg.realTie = .halfEven) ∧
      (capWord cfg).getLsbD 50 = decide (cfg.mulImpl = .transform) ∧ (capWord cfg).extractLsb 55 51 = 0 ∧
      ((capWord cfg).extractLsb 63 56).toNat = 1 := by
  have hw := cfg.w_cases
  have hp := cfg.npreg_le
  have hn := cfg.nmax_le
  have hs := cfg.spadWords_le
  have hf := Bool.toNat_lt cfg.fencQuant
  have ht := Bool.toNat_lt (decide (cfg.realTie = .halfEven))
  have hm := Bool.toNat_lt (decide (cfg.mulImpl = .transform))
  refine ⟨extractLsb_toNat_eq ?_, extractLsb_toNat_eq ?_, extractLsb_toNat_eq ?_, extractLsb_toNat_eq ?_,
    getLsbD_eq ?_, getLsbD_eq ?_, getLsbD_eq ?_, extractLsb_eq_zero ?_, extractLsb_toNat_eq ?_⟩
  all_goals
    rw [capWord, realTieBit_eq, mulImplBit_eq, BitVec.toNat_ofNat]
    omega

/-! STATUS (10_state.md R26) -/

theorem ErrorCode.toNat_lt (e : ErrorCode) : e.toNat < 2 ^ 8 := by cases e <;> decide

/-- Each bit and the code of STATUS stand in their own fields, and the other bits are 0. -/
theorem Status.word_fields (st : Status) :
    st.word.getLsbD 0 = st.busy ∧ st.word.getLsbD 1 = st.done ∧ st.word.getLsbD 2 = st.err ∧
      st.word.extractLsb 7 3 = 0 ∧ st.word.getLsbD 16 = st.haz ∧ st.word.extractLsb 63 17 = 0 ∧
      (st.word.extractLsb 15 8).toNat = st.ecode.toNat := by
  have hb := Bool.toNat_lt st.busy
  have hd := Bool.toNat_lt st.done
  have he := Bool.toNat_lt st.err
  have hc := st.ecode.toNat_lt
  have hh := Bool.toNat_lt st.haz
  refine ⟨getLsbD_eq ?_, getLsbD_eq ?_, getLsbD_eq ?_, extractLsb_eq_zero ?_, getLsbD_eq ?_,
    extractLsb_eq_zero ?_, extractLsb_toNat_eq ?_⟩
  all_goals
    rw [Status.word, BitVec.toNat_ofNat]
    omega

/-! Accesses to the six words (20_memory.md R36) -/

theorem writeUnlessBusy_of_idle {s : State} (h : s.status.busy = false) (idle : State) :
    writeUnlessBusy s idle = answerWrite idle := by
  simp [writeUnlessBusy, h]

section
variable {s : State} (hr : s.rst = false)
include hr

theorem hostAccess_readAt_csr {off : Nat} (ho : off < 0x30) {t : Target} (ht : targetAt s.cfg off = some t) :
    hostAccess (readAt off) s = hostRead s t :=
  hostAccess_read hr (by omega) ht

theorem hostAccess_writeAt_csr {off : Nat} (ho : off < 0x30) {t : Target} (ht : targetAt s.cfg off = some t)
    (v : Word) : hostAccess (writeAt off v) s = hostWrite s v t :=
  hostAccess_write hr (by omega) ht v

/-- CTRL stores nothing: it reads 0 (10_state.md R23). -/
theorem hostAccess_readAt_ctrl : hostAccess (readAt 0x00018) s = .next (answered s (.data 0)) :=
  hostAccess_readAt_csr hr (by decide) (targetAt_ctrl _)

theorem hostAccess_writeAt_ctrl (v : Word) :
    hostAccess (writeAt 0x00018 v) s = .next (answered (s.writeCtrl v) .done) :=
  hostAccess_writeAt_csr hr (by decide) (targetAt_ctrl _) v

end

end Sys2Proof.Machine

namespace Sys2Proof.Proofs

open Sys2Proof.Machine

/-- Settles O34: the sum CAP is built from has each parameter below the next field's weight. -/
theorem capFields : Obligations.CapFields := by
  refine ⟨fun s t h => by rw [(step_effect h).cfg, State.dequeue_cfg], fun s hr => ?_⟩
  obtain ⟨hw, hp, hn, hs, hf, ht, hm, hz, hv⟩ := capWord_fields s.cfg
  exact ⟨capWord s.cfg, hostAccess_readAt_csr hr (by decide) (targetAt_cap _), hw, hp, hn, hs, hf,
    by rw [ht, decide_eq_true_eq], by rw [hm, decide_eq_true_eq], hz, hv⟩

/-- Settles O35: the same for STATUS, whose code is below 2^8. -/
theorem statusFields : Obligations.StatusFields := by
  intro s hr
  obtain ⟨hb, hd, he, hz, hh, hz', hc⟩ := s.status.word_fields
  refine ⟨s.status.word, hostAccess_readAt_csr hr (by decide) (targetAt_status _), hb, hd, he, hz, hh, hz', ?_⟩
  rw [hc]
  cases s.status.ecode <;> rfl

/-- Settles O28: writes to these two targets have no branch on BUSY. -/
theorem readOnlyRegisters : Obligations.ReadOnlyRegisters := by
  intro s hr
  exact ⟨fun v => ⟨hostAccess_writeAt_csr hr (by decide) (targetAt_cap _) v,
    hostAccess_writeAt_csr hr (by decide) (targetAt_status _) v⟩, hostAccess_readAt_ctrl hr⟩

/-- Settles O29: by the three branches of a CTRL write. -/
theorem ctrlActions : Obligations.CtrlActions := by
  intro s v hr
  rw [hostAccess_writeAt_ctrl hr]
  refine ⟨fun h0 => ?_, fun h0 h1 => ?_, fun h0 h1 => ?_, hostAccess_readAt_ctrl hr⟩
  · rw [State.writeCtrl, if_pos h0]
    rfl
  · rw [State.writeCtrl, h0, if_neg (by decide), if_pos h1]
  · rw [State.writeCtrl, h0, h1, if_neg (by decide), if_neg (by decide)]

/-- Settles O32: by evaluating the reset state. -/
theorem resetValues : Obligations.ResetValues :=
  ⟨State.torus_resetOf _, rfl, by decide, rfl, rfl, fun _ => rfl, rfl, by decide⟩

/-- Settles O36: a RANGE write meets an IDLE core, so it is not refused. -/
theorem rangeRegisters : Obligations.RangeRegisters := by
  intro s v hr hb
  exact ⟨(hostAccess_writeAt_csr hr (by decide) (targetAt_rangeLo _) v).trans (writeUnlessBusy_of_idle hb _),
    (hostAccess_writeAt_csr hr (by decide) (targetAt_rangeHi _) v).trans (writeUnlessBusy_of_idle hb _),
    hostAccess_readAt_csr hr (by decide) (targetAt_rangeLo _),
    hostAccess_readAt_csr hr (by decide) (targetAt_rangeHi _)⟩

end Sys2Proof.Proofs
end

section
/-! The canonical form of the scratchpad: offsets strictly rising, in every turn's effect (20_memory.md R33, R35). -/

namespace Sys2Proof.Machine

/-- Of what Execute can answer, only a decode command's stores write memory, and element writes keep the form. -/
theorem execute_wf_mem {s t : State} (h : execute s = .next t) (hwf : Memory.wf s.mem = true) :
    Memory.wf t.mem = true := by
  rcases execute_cases h with rfl | ⟨i, -, h⟩
  · exact hwf
  · cases answers_of_exec h with
    | raised _ => exact hwf
    | register => exact hwf
    | stored => exact Memory.wf_writeElements hwf _ _ _

theorem TurnEffect.wf_mem {s t : State} {e : Event} (h : TurnEffect s e t) (hwf : Memory.wf s.mem = true) :
    Memory.wf t.mem = true := by
  cases h with
  | executed _ h => exact execute_wf_mem h hwf
  | powerCycle => rfl
  | wroteWord w v => exact Memory.wf_writeWord hwf w v.toNat
  | _ => exact hwf

end Sys2Proof.Machine

namespace Sys2Proof.Proofs

open Sys2Proof.Machine

/-- Settles O45: a turn's effect keeps the bytes, empties them, or writes words or elements in order. -/
theorem stepKeepsMemoryCanonical : Obligations.StepKeepsMemoryCanonical := by
  intro s t hwf h
  exact (step_effect h).wf_mem hwf

end Sys2Proof.Proofs
end

section
/-! Host accesses: which are bus errors, what BUSY refuses, and the scratchpad's words (20_memory.md R33 to R39). -/

namespace Sys2Proof.Machine

open Sys2Proof.Claims

/-! Which accesses reach a target (20_memory.md R34, R36) -/

theorem lt_spadWords_of_targetAt {cfg : Config} {off w : Nat} (h : targetAt cfg off = some (.spad w)) :
    w < cfg.spadWords := by
  rcases targetAt_cases h with ⟨-, -, hne⟩ | ⟨w', hw, -, heq⟩
  · exact absurd rfl (hne w)
  · cases heq
    exact hw

theorem exists_targetAt_iff_mapped {cfg : Config} {off : Nat} :
    (∃ t, targetAt cfg off = some t) ↔ Mapped cfg off := by
  constructor
  · rintro ⟨t, h⟩
    rcases targetAt_cases h with ⟨hoff, hal, -⟩ | ⟨w, hw, rfl, -⟩
    · exact ⟨hal, .inl hoff⟩
    · unfold Mapped spadOffset
      omega
  · rintro ⟨hal, hoff | ⟨hlo, hhi⟩⟩
    · have hcsr : off = 0x00 ∨ off = 0x08 ∨ off = 0x10 ∨ off = 0x18 ∨ off = 0x20 ∨ off = 0x28 := by omega
      rcases hcsr with rfl | rfl | rfl | rfl | rfl | rfl <;> exact ⟨_, rfl⟩
    · have hw : off = spadOffset ((off - 0x40000) / 8) := by unfold spadOffset; omega
      rw [hw]
      exact ⟨_, targetAt_spad cfg (by omega)⟩

theorem Access.exists_target_iff {cfg : Config} {a : Access} :
    (∃ t, a.target cfg = some t) ↔ a.width = 64 ∧ a.strobe = 0xFF ∧ Mapped cfg a.offset.toNat := by
  rw [← exists_targetAt_iff_mapped]
  constructor
  · rintro ⟨t, h⟩
    obtain ⟨hw, hs, ht⟩ := Access.target_eq_some h
    exact ⟨hw, hs, t, ht⟩
  · rintro ⟨hw, hs, t, ht⟩
    exact ⟨t, by simp [Access.target, Access.fullWord, hw, hs, ht]⟩

/-- A read that reaches a target is the full-word read at its offset (20_memory.md R36). -/
theorem Access.eq_readAt {cfg : Config} {a : Access} {t : Target} (hk : a.kind = .read)
    (ht : a.target cfg = some t) : a = readAt t.offset := by
  obtain ⟨hw, hs, hoff⟩ := Access.target_eq_some ht
  obtain ⟨kind, offset, width, strobe⟩ := a
  simp only at hk hw hs hoff
  rw [readAt, ← targetAt_offset hoff, hk, hw, hs, BitVec.ofNat_toNat, BitVec.setWidth_eq]

/-! What is answered -/

theorem hostRead_answers_data {s t : State} {tg : Target} (h : hostRead s tg = .next t) :
    ∃ v, t.resp = some (.data v) := by
  rcases hostRead_cases s tg with ⟨v, h'⟩ | ⟨-, -, h'⟩ | ⟨-, -, h'⟩
  · cases h'.symm.trans h
    exact ⟨v, rfl⟩
  · cases h'.symm.trans h
    exact ⟨0, rfl⟩
  · cases h'.symm.trans h

theorem hostWrite_answers_done {s t : State} {v : Word} {tg : Target} (h : hostWrite s v tg = .next t) :
    t.resp = some .done := by
  obtain ⟨u, h', -⟩ := hostWrite_cases s v tg
  cases h'.symm.trans h
  rfl

/-! What BUSY decides (20_memory.md R38) -/

theorem writeUnlessBusy_of_busy {s : State} (h : s.status.busy = true) (idle : State) :
    writeUnlessBusy s idle = .next (answered (withHaz s) .done) := by
  rw [writeUnlessBusy, if_pos h]
  rfl

theorem readSpad_of_busy {s : State} (h : s.status.busy = true) (w : Nat) :
    readSpad s w = .next (answered (withHaz s) (.data 0)) := by
  rw [readSpad, if_pos h]
  rfl

theorem readSpad_of_idle {s : State} (h : s.status.busy = false) {w v : Nat} (hw : readWord s.mem w = some v) :
    readSpad s w = .next (answered s (.data (BitVec.ofNat 64 v))) := by
  simp only [readSpad, h, hw]
  rfl

section
variable {s : State} (hr : s.rst = false)
include hr

theorem hostAccess_readAt_spad {w : Nat} (hw : w < s.cfg.spadWords) :
    hostAccess (readAt (spadOffset w)) s = readSpad s w :=
  hostAccess_read hr (spadOffset_lt hw) (targetAt_spad _ hw)

theorem hostAccess_writeAt_spad {w : Nat} (hw : w < s.cfg.spadWords) (v : Word) :
    hostAccess (writeAt (spadOffset w) v) s =
      writeUnlessBusy s { s with mem := writeWord s.mem w v.toNat } :=
  hostAccess_write hr (spadOffset_lt hw) (targetAt_spad _ hw) v

/-- A read of a written word while IDLE answers the word (20_memory.md R37). -/
theorem hostAccess_readAt_spad_of_idle (hb : s.status.busy = false) {w : Nat} (hw : w < s.cfg.spadWords)
    {v : Word} (hv : readWord s.mem w = some v.toNat) :
    hostAccess (readAt (spadOffset w)) s = .next (answered s (.data v)) := by
  rw [hostAccess_readAt_spad hr hw, readSpad_of_idle hb hv, BitVec.ofNat_toNat, BitVec.setWidth_eq]

/-- A control register's write that BUSY guards is dropped while BUSY, and sets HAZ. -/
theorem hostAccess_writeAt_csr_of_busy (hb : s.status.busy = true) {off : Nat} (ho : off < 0x30) {tg : Target}
    (htg : targetAt s.cfg off = some tg) {v : Word} {idle : State}
    (hguard : hostWrite s v tg = writeUnlessBusy s idle) :
    hostAccess (writeAt off v) s = .next (answered (withHaz s) .done) := by
  rw [hostAccess_writeAt_csr hr ho htg, hguard, writeUnlessBusy_of_busy hb]

/-- A CMD write to an IDLE core is the accept, whatever the word (20_memory.md R39). -/
theorem hostAccess_writeAt_cmd_of_idle (hb : s.status.busy = false) (c : Word) :
    hostAccess (writeAt 0x00008 c) s = .next (answered (s.accept c) .done) :=
  (hostAccess_writeAt_csr hr (by decide) (targetAt_cmd _) c).trans (writeUnlessBusy_of_idle hb _)

end

/-- No access that leaves a command pending changes what that command sees (20_memory.md R38). -/
theorem TurnEffect.host_keeps_pending {s t : State} {a : Access} (h : TurnEffect s (.host a) t)
    (hs : s.status.busy = true) (ht : t.status.busy = true) :
    t.mem = s.mem ∧ t.rangeLo = s.rangeLo ∧ t.rangeHi = s.rangeHi ∧ t.cmd = s.cmd ∧ t.regs = s.regs := by
  cases h with
  | answered a r => exact ⟨rfl, rfl, rfl, rfl, rfl⟩
  | refused a r hb => exact ⟨rfl, rfl, rfl, rfl, rfl⟩
  | clearedHaz v hv => exact ⟨rfl, rfl, rfl, rfl, rfl⟩
  | softReset v hv => cases ht
  | accepted c hb hr => cases hs.symm.trans hb
  | wroteRangeLo v hb => cases hs.symm.trans hb
  | wroteRangeHi v hb => cases hs.symm.trans hb
  | wroteWord w v hb hw => cases hs.symm.trans hb

/-! The bytes of a word write (20_memory.md R35) -/

/-- Byte i of a written word is bits [8i+7:8i]. -/
theorem readByte_writeWord_inside (m : Memory) (w : Nat) (v : Word) {i : Nat} (hi : i < 8) :
    readByte (writeWord m w v.toNat) (spadOffset w + i) = some (v.extractLsb' (8 * i) 8) := by
  rw [writeWord, readByte_writeBytes_inside hi, BitVec.extractLsb', Nat.shiftRight_eq_div_pow]

end Sys2Proof.Machine

namespace Sys2Proof.Proofs

open Sys2Proof.Machine Sys2Proof.Claims

/-- Settles O27: each row of the table is its target's arm; of the effects an access can have, those that write what
a command sees need an IDLE core, or are the soft reset, which leaves none pending. -/
theorem accessesWhileBusy : Obligations.AccessesWhileBusy := by
  refine ⟨fun s hr hb => ?_, fun s t a hs h ht => ?_⟩
  · refine ⟨hostAccess_readAt_csr hr (by decide) (targetAt_cap _),
      hostAccess_readAt_csr hr (by decide) (targetAt_status _),
      hostAccess_readAt_csr hr (by decide) (targetAt_cmd _),
      hostAccess_readAt_csr hr (by decide) (targetAt_rangeLo _),
      hostAccess_readAt_csr hr (by decide) (targetAt_rangeHi _), fun v => ⟨hostAccess_writeAt_ctrl hr v,
        hostAccess_writeAt_csr hr (by decide) (targetAt_cap _) v,
        hostAccess_writeAt_csr hr (by decide) (targetAt_status _) v,
        hostAccess_writeAt_csr_of_busy hr hb (by decide) (targetAt_cmd _) rfl,
        hostAccess_writeAt_csr_of_busy hr hb (by decide) (targetAt_rangeLo _) rfl,
        hostAccess_writeAt_csr_of_busy hr hb (by decide) (targetAt_rangeHi _) rfl⟩, fun w hw => ⟨?_, fun v => ?_⟩⟩
    · exact (hostAccess_readAt_spad hr hw).trans (readSpad_of_busy hb w)
    · exact (hostAccess_writeAt_spad hr hw v).trans (writeUnlessBusy_of_busy hb _)
  · exact (takeTurn_effect (e := .host a) h).host_keeps_pending hs ht

/-- Settles O33: the accesses that reach a target are the full-word ones at mapped offsets; a read of a target
answers data and a write completion. -/
theorem busErrors : Obligations.BusErrors := by
  refine fun s a hr => ⟨fun hbad => ?_, fun hw hs hm t h => ?_⟩
  · rcases hostAccess_cases a s with ⟨hr', -⟩ | ⟨-, -, h⟩ | ⟨-, tg, -, htg, -⟩
    · cases hr.symm.trans hr'
    · exact h
    · exact absurd (Access.exists_target_iff.1 ⟨tg, htg⟩) hbad
  · rcases hostAccess_cases a s with ⟨hr', -⟩ | ⟨-, hnone, -⟩ | ⟨-, tg, -, -, ⟨hk, h'⟩ | ⟨v, hk, h'⟩⟩
    · cases hr.symm.trans hr'
    · obtain ⟨tg, htg⟩ := Access.exists_target_iff.2 ⟨hw, hs, hm⟩
      cases hnone.symm.trans htg
    · exact .inr ⟨hk, hostRead_answers_data (h'.symm.trans h)⟩
    · exact .inl ⟨hostWrite_answers_done (h'.symm.trans h), v, hk⟩

/-- Settles O37: the memory left is that of the word write. -/
theorem scratchpadWriteAndRead : Obligations.ScratchpadWriteAndRead := by
  intro s w v hr hb hw
  refine ⟨writeWord s.mem w v.toNat, (hostAccess_writeAt_spad hr hw v).trans (writeUnlessBusy_of_idle hb _),
    fun i hi => readByte_writeWord_inside _ w v hi, fun o ho => readByte_writeWord_outside ho, ?_⟩
  exact hostAccess_readAt_spad_of_idle (s := { s with mem := writeWord s.mem w v.toNat }) hr hb hw
    (by rw [readWord_writeWord, if_pos rfl, Nat.mod_eq_of_lt v.isLt])

/-- Settles O39: of the reads only one refused while BUSY leaves more than its answer, and it is a scratchpad
word's. -/
theorem readsHaveNoSideEffect : Obligations.ReadsHaveNoSideEffect := by
  intro s t a hk h
  rcases hostAccess_cases a s with ⟨-, h'⟩ | ⟨-, -, h'⟩ | ⟨-, tg, hat, htg, ⟨-, h'⟩ | ⟨v, hk', -⟩⟩
  · cases h'.symm.trans h
  · cases h'.symm.trans h
    exact .inl rfl
  · rw [h'] at h
    rcases hostRead_cases s tg with ⟨v, hv⟩ | ⟨hb, ⟨w, rfl⟩, hz⟩ | ⟨-, -, hf⟩
    · cases hv.symm.trans h
      exact .inl rfl
    · cases hz.symm.trans h
      exact .inr ⟨hb, ⟨w, lt_spadWords_of_targetAt hat, Access.eq_readAt hk htg⟩, rfl⟩
    · cases hf.symm.trans h
  · cases hk.symm.trans hk'

/-- Settles O26: the accept, which no branch on the word guards. -/
theorem cmdWriteAccepts : Obligations.CmdWriteAccepts := by
  intro s c hr hb
  exact hostAccess_writeAt_cmd_of_idle hr hb c

/-- Settles O8: the CMD write accepts the word, and the core's turn then runs what CMD decodes to. -/
theorem issuedCommandRuns : Obligations.IssuedCommandRuns := by
  intro s t rest c i hb hr hq hi h
  have haccept : step s = .next (answered ({ s with events := .core :: rest }.accept c) .done) := by
    simp only [step, hq]
    exact hostAccess_writeAt_cmd_of_idle (s := { s with events := .core :: rest }) hr hb c
  cases haccept.symm.trans h
  exact (stepRunsDecodedCommand (answered (s.accept c) .done) rest i rfl hr hi).1

end Sys2Proof.Proofs
end

section
/-! What a command word means, said once from its OP and its reserved fields (30_encoding.md R45 to R50). -/

namespace Sys2Proof

open Sys2Proof.Laws.EncodedFields Sys2Proof.Machine

/-! Fields as slices (00_scope.md R7) -/

theorem toNat_extractLsb_eq_slice {c : Word} {hi lo : Nat} (h : lo ≤ hi) :
    (c.extractLsb hi lo).toNat = slice c hi lo :=
  extractLsb_toNat_eq (by rw [slice, Nat.sub_add_comm h])

theorem extractLsb_eq_zero_iff_slice {c : Word} {hi lo : Nat} (h : lo ≤ hi) :
    c.extractLsb hi lo = 0 ↔ slice c hi lo = 0 := by
  rw [← BitVec.toNat_inj, toNat_extractLsb_eq_slice h]
  simp

theorem slice_and (c m : Word) (hi lo : Nat) : slice (c &&& m) hi lo = slice c hi lo &&& slice m hi lo := by
  simp only [slice, BitVec.toNat_and, Nat.and_div_two_pow, Nat.and_mod_two_pow]

/-- A mask that covers a field compares the whole field. -/
theorem slice_eq_of_and_eq {c m v : Word} {hi lo : Nat} (h : c &&& m = v)
    (hm : slice m hi lo = 2 ^ (hi + 1 - lo) - 1) : slice c hi lo = slice v hi lo := by
  rw [← h, slice_and, hm, Nat.and_two_pow_sub_one_eq_mod, slice, Nat.mod_mod]

theorem slice_eq_field (c : Word) :
    slice c 5 0 = opOf c ∧ slice c 11 6 = rdOf c ∧ slice c 17 12 = rs1Of c ∧ slice c 23 18 = rs2Of c ∧
      slice c 31 24 = kOf c ∧ slice c 32 32 = bOf c ∧ slice c 48 33 = lenOf c ∧ slice c 63 49 = addrOf c :=
  ⟨rfl, rfl, rfl, rfl, rfl, rfl, rfl, rfl⟩

theorem toNat_bOf_beq_one (c : Word) : (bOf c == 1).toNat = bOf c := by
  have hb := (fieldsFit_of_word c).b
  interval_cases bOf c <;> rfl

theorem getLsbD_eq_bOf (c : Word) : c.getLsbD 32 = (bOf c == 1) :=
  getLsbD_eq (toNat_bOf_beq_one c).symm

theorem toNat_beq_one (b : Bool) : (b.toNat == 1) = b := by cases b <;> rfl

/-- The eight fields are the whole word (30_encoding.md R45). -/
theorem assemble_fields (c : Word) :
    assemble (opOf c) (rdOf c) (rs1Of c) (rs2Of c) (kOf c) (bOf c) (lenOf c) (addrOf c) = c := by
  refine BitVec.eq_of_toNat_eq ?_
  have hc : c.toNat < 2 ^ 64 := c.isLt
  rw [assemble_toNat (fieldsFit_of_word c)]
  simp only [opOf, rdOf, rs1Of, rs2Of, kOf, bOf, lenOf, addrOf, slice]
  omega

/-! The decoder by OP -/

/-- A command like `i`, its operands read from the word `c`. -/
def operandsFrom (c : Word) : Instr → Instr
  | .pencI .. => .pencI (rdOf c) (kOf c) (bOf c == 1) (lenOf c + 1) (addrOf c)
  | .pencR .. => .pencR (rdOf c) (bOf c == 1) (lenOf c + 1) (addrOf c)
  | .pencF .. => .pencF (rdOf c) (kOf c) (bOf c == 1) (lenOf c + 1) (addrOf c)
  | .pdecI .. => .pdecI (rs1Of c) (kOf c) (addrOf c)
  | .pdecR .. => .pdecR (rs1Of c) (kOf c) (addrOf c)
  | .pdecF .. => .pdecF (rs1Of c) (kOf c) (addrOf c)
  | .tadd .. => .tadd (rdOf c) (rs1Of c) (rs2Of c)
  | .tsub .. => .tsub (rdOf c) (rs1Of c) (rs2Of c)
  | .tmul .. => .tmul (rdOf c) (rs1Of c) (rs2Of c) (kOf c)

theorem ifReservedZero_of_zero {c : Word} {zs : List Nat} (h : ∀ z ∈ zs, z = 0) (i : Instr) :
    ifReservedZero c zs i = .ok i :=
  if_pos (by simpa using h)

theorem zero_of_ifReservedZero {c : Word} {zs : List Nat} {i j : Instr} (h : ifReservedZero c zs i = .ok j) :
    ∀ z ∈ zs, z = 0 := by
  unfold ifReservedZero at h
  split at h
  case isTrue hz => simpa using hz
  case isFalse => cases h

theorem decode_of_opcode {c : Word} {i : Instr} (h : opOf c = opcode i) :
    decode c = ifReservedZero c ((reserved i).map fun f => slice c f.1 f.2) (operandsFrom c i) := by
  cases i <;> simp only [decode, h, opcode] <;> rfl

theorem opOf_of_decode {c : Word} {i : Instr} (h : decode c = .ok i) : opOf c = opcode i := by
  unfold decode at h
  split at h
  case h_10 => cases h
  all_goals
    obtain rfl := ifReservedZero_eq_ok h
    assumption

/-- A word is the command `i` exactly when OP is `i`'s, the fields `i` does not use are 0, and `i` has the word's
operands (30_encoding.md R46 to R49). -/
theorem decode_eq_ok_iff {c : Word} {i : Instr} :
    decode c = .ok i ↔
      opOf c = opcode i ∧ (∀ f ∈ reserved i, slice c f.1 f.2 = 0) ∧ operandsFrom c i = i := by
  constructor
  · intro h
    have hop := opOf_of_decode h
    rw [decode_of_opcode hop] at h
    exact ⟨hop, List.forall_mem_map.1 (zero_of_ifReservedZero h), ifReservedZero_eq_ok h⟩
  · rintro ⟨hop, hz, hi⟩
    rw [decode_of_opcode hop, ifReservedZero_of_zero (List.forall_mem_map.2 hz), hi]

/-- A masked word that agrees with `v`, where the mask covers OP and every field `i` leaves 0, is a command like
`i`. -/
theorem decode_of_masked {c m v : Word} (h : c &&& m = v) {i : Instr}
    (hm : ∀ f ∈ (5, 0) :: reserved i, slice m f.1 f.2 = 2 ^ (f.1 + 1 - f.2) - 1)
    (hv : opOf v = opcode i ∧ ∀ f ∈ reserved i, slice v f.1 f.2 = 0) : decode c = .ok (operandsFrom c i) := by
  rw [List.forall_mem_cons] at hm
  have hop : opOf c = opcode i := (slice_eq_of_and_eq h hm.1).trans hv.1
  rw [decode_of_opcode hop]
  exact ifReservedZero_of_zero
    (List.forall_mem_map.2 fun f hf => (slice_eq_of_and_eq h (hm.2 f hf)).trans (hv.2 f hf)) _

theorem execute_of_not_command {s : State} (h : ∀ i, decode s.cmd ≠ .ok i) :
    execute s = .next (s.raise .illegalCommand) := by
  cases hd : decode s.cmd with
  | error d => exact execute_of_decode_error hd
  | ok i => exact absurd hd (h i)

/-- No command has a reserved OP (30_encoding.md R49). -/
theorem execute_of_reservedOp {s : State} (h : opOf s.cmd = 0x00 ∨ opOf s.cmd = 0x04 ∨ 0x0B ≤ opOf s.cmd) :
    execute s = .next (s.raise .illegalCommand) := by
  refine execute_of_not_command fun i hi => ?_
  rw [opOf_of_decode hi] at h
  cases i <;> simp [opcode] at h

/-! The encoder -/

theorem encode_opcode_reserved : ∀ i, Statement i
  | .pencI _ _ _ _ _ => pencI _ _ _ _ _
  | .pencR _ _ _ _ => pencR _ _ _ _
  | .pencF _ _ _ _ _ => pencF _ _ _ _ _
  | .pdecI _ _ _ => pdecI _ _ _
  | .pdecR _ _ _ => pdecR _ _ _
  | .pdecF _ _ _ => pdecF _ _ _
  | .tadd _ _ _ => tadd _ _ _
  | .tsub _ _ _ => tsub _ _ _
  | .tmul _ _ _ _ => tmul _ _ _ _

section
variable {op rd rs1 rs2 k b len addr : Nat}

/-- Each operand's field of an assembled word reads back. -/
theorem operandFields_assemble (h : FieldsFit op rd rs1 rs2 k b len addr) :
    rdOf (assemble op rd rs1 rs2 k b len addr) = rd ∧ rs1Of (assemble op rd rs1 rs2 k b len addr) = rs1 ∧
      rs2Of (assemble op rd rs1 rs2 k b len addr) = rs2 ∧ kOf (assemble op rd rs1 rs2 k b len addr) = k ∧
      bOf (assemble op rd rs1 rs2 k b len addr) = b ∧ lenOf (assemble op rd rs1 rs2 k b len addr) = len ∧
      addrOf (assemble op rd rs1 rs2 k b len addr) = addr :=
  ⟨rdOf_assemble h, rs1Of_assemble h, rs2Of_assemble h, kOf_assemble h, bOf_assemble h, lenOf_assemble h,
    addrOf_assemble h⟩

end

theorem operandsFrom_encode {i : Instr} (h : i.wellFormed = true) : operandsFrom (encode i) i = i := by
  cases i <;> simp only [Instr.wellFormed, regEncodable, expEncodable, lenEncodable, addrEncodable,
    Bool.and_eq_true, decide_eq_true_eq] at h
  case pencI rd k bcast n addr | pencF rd k bcast n addr =>
    obtain ⟨⟨⟨hrd, hk⟩, hn⟩, ha⟩ := h
    have hread op (hop : op < 64) := operandFields_assemble (fit_penc bcast hop hrd hk hn ha)
    simp (disch := decide) only [operandsFrom, encode, hread, toNat_beq_one, Nat.sub_add_cancel hn.1]
  case pencR rd bcast n addr =>
    obtain ⟨⟨hrd, hn⟩, ha⟩ := h
    have hread op (hop : op < 64) := operandFields_assemble (fit_penc bcast hop hrd (Nat.zero_le _) hn ha)
    simp (disch := decide) only [operandsFrom, encode, hread, toNat_beq_one, Nat.sub_add_cancel hn.1]
  case pdecI rs1 k addr | pdecR rs1 k addr | pdecF rs1 k addr =>
    obtain ⟨⟨hrs1, hk⟩, ha⟩ := h
    have hread op (hop : op < 64) := operandFields_assemble (fit_pdec hop hrs1 hk ha)
    simp (disch := decide) only [operandsFrom, encode, hread]
  case tadd rd rs1 rs2 | tsub rd rs1 rs2 =>
    obtain ⟨⟨hrd, hrs1⟩, hrs2⟩ := h
    have hread op (hop : op < 64) := operandFields_assemble (fit_ring hop hrd hrs1 hrs2 (Nat.zero_le _))
    simp (disch := decide) only [operandsFrom, encode, hread]
  case tmul rd rs1 rs2 k =>
    obtain ⟨⟨⟨hrd, hrs1⟩, hrs2⟩, hk⟩ := h
    have hread op (hop : op < 64) := operandFields_assemble (fit_ring hop hrd hrs1 hrs2 hk)
    simp (disch := decide) only [operandsFrom, encode, hread]

theorem wellFormed_operandsFrom (c : Word) (i : Instr) : (operandsFrom c i).wellFormed = true := by
  obtain ⟨-, hrd, hrs1, hrs2, hk, -, hlen, haddr⟩ := fieldsFit_of_word c
  cases i <;>
    simp only [operandsFrom, Instr.wellFormed, regEncodable, expEncodable, lenEncodable, addrEncodable,
      Bool.and_eq_true, decide_eq_true_eq] <;>
    omega

/-- The fields `i` uses and the zeros of those it does not use are all the word holds. -/
theorem encode_operandsFrom {c : Word} {i : Instr} (hop : opOf c = opcode i)
    (hz : ∀ f ∈ reserved i, slice c f.1 f.2 = 0) : encode (operandsFrom c i) = c := by
  have hc := assemble_fields c
  cases i <;>
    simp only [reserved, List.forall_mem_cons, slice_eq_field] at hz <;>
    simpa only [hop, hz, opcode, operandsFrom, encode, toNat_bOf_beq_one, Nat.add_sub_cancel] using hc

end Sys2Proof

namespace Sys2Proof.Proofs

open Sys2Proof.Laws.EncodedFields Sys2Proof.Machine

/-- Settles O1: the word has the command's OP, zeros in the fields it does not use, and its operands. -/
theorem decodeAfterEncode : Obligations.DecodeAfterEncode := by
  intro i h
  obtain ⟨hop, hz⟩ := encode_opcode_reserved i h
  exact decode_eq_ok_iff.2 ⟨hop, hz, operandsFrom_encode h⟩

/-- Settles O2: the command has the word's own operands, and each field it does not hold is 0 in the word. -/
theorem encodeAfterDecode : Obligations.EncodeAfterDecode := by
  intro c i h
  obtain ⟨hop, hz, hi⟩ := decode_eq_ok_iff.1 h
  exact ⟨hi ▸ wellFormed_operandsFrom c i, hi ▸ encode_operandsFrom hop hz⟩

/-- Settles O3: each mask covers OP and the fields that stay 0, so the OP of the masked word is the command's. -/
theorem decodeReadsFields : Obligations.DecodeReadsFields := by
  intro c
  simp (disch := decide) only [toNat_extractLsb_eq_slice, slice_eq_field, getLsbD_eq_bOf]
  exact ⟨fun h => decode_of_masked h (i := .pencI 0 0 false 0 0) (by decide) (by decide),
    fun h => decode_of_masked h (i := .pencR 0 false 0 0) (by decide) (by decide),
    fun h => decode_of_masked h (i := .pencF 0 0 false 0 0) (by decide) (by decide),
    fun h => decode_of_masked h (i := .pdecI 0 0 0) (by decide) (by decide),
    fun h => decode_of_masked h (i := .pdecR 0 0 0) (by decide) (by decide),
    fun h => decode_of_masked h (i := .pdecF 0 0 0) (by decide) (by decide),
    fun h => decode_of_masked h (i := .tadd 0 0 0) (by decide) (by decide),
    fun h => decode_of_masked h (i := .tsub 0 0 0) (by decide) (by decide),
    fun h => decode_of_masked h (i := .tmul 0 0 0 0) (by decide) (by decide)⟩

/-- Settles O5: no word with a reserved OP decodes, and the all-zero word's OP is 0. -/
theorem reservedOpIsIllegal : Obligations.ReservedOpIsIllegal := by
  refine ⟨fun s h => execute_of_reservedOp ?_, fun s h => execute_of_reservedOp (.inl (by rw [h]; rfl))⟩
  rwa [toNat_extractLsb_eq_slice (by decide)] at h

/-- Settles O6: a word that decodes has zeros in all fields that its command does not use. -/
theorem nonzeroReservedFieldIsIllegal : Obligations.NonzeroReservedFieldIsIllegal := by
  intro s
  simp (disch := decide) only [toNat_extractLsb_eq_slice, extractLsb_eq_zero_iff_slice, ne_eq, slice_eq_field,
    getLsbD_eq_bOf, beq_iff_eq]
  refine fun h => execute_of_not_command fun i hi => ?_
  obtain ⟨hop, hz, -⟩ := decode_eq_ok_iff.1 hi
  rw [hop] at h
  cases i <;>
    simp only [reserved, List.forall_mem_cons, slice_eq_field] at hz <;>
    simp [opcode, hz] at h

/-- Settles O4: by evaluating the decoder on the four words. -/
theorem specWordsDecode : Obligations.SpecWordsDecode := by
  unfold Obligations.SpecWordsDecode
  decide

end Sys2Proof.Proofs
end

section
/-! EncInt and DecInt as integer functions, and the raw moves tld and tst (40_torus_value.md R56, R57, R65, R68). -/

namespace Sys2Proof.Machine

/-! EncInt (40_torus_value.md R56) -/

/-- EncInt counts its input mod 2^k only: the multiple is reduced mod 2^W (40_torus_value.md R56). -/
theorem encInt_eq_mod {w k : Nat} (hk : k ≤ w) (i : Nat) : encInt w i k = i * 2 ^ (w - k) % 2 ^ w := by
  rw [encInt, ← Nat.pow_sub_mul_pow 2 hk, Nat.mul_comm (2 ^ (w - k)) (2 ^ k), Nat.mul_mod_mul_right]

/-- EncInt does not see a reduction modulo a power of two at or above 2^k. -/
theorem encInt_mod_two_pow {k j : Nat} (h : k ≤ j) (w i : Nat) : encInt w (i % 2 ^ j) k = encInt w i k := by
  rw [encInt, Nat.mod_mod_of_dvd _ (Nat.pow_dvd_pow 2 h), encInt]

@[simp] theorem encInt_zero_right (w i : Nat) : encInt w i 0 = 0 := by simp [encInt, Nat.mod_one]

@[simp] theorem encInt_self (w i : Nat) : encInt w i w = i % 2 ^ w := by simp [encInt]

/-! DecInt (40_torus_value.md R57) -/

/-- DecInt of a multiple of 2^(W-k) is exact, mod 2^k: half a unit added to a whole number of units is dropped
again. -/
theorem decInt_mul_two_pow {w k : Nat} (hw : 0 < w) (hk : k ≤ w) (m : Nat) :
    decInt w (m * 2 ^ (w - k)) k = m % 2 ^ k := by
  rw [decInt, Nat.mul_assoc, Nat.pow_sub_mul_pow 2 hk, Nat.add_comm, Nat.add_mul_div_right _ _ (by positivity),
    Nat.div_eq_of_lt (Nat.two_pow_pred_lt_two_pow hw), Nat.zero_add]

@[simp] theorem decInt_zero_right (w raw : Nat) : decInt w raw 0 = 0 := Nat.mod_one _

theorem decInt_self {w raw : Nat} (hw : 0 < w) : decInt w raw w = raw % 2 ^ w := by
  simpa using decInt_mul_two_pow hw le_rfl raw

/-- DecInt as a rounding shift: for k < W the half unit is 2^(W-k-1) in units of the raw. -/
theorem decInt_eq_shift {w k : Nat} (hk : k < w) (raw : Nat) :
    decInt w raw k = ((raw + 2 ^ (w - k - 1)) >>> (w - k)) % 2 ^ k := by
  have hhalf : 2 ^ (w - 1) = 2 ^ (w - k - 1) * 2 ^ k := by rw [← pow_add]; congr 1; omega
  rw [decInt, hhalf, ← Nat.add_mul, ← Nat.pow_sub_mul_pow 2 hk.le, Nat.mul_div_mul_right _ _ (by positivity),
    Nat.shiftRight_eq_div_pow]

/-- The top half step rounds up to 2^k, which wraps to 0 (90_conflicts.md C1). -/
theorem decInt_top {w k raw : Nat} (hk : k < w) (hraw : raw < 2 ^ w) (htop : 2 ^ w - 2 ^ (w - k - 1) ≤ raw) :
    decInt w raw k = 0 := by
  have hunit := Nat.two_pow_pred_add_two_pow_pred (w := w - k) (by omega)
  have hw : 2 ^ k * 2 ^ (w - k) = 2 ^ w := by rw [Nat.mul_comm, Nat.pow_sub_mul_pow 2 hk.le]
  have hq : (raw + 2 ^ (w - k - 1)) / 2 ^ (w - k) = 2 ^ k :=
    Nat.div_eq_of_lt_le (by omega) (by rw [Nat.succ_mul]; omega)
  rw [decInt_eq_shift hk, Nat.shiftRight_eq_div_pow, hq, Nat.mod_self]

/-- An exact half rounds up (40_torus_value.md R57). -/
theorem decInt_tie {w k m : Nat} (hk : k < w) (hm : m + 1 < 2 ^ k) :
    decInt w (m * 2 ^ (w - k) + 2 ^ (w - k - 1)) k = m + 1 := by
  rw [decInt_eq_shift hk, Nat.add_assoc, Nat.two_pow_pred_add_two_pow_pred (by omega), ← Nat.succ_mul,
    Nat.shiftRight_eq_div_pow, Nat.mul_div_cancel _ (by positivity), Nat.mod_eq_of_lt hm]

/-! PENC.I and PDEC.I when every check passes (41_polynomial_codec.md R70, R74) -/

theorem exec_pencI_of_pass {s : State} {rd k n addr : Nat} {bcast : Bool} {es : List Nat} (hrd : rd < s.cfg.npreg)
    (hk : k ≤ s.cfg.w) (hn : n ≤ s.cfg.nmax) (haddr : addr + elementCount bcast n * s.cfg.ew ≤ s.cfg.spadWords)
    (hes : readElements s.mem addr s.cfg.ew (elementCount bcast n) = some es) :
    exec (.pencI rd k bcast n addr) s =
      .next (s.commitTorus rd ((spread bcast n es).map (encInt s.cfg.w · k))) := by
  show execPencI rd k bcast n addr s = _
  rw [execPencI, checked_pass (by simp [registerCheck, modulusCheck, lengthCheck, addressCheck, *]), withElements,
    hes]

theorem exec_pdecI_of_pass {s : State} {rs1 k addr : Nat} {cs : List Coeff} (hrs : rs1 < s.cfg.npreg)
    (hk : k ≤ s.cfg.w) (hcs : s.torus rs1 = some ⟨cs⟩) (haddr : addr + cs.length * s.cfg.ew ≤ s.cfg.spadWords) :
    exec (.pdecI rs1 k addr) s = .next (s.commitSpad addr s.cfg.ew (cs.map (decInt s.cfg.w · k))) := by
  have hcoeffs : s.coeffs rs1 = cs := State.coeffs_of_torus hcs
  have hlen : s.len rs1 = cs.length := by rw [State.len, hcoeffs]
  have hvalid : s.valid rs1 = true := by rw [State.valid, hcs]; rfl
  show execPdecI rs1 k addr s = _
  rw [execPdecI, checked_pass (by simp [registerCheck, modulusCheck, emptyCheck, addressCheck, *]), hcoeffs]

/-- Elements of EW words are below 2^W. -/
theorem readElements_lt {cfg : Config} {m : Memory} {addr cnt : Nat} {es : List Nat}
    (h : readElements m addr cfg.ew cnt = some es) {e : Nat} (he : e ∈ es) : e < 2 ^ cfg.w := by
  obtain ⟨j, hj, rfl⟩ := List.getElem_of_mem he
  rw [← cfg.ew_mul]
  exact spadRead_lt ((readElements_eq_some.1 h).2 j hj)

theorem map_mod_of_lt {w : Nat} {xs : List Nat} (h : ∀ x ∈ xs, x < 2 ^ w) : xs.map (· % 2 ^ w) = xs :=
  (List.map_congr_left fun x hx => Nat.mod_eq_of_lt (h x hx)).trans xs.map_id

end Sys2Proof.Machine

namespace Sys2Proof.Proofs

open Sys2Proof.Machine

/-- Settles O48: EncInt gives a multiple of 2^(W-k), which DecInt takes back exactly. -/
theorem integerRoundTrip : Obligations.IntegerRoundTrip := by
  intro cfg k i hk hi
  rw [encInt, decInt_mul_two_pow cfg.w_pos hk, Nat.mod_mod, Nat.mod_eq_of_lt hi]

/-- Settles O49: at k = W both functions reduce mod 2^W, and elements and raws are below 2^W already. -/
theorem rawPassThrough : Obligations.RawPassThrough := by
  refine ⟨fun cfg i => encInt_self cfg.w i, ?_, ?_, ?_⟩
  · intro cfg raw h
    rw [decInt_self cfg.w_pos, Nat.mod_eq_of_lt h]
  · intro s rd n addr es hrd hn haddr hes
    rw [tld, exec_pencI_of_pass (bcast := false) hrd le_rfl hn haddr hes, spread, if_neg (by decide)]
    simp only [encInt_self, map_mod_of_lt fun e he => readElements_lt hes he]
    rfl
  · intro s rs1 addr cs hrs hcs hlt haddr
    refine ⟨writeElements s.mem addr s.cfg.ew cs, ?_, ?_⟩
    · rw [tst, exec_pdecI_of_pass hrs le_rfl hcs haddr]
      simp only [decInt_self s.cfg.w_pos, map_mod_of_lt hlt]
      rfl
    · rw [readElements_writeElements, s.cfg.ew_mul, map_mod_of_lt hlt]

/-- Settles O50: i * 2^(W-k) mod 2^W depends on i mod 2^k only. -/
theorem encIntReducesInput : Obligations.EncIntReducesInput := by
  intro cfg i k hk
  exact ⟨encInt_eq_mod hk i, encInt_mod_two_pow hk _ i, encInt_mod_two_pow le_rfl _ i, encInt_zero_right _ i⟩

/-- Settles O51: by the shift form; the top half step reaches 2^k units, a tie the next unit. -/
theorem decIntByShift : Obligations.DecIntByShift := by
  intro cfg raw k hraw
  refine ⟨fun hk => ⟨decInt_eq_shift hk raw, decInt_top hk hraw⟩, ?_, decInt_zero_right _ raw⟩
  rintro m hk hm rfl
  exact decInt_tie hk hm

end Sys2Proof.Proofs
end

section
/-! The real decoders: what RNE64 gives between two finite values, and the ranges of DecReal and DecFloat
(40_torus_value.md R60, R61, R63). -/

namespace Sys2Proof.Machine

/-! Patterns and their values -/

theorem abs_val64 (b : Word) : |val64 b| = magnitudeOf b * unit64 := by
  rw [val64_eq, abs_mul, abs_of_pos unit64_pos]
  split
  · rw [abs_neg, Nat.abs_cast]
  · rw [Nat.abs_cast]

theorem abs_val64_le_largest {b : Word} (h : finite64 b = true) : |val64 b| ≤ val64 0x7FEFFFFFFFFFFFFF := by
  obtain ⟨sh, m, hmag, hm, -, hsh⟩ := magnitudeOf_form h
  rw [abs_val64, hmag, val64_largest]
  exact mul_le_mul_of_nonneg_right (Nat.cast_le.2 (mul_two_pow_le (by omega) hsh)) unit64_pos.le

@[simp] theorem val64_zero : val64 0 = 0 := by
  rw [val64_eq, show magnitudeOf 0 = 0 by rw [magnitudeOf, show significandOf 0 = 0 by decide, Nat.zero_mul],
    Nat.cast_zero, neg_zero, ite_self, zero_mul]

theorem magnitudeOf_one64 : magnitudeOf one64 = 2 ^ 52 * 2 ^ 1022 := by
  rw [magnitudeOf, show significandOf one64 = 2 ^ 52 by decide, show exponentOf one64 - 1 = 1022 by decide]

@[simp] theorem val64_one64 : val64 one64 = 1 := by
  rw [val64_eq, if_neg (by decide), magnitudeOf_one64, ← pow_add, show 52 + 1022 = 1074 from rfl, unit64,
    mul_one_div_cancel (by positivity)]

/-- A normalized significand and its power of two are determined by the magnitude. -/
theorem normalized_unique {m n a c : Nat} (hm : 2 ^ 52 ≤ m ∧ m < 2 ^ 53) (hn : 2 ^ 52 ≤ n ∧ n < 2 ^ 53)
    (h : m * 2 ^ a = n * 2 ^ c) : a = c ∧ m = n := by
  wlog hac : a ≤ c generalizing m n a c
  · obtain ⟨ha, hmn⟩ := this hn hm h.symm (by omega)
    exact ⟨ha.symm, hmn.symm⟩
  obtain ⟨d, rfl⟩ := Nat.exists_eq_add_of_le hac
  have hmd : m = n * 2 ^ d := by
    rw [pow_add, Nat.mul_left_comm, Nat.mul_comm] at h
    exact Nat.eq_of_mul_eq_mul_left (by positivity) h
  cases d with
  | zero => exact ⟨rfl, by simpa using hmd⟩
  | succ d =>
    have hlarge : 2 ^ 52 * 2 ^ 1 ≤ n * 2 ^ (d + 1) := mul_two_pow_le hn.1 (by omega)
    omega

/-- 1.0 is the only pattern of the value 1. -/
theorem eq_one64_of_val64 {b : Word} (h : val64 b = 1) : b = one64 := by
  have hfrac : fractionOf b < 2 ^ 52 := Nat.mod_lt _ (by decide)
  have hsign : signOf b ≠ 1 := by
    intro hs
    rw [val64_eq, if_pos hs, neg_mul] at h
    have := mul_nonneg (Nat.cast_nonneg (α := Rat) (magnitudeOf b)) unit64_pos.le
    linarith
  have hmag : magnitudeOf b = magnitudeOf one64 := by
    have habs : |val64 b| = |val64 one64| := by rw [h, val64_one64]
    rw [abs_val64, abs_val64] at habs
    exact Nat.cast_injective (mul_right_cancel₀ unit64_pos.ne' habs)
  rw [magnitudeOf_one64, magnitudeOf, significandOf] at hmag
  split at hmag
  · rename_i he
    have hlarge : 2 ^ 52 * 2 ^ 0 ≤ 2 ^ 52 * 2 ^ 1022 := mul_two_pow_le le_rfl (by omega)
    rw [he, Nat.zero_sub, pow_zero, Nat.mul_one] at hmag
    omega
  · obtain ⟨he, hsig⟩ := normalized_unique ⟨by omega, by omega⟩ (by decide) hmag
    have hf : fractionOf b = 0 := by omega
    have he : exponentOf b = 1023 := by omega
    apply BitVec.eq_of_toNat_eq
    simp only [signOf, exponentOf, fractionOf, slice] at hsign he hf
    show b.toNat = 0x3FF0000000000000
    omega

/-- RNE64 of a value between two finite ones is finite and between them: neither is nearer than the rounding. -/
theorem val64_rne64_between {v : Rat} {lo hi : Word} (hlo : finite64 lo = true) (hhi : finite64 hi = true)
    (hlov : val64 lo ≤ v) (hvhi : v ≤ val64 hi) :
    finite64 (rne64 v) = true ∧ val64 lo ≤ val64 (rne64 v) ∧ val64 (rne64 v) ≤ val64 hi := by
  have hv : |v| ≤ val64 0x7FEFFFFFFFFFFFFF :=
    (abs_le_max_abs_abs hlov hvhi).trans (max_le (abs_val64_le_largest hlo) (abs_val64_le_largest hhi))
  obtain ⟨hfin, hnearLo, -⟩ := Proofs.rneIsNearestEven v lo hlo hv
  obtain ⟨-, hnearHi, -⟩ := Proofs.rneIsNearestEven v hi hhi hv
  rw [abs_of_nonpos (sub_nonpos.2 hlov)] at hnearLo
  rw [abs_of_nonneg (sub_nonneg.2 hvhi)] at hnearHi
  exact ⟨hfin, by linarith [(abs_le.1 hnearLo).1], by linarith [(abs_le.1 hnearHi).2]⟩

/-! The decoded point of the circle -/

/-- DecInt(raw, k) / 2^k, which DecReal rounds and DecFloat rescales. -/
abbrev decodedFrac (w : Nat) (raw : Coeff) (k : Nat) : Rat := (decInt w raw k : Rat) / 2 ^ k

theorem decodedFrac_nonneg (w raw k : Nat) : 0 ≤ decodedFrac w raw k := by unfold decodedFrac; positivity

theorem decodedFrac_lt_one (w raw k : Nat) : decodedFrac w raw k < 1 :=
  (div_lt_one (by positivity)).2 (by exact_mod_cast decInt_lt w raw k)

theorem decReal_eq (w raw k : Nat) :
    decReal w raw k = if rne64 (decodedFrac w raw k) = one64 then 0 else rne64 (decodedFrac w raw k) := by
  simp only [decReal, decodedFrac, Nat.cast_pow, Nat.cast_ofNat]

theorem rangeValue_decInt (lo hi : Word) (w raw k : Nat) :
    rangeValue lo hi (decInt w raw k) k = val64 lo + decodedFrac w raw k * (val64 hi - val64 lo) := by
  simp only [rangeValue, decodedFrac, Nat.cast_pow, Nat.cast_ofNat]

theorem rangeOK_eq_true {lo hi : Word} :
    rangeOK lo hi = true ↔ finite64 lo = true ∧ finite64 hi = true ∧ val64 lo < val64 hi := by
  simp only [rangeOK, Bool.and_eq_true, decide_eq_true_eq, and_assoc]

/-- The affine image of a point of [0, 1) is in [lo, hi) (40_torus_value.md R63). -/
theorem rangeValue_decInt_mem {lo hi : Word} (h : val64 lo < val64 hi) (w raw k : Nat) :
    val64 lo ≤ rangeValue lo hi (decInt w raw k) k ∧ rangeValue lo hi (decInt w raw k) k < val64 hi := by
  have hwidth : 0 < val64 hi - val64 lo := sub_pos.2 h
  have hge := mul_nonneg (decodedFrac_nonneg w raw k) hwidth.le
  have hlt := mul_lt_of_lt_one_left hwidth (decodedFrac_lt_one w raw k)
  rw [rangeValue_decInt]
  exact ⟨by linarith, by linarith⟩

end Sys2Proof.Machine

namespace Sys2Proof.Proofs

open Sys2Proof.Machine

/-- Settles O53: RNE64 of a fraction in [0, 1) is in [0, 1], and 1.0, the only pattern of the value 1, becomes
+0.0. -/
theorem decRealInUnitInterval : Obligations.DecRealInUnitInterval := by
  intro cfg raw k _
  have h0 := decodedFrac_nonneg cfg.w raw k
  have h1 := decodedFrac_lt_one cfg.w raw k
  rw [decReal_eq]
  split
  · exact ⟨by decide, by rw [val64_zero], by rw [val64_zero]; exact one_pos, by decide⟩
  · rename_i hne
    obtain ⟨hfin, hge, hle⟩ := val64_rne64_between (v := decodedFrac cfg.w raw k) (lo := 0) (hi := one64)
      (by decide) (by decide) (by rwa [val64_zero]) (by rw [val64_one64]; exact h1.le)
    rw [val64_zero] at hge
    rw [val64_one64] at hle
    refine ⟨hfin, hge, lt_of_le_of_ne hle fun h => hne (eq_one64_of_val64 h), ?_⟩
    rw [← Bool.not_eq_true, getLsbD_sign_rne64]
    exact h0.not_gt

/-- Settles O54: RNE64 of a value in [lo, hi) is in [lo, hi], and a result of the value hi becomes lo. -/
theorem decFloatInRange : Obligations.DecFloatInRange := by
  intro cfg lo hi raw k _ hrange
  obtain ⟨hlo, hhi, hlt⟩ := rangeOK_eq_true.1 hrange
  obtain ⟨hlov, hvhi⟩ := rangeValue_decInt_mem hlt cfg.w raw k
  rw [decFloat]
  split
  · exact ⟨hlo, le_rfl, hlt⟩
  · rename_i hne
    obtain ⟨hfin, hge, hle⟩ := val64_rne64_between hlo hhi hlov hvhi.le
    exact ⟨hfin, hge, lt_of_le_of_ne hle hne⟩

end Sys2Proof.Proofs
end

section
/-! The real round trip: what each rounding moves a point of the circle by, and why DecReal of an EncReal raw is
exact (40_torus_value.md R57, R58, R64, R66). -/

namespace Sys2Proof.Machine

/-! Distances on the circle (40_torus_value.md R64) -/

/-- The torus distance is at most the distance to the point moved by any whole number of turns. -/
theorem torusDist_le (a b : Rat) (z : Int) : torusDist a b ≤ |a - b - z| := by
  have h := round_le (a - b) z
  rwa [abs_sub_round_eq_min] at h

section Residue

variable {m n : Nat} {r : Int} (hm : (m : Int) = r % 2 ^ n)
include hm

/-- An integer and its residue mod 2^n are whole turns of 2^n apart. -/
theorem cast_residue : (m : Rat) = r - (r / 2 ^ n : Int) * 2 ^ n := by
  have h : (m : Int) = r - r / 2 ^ n * 2 ^ n := by rw [hm, Int.emod_def, mul_comm]
  exact_mod_cast congrArg (Int.cast (R := Rat)) h

variable {x : Rat} (hr : |(r : Rat) - x * 2 ^ n| ≤ 1 / 2)
include hr

/-- x rounded in units of 2^-n and reduced to one turn is within half a unit of x, whole turns aside. -/
theorem residue_near : ∃ z : Int, |(m : Rat) / 2 ^ n - x - z| ≤ 1 / 2 ^ (n + 1) := by
  refine ⟨-(r / 2 ^ n), ?_⟩
  have hp : (0 : Rat) < 2 ^ n := by positivity
  have hsame : (m : Rat) / 2 ^ n - x - (-(r / 2 ^ n) : Int) = (r - x * 2 ^ n) / 2 ^ n := by
    rw [cast_residue hm, Int.cast_neg]
    field_simp
    ring
  rw [hsame, abs_div, abs_of_pos hp, div_le_div_iff₀ hp (by positivity), pow_succ]
  linarith [mul_le_mul_of_nonneg_right hr hp.le]

/-- For x at least 0 the reduction only lowers. -/
theorem residue_le (hx : 0 ≤ x) : (m : Rat) ≤ x * 2 ^ n + 1 / 2 := by
  have hbounds := abs_le.1 hr
  have hx' : 0 ≤ x * 2 ^ n := by positivity
  have hr0 : 0 ≤ r := by
    have : (-1 : Rat) < r := by linarith
    have : -1 < r := by exact_mod_cast this
    omega
  have hturns : (0 : Rat) ≤ (r / 2 ^ n : Int) * 2 ^ n :=
    mul_nonneg (by exact_mod_cast Int.ediv_nonneg hr0 (by positivity)) (by positivity)
  rw [cast_residue hm]
  linarith

end Residue

/-! DecInt and EncFrac as roundings reduced to one turn -/

/-- DecInt is the raw's point of the circle in units of 2^-k, rounded half up, mod 2^k (40_torus_value.md R57). -/
theorem decInt_eq_rhu {w : Nat} (hw : 0 < w) (raw k : Nat) :
    (decInt w raw k : Int) = rhu ((raw : Rat) / 2 ^ w * 2 ^ k) % 2 ^ k := by
  have hpoint : (raw : Rat) / 2 ^ w * 2 ^ k + 1 / 2 =
      ((raw * 2 ^ k + 2 ^ (w - 1) : Nat) : Rat) / ((2 ^ w : Nat) : Rat) := by
    have hw2 : (2 : Rat) ^ w = 2 ^ (w - 1) * 2 := by rw [← pow_succ, Nat.sub_add_cancel hw]
    push_cast
    rw [hw2]
    field_simp
  have hfloor := Rat.floor_natCast_div_natCast (raw * 2 ^ k + 2 ^ (w - 1)) (2 ^ w)
  rw [rhu, hpoint, decInt, Int.natCast_mod, Int.natCast_ediv, ← hfloor]
  push_cast
  rfl

theorem encFrac_eq_rtie (cfg : Config) (t : Rat) :
    (encFrac cfg t : Int) = rtie cfg.realTie (frac t * 2 ^ cfg.w) % 2 ^ cfg.w := by
  rw [encFrac, roundMod, Int.toNat_of_nonneg (Int.emod_nonneg _ (by positivity))]
  push_cast
  rfl

theorem decodedFrac_near {w : Nat} (hw : 0 < w) (raw k : Nat) :
    ∃ z : Int, |decodedFrac w raw k - (raw : Rat) / 2 ^ w - z| ≤ 1 / 2 ^ (k + 1) :=
  residue_near (decInt_eq_rhu hw raw k) (rhu_near _)

theorem decInt_le {w : Nat} (hw : 0 < w) (raw k : Nat) :
    (decInt w raw k : Rat) ≤ (raw : Rat) / 2 ^ w * 2 ^ k + 1 / 2 :=
  residue_le (decInt_eq_rhu hw raw k) (rhu_near _) (by positivity)

theorem encFrac_near (cfg : Config) (t : Rat) :
    ∃ z : Int, |(encFrac cfg t : Rat) / 2 ^ cfg.w - frac t - z| ≤ 1 / 2 ^ (cfg.w + 1) :=
  residue_near (encFrac_eq_rtie cfg t) (rtie_near _ _)

theorem encFrac_le (cfg : Config) (t : Rat) : (encFrac cfg t : Rat) ≤ frac t * 2 ^ cfg.w + 1 / 2 :=
  residue_le (encFrac_eq_rtie cfg t) (rtie_near _ _) (frac_nonneg t)

theorem frac_eq_self {x : Rat} (h0 : 0 ≤ x) (h1 : x < 1) : frac x = x := Int.fract_eq_self.2 ⟨h0, h1⟩

/-! Where a decoded fraction is a binary64 -/

theorem two_pow_mul_unit64 {k : Nat} (hk : k ≤ 1074) : (2 : Rat) ^ (1074 - k) * unit64 = 1 / 2 ^ k := by
  rw [unit64, Nat.cast_pow, Nat.cast_ofNat, ← Nat.sub_add_cancel hk, pow_add, Nat.add_sub_cancel]
  field_simp

/-- m / 2^k with m below 2^53 is a binary64, so RNE64 gives it back. -/
theorem val64_rne64_div_two_pow {m k : Nat} (hm : m < 2 ^ 53) (hk : k ≤ 1074) :
    val64 (rne64 ((m : Rat) / 2 ^ k)) = (m : Rat) / 2 ^ k := by
  refine (val64_rne64_exact (sh := 1074 - k) hm (by omega) ?_).2
  rw [abs_of_nonneg (by positivity), Nat.cast_mul, Nat.cast_pow, Nat.cast_ofNat, mul_assoc, two_pow_mul_unit64 hk,
    mul_one_div]

/-- A finite binary64 is a multiple of 2^-k, or small enough for 52 bits to hold it in units of 2^-k: its spacing
is at least 2^-k, or it lies below 2^(52-k). -/
theorem val64_multiple_or_small {b : Word} (hb : finite64 b = true) {k : Nat} (hk : k ≤ 1074) :
    (∃ c : Int, val64 b = c / 2 ^ k) ∨ val64 b * 2 ^ k < 2 ^ 52 := by
  obtain ⟨z, hz, hval⟩ := val64_eq_signed 0 b
  rw [signFactor, if_neg (lt_irrefl _), one_mul] at hval
  rcases signed_magnitude_grid hb hz (1074 - k) with ⟨c, rfl⟩ | ⟨-, hlt⟩
  · left
    refine ⟨c, ?_⟩
    rw [hval, Int.cast_mul, Int.cast_pow, Int.cast_ofNat, mul_assoc, two_pow_mul_unit64 hk, mul_one_div]
  · right
    have hlt : (z : Rat) < 2 ^ 52 * 2 ^ (1074 - k) := by exact_mod_cast hlt
    have hscaled := mul_lt_mul_of_pos_right hlt unit64_pos
    rwa [mul_assoc, two_pow_mul_unit64 hk, ← hval, mul_one_div, lt_div_iff₀ (by positivity)] at hscaled

/-- Where RNE64 does not move the decoded fraction, DecReal holds it: a fraction below 1 is not 1.0. -/
theorem val64_decReal_of_exact {w raw k : Nat} (h : val64 (rne64 (decodedFrac w raw k)) = decodedFrac w raw k) :
    val64 (decReal w raw k) = decodedFrac w raw k := by
  have hne : rne64 (decodedFrac w raw k) ≠ one64 := by
    intro hone
    rw [hone, val64_one64] at h
    exact (decodedFrac_lt_one w raw k).ne h.symm
  rw [decReal_eq, if_neg hne, h]

/-- EncReal of m / 2^k is exact (40_torus_value.md R58). -/
theorem encReal_of_multiple {cfg : Config} {b : Word} {m k : Nat} (hk : k ≤ cfg.w) (hm : m < 2 ^ k)
    (hb : val64 b = (m : Rat) / 2 ^ k) : encReal cfg b = m * 2 ^ (cfg.w - k) := by
  have hfrac : frac (val64 b) = val64 b :=
    frac_eq_self (by rw [hb]; positivity) (by rw [hb, div_lt_one (by positivity)]; exact_mod_cast hm)
  have hscaled : val64 b * 2 ^ cfg.w = ((m * 2 ^ (cfg.w - k) : Nat) : Int) := by
    rw [hb, ← pow_sub_mul_pow 2 hk]
    push_cast
    field_simp
  have hlt : m * 2 ^ (cfg.w - k) < 2 ^ cfg.w := by
    rw [← Nat.pow_sub_mul_pow 2 hk, Nat.mul_comm]
    exact Nat.mul_lt_mul_of_pos_left hm (by positivity)
  have hres := encFrac_eq_rtie cfg (val64 b)
  rw [hfrac, hscaled, rtie_int, Int.emod_eq_of_lt (by positivity) (by exact_mod_cast hlt)] at hres
  exact Nat.cast_injective hres

/-! The round trip of a finite binary64 in [0, 1) (40_torus_value.md R66) -/

section RoundTrip

variable {cfg : Config} {b : Word} {k : Nat}

theorem decodedFrac_encReal_of_multiple (h0 : 0 ≤ val64 b) (h1 : val64 b < 1) (hk : k ≤ cfg.w) {c : Int}
    (hc : val64 b = c / 2 ^ k) : decodedFrac cfg.w (encReal cfg b) k = val64 b := by
  have hp : (0 : Rat) < 2 ^ k := by positivity
  rw [hc, div_lt_one hp] at h1
  rw [hc, le_div_iff₀ hp, zero_mul] at h0
  obtain ⟨m, rfl⟩ := Int.eq_ofNat_of_zero_le (by exact_mod_cast h0 : 0 ≤ c)
  rw [Int.cast_natCast] at hc h1
  have hm : m < 2 ^ k := by exact_mod_cast h1
  rw [hc, decodedFrac, encReal_of_multiple hk hm hc, decInt_mul_two_pow cfg.w_pos hk, Nat.mod_eq_of_lt hm]

/-- Two roundings of half a unit each at most add one unit of 2^-k. -/
theorem decInt_encReal_lt (h0 : 0 ≤ val64 b) (h1 : val64 b < 1) (hk : k ≤ cfg.w)
    (hsmall : val64 b * 2 ^ k < 2 ^ 52) : decInt cfg.w (encReal cfg b) k < 2 ^ 53 := by
  have hw : (0 : Rat) < 2 ^ cfg.w := by positivity
  have henc : (encReal cfg b : Rat) ≤ val64 b * 2 ^ cfg.w + 1 / 2 := by
    have h := encFrac_le cfg (val64 b)
    rwa [frac_eq_self h0 h1] at h
  have hratio : (2 : Rat) ^ k / 2 ^ cfg.w ≤ 1 :=
    (div_le_one hw).2 (pow_le_pow_right₀ one_le_two hk)
  have hmul : (encReal cfg b : Rat) / 2 ^ cfg.w * 2 ^ k ≤ val64 b * 2 ^ k + 1 / 2 := calc
    (encReal cfg b : Rat) / 2 ^ cfg.w * 2 ^ k = encReal cfg b * (2 ^ k / 2 ^ cfg.w) := by ring
    _ ≤ (val64 b * 2 ^ cfg.w + 1 / 2) * (2 ^ k / 2 ^ cfg.w) := mul_le_mul_of_nonneg_right henc (by positivity)
    _ = val64 b * 2 ^ k + 1 / 2 * (2 ^ k / 2 ^ cfg.w) := by field_simp
    _ ≤ val64 b * 2 ^ k + 1 / 2 := by linarith
  have hdec := decInt_le cfg.w_pos (encReal cfg b) k
  have hlt : (decInt cfg.w (encReal cfg b) k : Rat) < 2 ^ 53 := by linarith
  exact_mod_cast hlt

/-- DecReal's own rounding moves no raw that EncReal gives (90_conflicts.md C4). -/
theorem val64_decReal_encReal (hb : finite64 b = true) (h0 : 0 ≤ val64 b) (h1 : val64 b < 1) (hk : k ≤ cfg.w) :
    val64 (decReal cfg.w (encReal cfg b) k) = decodedFrac cfg.w (encReal cfg b) k := by
  have hk' : k ≤ 1074 := by rcases cfg.w_cases with h | h <;> omega
  apply val64_decReal_of_exact
  rcases val64_multiple_or_small hb hk' with ⟨c, hc⟩ | hsmall
  · rw [decodedFrac_encReal_of_multiple h0 h1 hk hc]
    exact (val64_rne64_val64 hb).2
  · exact val64_rne64_div_two_pow (decInt_encReal_lt h0 h1 hk hsmall) hk'

/-- The two roundings' distances add up. -/
theorem torusDist_decodedFrac_encReal (h0 : 0 ≤ val64 b) (h1 : val64 b < 1) :
    torusDist (decodedFrac cfg.w (encReal cfg b) k) (val64 b) ≤ 1 / 2 ^ (k + 1) + 1 / 2 ^ (cfg.w + 1) := by
  obtain ⟨z, hz⟩ := decodedFrac_near cfg.w_pos (encReal cfg b) k
  obtain ⟨z', hz'⟩ := encFrac_near cfg (val64 b)
  rw [frac_eq_self h0 h1] at hz'
  refine (torusDist_le _ _ (z + z')).trans ((le_of_eq ?_).trans ((abs_add_le _ _).trans (add_le_add hz hz')))
  rw [encReal]
  push_cast
  congr 1
  ring

end RoundTrip

/-- Half a unit of 2^-k and half a unit of 2^-W are at most one unit of 2^-k. -/
theorem half_units_le {w k : Nat} (hk : k ≤ w) : (1 : Rat) / 2 ^ (k + 1) + 1 / 2 ^ (w + 1) ≤ 1 / 2 ^ k := by
  have hle : (1 : Rat) / 2 ^ (w + 1) ≤ 1 / 2 ^ (k + 1) :=
    one_div_le_one_div_of_le (by positivity) (pow_le_pow_right₀ one_le_two (by omega))
  have hadd : (1 : Rat) / 2 ^ (k + 1) + 1 / 2 ^ (k + 1) = 1 / 2 ^ k := by
    rw [pow_succ]
    field_simp
    norm_num
  linarith

end Sys2Proof.Machine

namespace Sys2Proof.Proofs

open Sys2Proof.Machine

/-- Settles O55: DecReal holds the decoded fraction exactly, and that is r moved by the two roundings of EncFrac and
DecInt, neither of which moves a multiple of 2^-k. -/
theorem realRoundTrip : Obligations.RealRoundTrip := by
  intro cfg b k hb h0 h1 hk
  rw [val64_decReal_encReal hb h0 h1 hk]
  refine ⟨torusDist_decodedFrac_encReal h0 h1, half_units_le hk, ?_⟩
  rintro ⟨c, hc⟩
  exact decodedFrac_encReal_of_multiple h0 h1 hk hc

end Sys2Proof.Proofs
end

section
/-! The encode commands' results, and each coefficient as the scalar command's (41_polynomial_codec.md R69 to R72,
R77). -/

namespace Sys2Proof.Machine

/-! The element a coefficient comes from (41_polynomial_codec.md R69) -/

/-- The index of the element that coefficient j encodes: element 0 is copied to all coefficients when B = 1. -/
abbrev elementIndex (bcast : Bool) (j : Nat) : Nat := if bcast then 0 else j

theorem elementIndex_lt {bcast : Bool} {n j : Nat} (hj : j < n) :
    elementIndex bcast j < elementCount bcast n := by
  cases bcast
  · exact hj
  · exact Nat.one_pos

theorem getElem_spread {α : Type} {bcast : Bool} {n j : Nat} {es : List α} (hlen : es.length = elementCount bcast n)
    (hj : j < n) :
    (spread bcast n es)[j]'(by rwa [length_spread hlen]) =
      es[elementIndex bcast j]'(hlen ▸ elementIndex_lt hj) := by
  cases bcast with
  | false => rfl
  | true =>
    obtain ⟨e, rfl⟩ := List.length_eq_one_iff.1 hlen
    simp [spread]

/-- The coefficients of an encode, listed by index. -/
theorem map_spread_range {α : Type} (bcast : Bool) (n : Nat) (e : Nat → α) (f : α → Coeff) :
    (spread bcast n ((List.range (elementCount bcast n)).map e)).map f =
      (List.range n).map fun j => f (e (elementIndex bcast j)) := by
  have hlen : ((List.range (elementCount bcast n)).map e).length = elementCount bcast n := by simp
  refine List.ext_getElem (by simp [length_spread hlen]) fun j _ hj => ?_
  rw [List.length_map, List.length_range] at hj
  rw [List.getElem_map, getElem_spread hlen hj]
  simp

/-! Reading the elements -/

theorem readElements_range {m : Memory} {addr size cnt : Nat} {e : Nat → Nat}
    (h : ∀ j, j < cnt → spadRead m (addr + j * size) size = some (e j)) :
    readElements m addr size cnt = some ((List.range cnt).map e) :=
  readElements_eq_some.2 ⟨by simp, fun j hj => by simpa using h j (by simpa using hj)⟩

theorem readElements_range_reals {m : Memory} {addr cnt : Nat} {b : Nat → Word}
    (h : ∀ j, j < cnt → readWord m (addr + j) = some (b j).toNat ∧ finite64 (b j) = true) :
    readElements m addr 1 cnt = some (((List.range cnt).map b).map BitVec.toNat) ∧
      ∀ x ∈ (List.range cnt).map b, finite64 x = true := by
  refine ⟨?_, List.forall_mem_map.2 fun j hj => (h j (List.mem_range.1 hj)).2⟩
  rw [List.map_map]
  exact readElements_range fun j hj => by rw [Nat.mul_one, spadRead_one, (h j hj).1]; rfl

/-- One element of a sequence, read alone. -/
theorem readElements_one {m : Memory} {addr size cnt : Nat} {es : List Nat}
    (h : readElements m addr size cnt = some es) {i : Nat} (hi : i < es.length) :
    readElements m (addr + i * size) size 1 = some [es[i]] :=
  readElements_eq_some.2 ⟨rfl, fun j hj => by
    obtain rfl : j = 0 := by simpa using hj
    simpa using (readElements_eq_some.1 h).2 i hi⟩

theorem readElements_one_word {m : Memory} {addr cnt : Nat} {bs : List Word}
    (h : readElements m addr 1 cnt = some (bs.map BitVec.toNat)) {i : Nat} (hi : i < bs.length) :
    readElements m (addr + i) 1 1 = some ([bs[i]].map BitVec.toNat) := by
  have hone := readElements_one h (i := i) (by rwa [List.length_map])
  rwa [Nat.mul_one, List.getElem_map] at hone

/-- Finite elements pass check 9. -/
theorem withReals_of_finite {s : State} {addr cnt : Nat} {bs : List Word}
    (hbs : readElements s.mem addr 1 cnt = some (bs.map BitVec.toNat)) (hfin : ∀ b ∈ bs, finite64 b = true)
    (go : List Word → Result) : withReals s addr cnt go = go bs := by
  have hround : (bs.map BitVec.toNat).map (BitVec.ofNat 64) = bs := by simp [Function.comp_def]
  rw [withReals, withElements, hbs]
  simp only [hround]
  exact checked_pass (by simpa [finiteCheck] using hfin)

/-! PENC.R and PENC.F when every check passes (41_polynomial_codec.md R71, R72) -/

theorem exec_pencR_of_pass {s : State} {rd n addr : Nat} {bcast : Bool} {bs : List Word} (hrd : rd < s.cfg.npreg)
    (hn : n ≤ s.cfg.nmax) (haddr : addr + elementCount bcast n ≤ s.cfg.spadWords)
    (hbs : readElements s.mem addr 1 (elementCount bcast n) = some (bs.map BitVec.toNat))
    (hfin : ∀ b ∈ bs, finite64 b = true) :
    exec (.pencR rd bcast n addr) s = .next (s.commitTorus rd ((spread bcast n bs).map (encReal s.cfg))) := by
  show execPencR rd bcast n addr s = _
  rw [execPencR, checked_pass (by simp [registerCheck, lengthCheck, addressCheck, *]), withReals_of_finite hbs hfin]

theorem exec_pencF_of_pass {s : State} {rd k n addr : Nat} {bcast : Bool} {bs : List Word} (hrd : rd < s.cfg.npreg)
    (hk : k ≤ s.cfg.w) (hn : n ≤ s.cfg.nmax) (hrange : rangeOK s.rangeLo s.rangeHi = true)
    (haddr : addr + elementCount bcast n ≤ s.cfg.spadWords)
    (hbs : readElements s.mem addr 1 (elementCount bcast n) = some (bs.map BitVec.toNat))
    (hfin : ∀ b ∈ bs, finite64 b = true) :
    exec (.pencF rd k bcast n addr) s =
      .next (s.commitTorus rd ((spread bcast n bs).map (encFloat s.cfg s.rangeLo s.rangeHi · k))) := by
  show execPencF rd k bcast n addr s = _
  rw [execPencF, checked_pass (by simp [registerCheck, modulusCheck, lengthCheck, rangeCheck, addressCheck, *]),
    withReals_of_finite hbs hfin]

/-! The real encoders as roundings reduced to one turn (40_torus_value.md R58, R59, R62) -/

theorem roundMod_eq (tie : RealTie) (bits : Nat) (x : Rat) :
    roundMod tie bits x = (rtie tie x % 2 ^ bits).toNat := by
  simp only [roundMod, Nat.cast_pow, Nat.cast_ofNat]

theorem encFrac_eq (cfg : Config) (t : Rat) :
    encFrac cfg t = (rtie cfg.realTie (frac t * 2 ^ cfg.w) % 2 ^ cfg.w).toNat := by
  simp only [encFrac, roundMod_eq, Nat.cast_pow, Nat.cast_ofNat]

theorem encFloat_eq (cfg : Config) (lo hi b : Word) (k : Nat) :
    encFloat cfg lo hi b k =
      if cfg.fencQuant then
        (rtie cfg.realTie (frac (rangePosition lo hi b) * 2 ^ k) % 2 ^ k).toNat * 2 ^ (cfg.w - k)
      else (rtie cfg.realTie (frac (rangePosition lo hi b) * 2 ^ cfg.w) % 2 ^ cfg.w).toNat := by
  simp only [encFloat, encInt, Nat.mod_eq_of_lt (roundMod_lt _ _ _)]
  simp only [roundMod_eq, encFrac_eq, Nat.cast_pow, Nat.cast_ofNat]

/-! A completed encode's coefficient is the scalar command's (41_polynomial_codec.md R77) -/

theorem RaisesError.err {s t : State} (h : RaisesError s (.next t)) : t.status.err = true := by
  obtain ⟨e, -, he⟩ := h
  cases he
  rfl

theorem State.coeffs_commitTorus {s : State} {rd : Nat} (hrd : rd < s.cfg.npreg) (cs : List Coeff) :
    (s.commitTorus rd cs).coeffs rd = cs := by
  have h64 : rd < 64 := hrd.trans_le s.cfg.npreg_le
  exact State.coeffs_of_torus (p := ⟨cs⟩) (by rw [State.torus_commitTorus, if_pos ⟨rfl, h64⟩])

/-- Coefficient j committed from a sequence or from one copied element is what the one-element commit holds. -/
theorem coeffs_commit_scalar {α : Type} {s : State} {rd n j : Nat} {bcast : Bool} {es : List α} (f : α → Coeff)
    (hrd : rd < s.cfg.npreg) (hlen : es.length = elementCount bcast n) (hj : j < n) :
    (s.commitTorus rd ((spread false 1 [es[elementIndex bcast j]'(hlen ▸ elementIndex_lt hj)]).map f)).coeffs rd =
      [(s.commitTorus rd ((spread bcast n es).map f)).coeffAt rd j] := by
  have hj' : j < (spread bcast n es).length := by rwa [length_spread hlen]
  rw [State.coeffAt, State.coeffs_commitTorus hrd, State.coeffs_commitTorus hrd, ← getElem_spread hlen hj,
    List.getD_eq_getElem _ _ (by rwa [List.length_map]), List.getElem_map]
  rfl

/-- The words of one element of a sequence exist where those of the sequence do. -/
theorem element_fits {addr size cnt words i : Nat} (hi : i < cnt) (h : addr + cnt * size ≤ words) :
    addr + i * size + 1 * size ≤ words := by
  have hle : (i + 1) * size ≤ cnt * size := Nat.mul_le_mul_right size hi
  rw [Nat.add_assoc, ← Nat.add_mul]
  omega

section
variable {s t : State} {rd k n addr j : Nat} {bcast : Bool}

theorem tencI_of_pencI (hj : j < n) (h : exec (.pencI rd k bcast n addr) s = .next t) (ht : t.status.err = false) :
    ∃ u, exec (tencI rd k (addr + elementIndex bcast j * s.cfg.ew)) s = .next u ∧
      u.coeffs rd = [t.coeffAt rd j] := by
  change execPencI rd k bcast n addr s = .next t at h
  rcases execPencI_cases rd k bcast n addr s with he | hf | ⟨es, hrd, hk, -, haddr, -, hes, hok⟩
  · cases (RaisesError.err (h ▸ he)).symm.trans ht
  · cases hf.symm.trans h
  · cases hok.symm.trans h
    have hlen := (readElements_eq_some.1 hes).1
    have hidx := elementIndex_lt (bcast := bcast) hj
    exact ⟨_, exec_pencI_of_pass hrd hk s.cfg.nmax_pos (element_fits hidx haddr)
      (readElements_one hes (hlen ▸ hidx)), coeffs_commit_scalar _ hrd hlen hj⟩

theorem tencR_of_pencR (hj : j < n) (h : exec (.pencR rd bcast n addr) s = .next t) (ht : t.status.err = false) :
    ∃ u, exec (tencR rd (addr + elementIndex bcast j)) s = .next u ∧ u.coeffs rd = [t.coeffAt rd j] := by
  change execPencR rd bcast n addr s = .next t at h
  rcases execPencR_cases rd bcast n addr s with he | hf | ⟨bs, hrd, -, haddr, -, hbs, hfin, hok⟩
  · cases (RaisesError.err (h ▸ he)).symm.trans ht
  · cases hf.symm.trans h
  · cases hok.symm.trans h
    have hlen : bs.length = elementCount bcast n := by simpa using (readElements_eq_some.1 hbs).1
    have hidx := elementIndex_lt (bcast := bcast) hj
    exact ⟨_, exec_pencR_of_pass hrd s.cfg.nmax_pos ((Nat.add_lt_add_left hidx addr).trans_le haddr)
      (readElements_one_word hbs (hlen ▸ hidx)) (by simpa using hfin _ (List.getElem_mem _)),
      coeffs_commit_scalar _ hrd hlen hj⟩

theorem tencF_of_pencF (hj : j < n) (h : exec (.pencF rd k bcast n addr) s = .next t) (ht : t.status.err = false) :
    ∃ u, exec (tencF rd k (addr + elementIndex bcast j)) s = .next u ∧ u.coeffs rd = [t.coeffAt rd j] := by
  change execPencF rd k bcast n addr s = .next t at h
  rcases execPencF_cases rd k bcast n addr s with he | hf | ⟨bs, hrd, hk, -, hrange, haddr, -, hbs, hfin, hok⟩
  · cases (RaisesError.err (h ▸ he)).symm.trans ht
  · cases hf.symm.trans h
  · cases hok.symm.trans h
    have hlen : bs.length = elementCount bcast n := by simpa using (readElements_eq_some.1 hbs).1
    have hidx := elementIndex_lt (bcast := bcast) hj
    exact ⟨_, exec_pencF_of_pass hrd hk s.cfg.nmax_pos hrange ((Nat.add_lt_add_left hidx addr).trans_le haddr)
      (readElements_one_word hbs (hlen ▸ hidx)) (by simpa using hfin _ (List.getElem_mem _)),
      coeffs_commit_scalar _ hrd hlen hj⟩

end

end Sys2Proof.Machine

namespace Sys2Proof.Proofs

open Sys2Proof.Machine

/-- Settles O11: the checks pass, the elements read are those given, and each coefficient is EncInt of its
element. -/
theorem pencIResult : Obligations.PencIResult := by
  intro s rd k bcast n addr e hrd hk hn haddr he
  rw [exec_pencI_of_pass hrd hk hn haddr (readElements_range he), map_spread_range]
  rfl

/-- Settles O12: as PENC.I, with the elements finite and each coefficient EncReal of its element. -/
theorem pencRResult : Obligations.PencRResult := by
  intro s rd bcast n addr b hrd hn haddr hb
  obtain ⟨hbs, hfin⟩ := readElements_range_reals (cnt := elementCount bcast n) hb
  rw [exec_pencR_of_pass hrd hn haddr hbs hfin, map_spread_range]
  simp only [encReal, encFrac_eq]
  rfl

/-- Settles O13: as PENC.R, with a legal range and each coefficient EncFloat of its element. -/
theorem pencFResult : Obligations.PencFResult := by
  intro s rd k bcast n addr b hrd hk hn hlo hhi hlt haddr hb
  obtain ⟨hbs, hfin⟩ := readElements_range_reals (cnt := elementCount bcast n) hb
  rw [exec_pencF_of_pass hrd hk hn (rangeOK_eq_true.2 ⟨hlo, hhi, hlt⟩) haddr hbs hfin,
    map_spread_range]
  simp only [encFloat_eq, rangePosition]
  rfl

/-- Settles O56: each form for both values of B; the element of coefficient j is element j, or element 0 when
B = 1. -/
theorem batchEncodeMatchesScalar : Obligations.BatchEncodeMatchesScalar := by
  intro s t rd k n addr j hj
  refine ⟨tencI_of_pencI hj, tencR_of_pencR hj, tencF_of_pencF hj, fun h ht => ?_, tencR_of_pencR hj,
    tencF_of_pencF hj⟩
  simpa using tencI_of_pencI hj h ht

end Sys2Proof.Proofs
end

section
/-! The decode commands' results (41_polynomial_codec.md R73 to R76). -/

namespace Sys2Proof.Machine

open Sys2Proof.Claims

/-! PDEC.R and PDEC.F when every check passes (41_polynomial_codec.md R75, R76) -/

section
variable {s : State} {rs1 k addr : Nat} {cs : List Coeff}

/-- What the checks and the command read of a valid source. -/
theorem State.source_of_torus (hcs : s.torus rs1 = some ⟨cs⟩) :
    s.valid rs1 = true ∧ s.len rs1 = cs.length ∧ s.coeffs rs1 = cs := by
  have hcoeffs : s.coeffs rs1 = cs := State.coeffs_of_torus hcs
  exact ⟨by rw [State.valid, hcs]; rfl, by rw [State.len, hcoeffs], hcoeffs⟩

theorem exec_pdecR_of_pass (hrs : rs1 < s.cfg.npreg) (hk : k ≤ s.cfg.w) (hcs : s.torus rs1 = some ⟨cs⟩)
    (haddr : addr + cs.length ≤ s.cfg.spadWords) :
    exec (.pdecR rs1 k addr) s =
      .next (s.commitSpad addr 1 (cs.map fun c => (decReal s.cfg.w c k).toNat)) := by
  obtain ⟨hvalid, hlen, hcoeffs⟩ := State.source_of_torus hcs
  show execPdecR rs1 k addr s = _
  rw [execPdecR, checked_pass (by simp [registerCheck, modulusCheck, emptyCheck, addressCheck, *]), hcoeffs]

theorem exec_pdecF_of_pass (hrs : rs1 < s.cfg.npreg) (hk : k ≤ s.cfg.w)
    (hrange : rangeOK s.rangeLo s.rangeHi = true) (hcs : s.torus rs1 = some ⟨cs⟩)
    (haddr : addr + cs.length ≤ s.cfg.spadWords) :
    exec (.pdecF rs1 k addr) s =
      .next (s.commitSpad addr 1 (cs.map fun c => (decFloat s.cfg.w s.rangeLo s.rangeHi c k).toNat)) := by
  obtain ⟨hvalid, hlen, hcoeffs⟩ := State.source_of_torus hcs
  show execPdecF rs1 k addr s = _
  rw [execPdecF, checked_pass (by simp [registerCheck, modulusCheck, rangeCheck, emptyCheck, addressCheck, *]),
    hcoeffs]

/-! What committed elements leave (41_polynomial_codec.md R73) -/

/-- The memory after a decode's commit: each coefficient's element, and every other byte as it was. -/
theorem exists_mem_of_commitSpad {o : Result} {size : Nat} {f : Coeff → Nat}
    (h : o = .next (s.commitSpad addr size (cs.map f))) (hf : ∀ c, f c < 2 ^ (64 * size)) :
    ∃ m : Memory, o = .next (succeeded { s with mem := m }) ∧
      (∀ j, j < cs.length → spadRead m (addr + j * size) size = some (f (cs.getD j 0))) ∧
      ∀ a, (a < spadOffset addr ∨ spadOffset (addr + cs.length * size) ≤ a) → readByte m a = readByte s.mem a := by
  refine ⟨writeElements s.mem addr size (cs.map f), h, fun j hj => ?_, fun a ha => ?_⟩
  · rw [spadRead_writeElements _ _ _ _ (by simpa using hj), List.getElem_map, Nat.mod_eq_of_lt (hf _),
      List.getD_eq_getElem _ _ hj]
  · exact readByte_writeElements_outside (by rwa [List.length_map])

/-- The same for elements of one word. -/
theorem exists_mem_of_commitWords {o : Result} {f : Coeff → Word}
    (h : o = .next (s.commitSpad addr 1 (cs.map fun c => (f c).toNat))) :
    ∃ m : Memory, o = .next (succeeded { s with mem := m }) ∧
      (∀ j, j < cs.length → readWord m (addr + j) = some (f (cs.getD j 0)).toNat) ∧
      ∀ a, (a < spadOffset addr ∨ spadOffset (addr + cs.length) ≤ a) → readByte m a = readByte s.mem a := by
  simpa only [Nat.mul_one, spadRead_one] using exists_mem_of_commitSpad h fun c => (f c).isLt

end

end Sys2Proof.Machine

namespace Sys2Proof.Proofs

open Sys2Proof.Machine

/-- Settles O14: the committed elements are the DecInts, which EW words hold whole. -/
theorem pdecIResult : Obligations.PdecIResult := by
  intro s rs1 k addr cs hrs hk hcs haddr
  have hfits : ∀ c, decInt s.cfg.w c k < 2 ^ (64 * s.cfg.ew) := fun c => by
    rw [s.cfg.ew_mul]
    exact (decInt_lt _ c k).trans_le (Nat.pow_le_pow_right (by decide) hk)
  exact exists_mem_of_commitSpad (exec_pdecI_of_pass hrs hk hcs haddr) hfits

/-- Settles O15: the committed words are the DecReals. -/
theorem pdecRResult : Obligations.PdecRResult := by
  intro s rs1 k addr cs hrs hk hcs haddr
  obtain ⟨m, hexec, hwords, hframe⟩ := exists_mem_of_commitWords (exec_pdecR_of_pass hrs hk hcs haddr)
  refine ⟨m, hexec, fun j hj => ?_, hframe⟩
  rw [hwords j hj, decReal_eq, apply_ite BitVec.toNat]
  rfl

/-- Settles O16: the committed words are the DecFloats. -/
theorem pdecFResult : Obligations.PdecFResult := by
  intro s rs1 k addr cs hrs hk hlo hhi hlt hcs haddr
  obtain ⟨m, hexec, hwords, hframe⟩ :=
    exists_mem_of_commitWords (exec_pdecF_of_pass hrs hk (rangeOK_eq_true.2 ⟨hlo, hhi, hlt⟩) hcs haddr)
  refine ⟨m, hexec, fun j hj => ?_, hframe⟩
  rw [hwords j hj, decFloat, rangeValue_decInt]

end Sys2Proof.Proofs
end

section
/-! The laws of the ring commands' coefficient functions: sums and differences mod 2^W, the negacyclic product, and
what decoding does to them (42_ring_arith.md R79 to R84). -/

namespace Sys2Proof.Machine

/-! Sums and differences of raws (42_ring_arith.md R79, R80) -/

theorem addRaw_comm (w a b : Nat) : addRaw w a b = addRaw w b a := by rw [addRaw, addRaw, Nat.add_comm]

theorem addRaw_assoc (w a b c : Nat) : addRaw w (addRaw w a b) c = addRaw w a (addRaw w b c) := by
  simp only [addRaw, Nat.mod_add_mod, Nat.add_mod_mod, Nat.add_assoc]

theorem addRaw_cast (w a b : Nat) : (addRaw w a b : Int) = ((a : Int) + b) % 2 ^ w := by
  rw [addRaw]
  push_cast
  rfl

theorem subRaw_eq (w a b : Nat) : subRaw w a b = (((a : Int) - b) % 2 ^ w).toNat := by
  rw [subRaw, Nat.cast_pow, Nat.cast_ofNat]

theorem subRaw_cast (w a b : Nat) : (subRaw w a b : Int) = ((a : Int) - b) % 2 ^ w := by
  rw [subRaw_eq, Int.toNat_of_nonneg (Int.emod_nonneg _ (by positivity))]

theorem subRaw_eq_add_neg (w a b : Nat) : subRaw w a b = addRaw w a (subRaw w 0 b) := by
  refine Nat.cast_injective (R := Int) ?_
  rw [addRaw_cast, subRaw_cast, subRaw_cast, Int.add_emod_emod, Nat.cast_zero, zero_sub, sub_eq_add_neg]

@[simp] theorem subRaw_self (w a : Nat) : subRaw w a a = 0 := by simp [subRaw_eq]

/-- The sum of two EncInts is the EncInt of the sum mod 2^k. -/
theorem addRaw_encInt {w k : Nat} (hk : k ≤ w) (x y : Nat) :
    addRaw w (encInt w x k) (encInt w y k) = encInt w (addRaw k x y) k := by
  rw [addRaw, ← Nat.pow_sub_mul_pow 2 hk]
  simp only [encInt, Nat.mul_comm _ (2 ^ (w - k))]
  rw [← Nat.mul_add, Nat.mul_mod_mul_left, addRaw, ← Nat.add_mod, Nat.mod_mod]

/-- The difference of two EncInts is the EncInt of the difference mod 2^k. -/
theorem subRaw_encInt {w k : Nat} (hk : k ≤ w) (x y : Nat) :
    subRaw w (encInt w x k) (encInt w y k) = encInt w (subRaw k x y) k := by
  refine Nat.cast_injective (R := Int) ?_
  rw [subRaw_cast, ← pow_sub_mul_pow 2 hk]
  simp only [encInt, Nat.mul_comm _ (2 ^ (w - k))]
  push_cast
  rw [← mul_sub, Int.mul_emod_mul_of_pos _ _ (by positivity), subRaw_cast, ← Int.sub_emod, Int.emod_emod]

theorem decInt_encInt {w k : Nat} (hw : 0 < w) (hk : k ≤ w) (i : Nat) : decInt w (encInt w i k) k = i % 2 ^ k := by
  rw [encInt, decInt_mul_two_pow hw hk, Nat.mod_mod]

theorem decInt_zero_left {w : Nat} (hw : 0 < w) (k : Nat) : decInt w 0 k = 0 := by
  rw [decInt, Nat.zero_mul, Nat.zero_add, Nat.div_eq_of_lt (Nat.two_pow_pred_lt_two_pow hw), Nat.zero_mod]

/-- EncInt only scales a residue mod 2^k. -/
theorem encInt_emod (w : Nat) (z : Int) (k : Nat) :
    encInt w (z % 2 ^ k).toNat k = (z % 2 ^ k).toNat * 2 ^ (w - k) := by
  have hlt : (z % 2 ^ k).toNat < 2 ^ k := by exact_mod_cast emod_toNat_lt z k
  rw [encInt, Nat.mod_eq_of_lt hlt]

/-! The negacyclic product (42_ring_arith.md R81, R82) -/

theorem negaConv_eq (a b : List Nat) (k : Nat) :
    negaConv a b k =
      (List.range a.length).map fun i => ((∑ j ∈ Finset.range a.length, negaTerm a b i j) % 2 ^ k).toNat := by
  simp only [negaConv, Nat.cast_pow, Nat.cast_ofNat]
  rfl

/-- The terms up to i keep their sign, those beyond it are turned by X^N = -1. -/
theorem sum_negaTerm {a : List Nat} {i : Nat} (hi : i < a.length) (b : List Nat) :
    ∑ j ∈ Finset.range a.length, negaTerm a b i j =
      ∑ j ∈ Finset.range (i + 1), (a.getD j 0 : Int) * (b.getD (i - j) 0 : Int)
        - ∑ j ∈ Finset.Ico (i + 1) a.length, (a.getD j 0 : Int) * (b.getD (i + a.length - j) 0 : Int) := by
  rw [← Finset.sum_range_add_sum_Ico _ (Nat.succ_le_of_lt hi), sub_eq_add_neg, ← Finset.sum_neg_distrib]
  congr 1
  · exact Finset.sum_congr rfl fun j hj => if_pos (Nat.lt_succ_iff.1 (Finset.mem_range.1 hj))
  · exact Finset.sum_congr rfl fun j hj => if_neg (Nat.not_le.2 (Finset.mem_Ico.1 hj).1)

/-- Coefficient m of the integer convolution of two sequences of length N. -/
def convCoeff (a b : List Nat) (m : Nat) : Int :=
  ∑ p ∈ Finset.range a.length ×ˢ Finset.range a.length,
    if p.1 + p.2 = m then (a.getD p.1 0 : Int) * (b.getD p.2 0 : Int) else 0

theorem convCoeff_comm {a b : List Nat} (h : a.length = b.length) (m : Nat) : convCoeff a b m = convCoeff b a m := by
  rw [convCoeff, convCoeff, ← h, Finset.sum_product, Finset.sum_product_right]
  simp only [Nat.add_comm, Int.mul_comm]

/-- The one partner of p in coefficient m is m - p. -/
theorem sum_ite_add_eq (f : Nat → Int) (n p m : Nat) :
    ∑ q ∈ Finset.range n, (if p + q = m then f q else 0) = if p ≤ m ∧ m - p < n then f (m - p) else 0 := by
  have hpartner : ∀ q, (p + q = m) ↔ (m - p = q ∧ p ≤ m) := fun q => by omega
  simp only [hpartner, ite_and, Finset.sum_ite_eq, Finset.mem_range]
  by_cases hp : p ≤ m <;> simp [hp]

theorem sum_negaTerm_eq_fold {a : List Nat} {i : Nat} (hi : i < a.length) (b : List Nat) :
    ∑ j ∈ Finset.range a.length, negaTerm a b i j = convCoeff a b i - convCoeff a b (i + a.length) := by
  simp only [convCoeff, Finset.sum_product, sum_ite_add_eq, ← Finset.sum_sub_distrib]
  refine Finset.sum_congr rfl fun j hj => ?_
  have hj : j < a.length := Finset.mem_range.1 hj
  rw [negaTerm]
  by_cases hji : j ≤ i
  · rw [if_pos hji, if_pos (by omega), if_neg (by omega), sub_zero]
  · rw [if_neg hji, if_neg (by omega), if_pos (by omega), zero_sub]

/-- NegaConv folds the integer convolution through X^N = -1 (42_ring_arith.md R81). -/
theorem negaConv_eq_fold (a b : List Nat) (k : Nat) :
    negaConv a b k =
      (List.range a.length).map fun i => ((convCoeff a b i - convCoeff a b (i + a.length)) % 2 ^ k).toNat := by
  rw [negaConv_eq]
  exact List.map_congr_left fun i hi => by rw [sum_negaTerm_eq_fold (List.mem_range.1 hi)]

theorem negaConv_comm {a b : List Nat} (h : a.length = b.length) (k : Nat) : negaConv a b k = negaConv b a k := by
  rw [negaConv_eq_fold, negaConv_eq_fold, ← h]
  simp only [convCoeff_comm h]

theorem mulCoeffs_comm {w k : Nat} {a b : List Coeff} (h : a.length = b.length) :
    mulCoeffs w a b k = mulCoeffs w b a k := by
  rw [mulCoeffs, mulCoeffs, negaConv_comm (by simpa using h)]

/-- Projecting a sequence projects each coefficient; beyond the end both read 0. -/
theorem getD_map_decInt {w : Nat} (hw : 0 < w) (k : Nat) (a : List Coeff) (j : Nat) :
    (a.map (decInt w · k)).getD j 0 = decInt w (a.getD j 0) k := by
  simpa only [decInt_zero_left hw] using List.getD_map (l := a) (d := 0) (n := j) (decInt w · k)

/-- TMUL's coefficients written out: NegaConv's values are below 2^k, so EncInt only scales them. -/
theorem mulCoeffs_eq {w : Nat} (hw : 0 < w) (k : Nat) (a b : List Coeff) :
    mulCoeffs w a b k = (List.range a.length).map fun i =>
      ((∑ j ∈ Finset.range (i + 1), (decInt w (a.getD j 0) k : Int) * (decInt w (b.getD (i - j) 0) k : Int)
        - ∑ j ∈ Finset.Ico (i + 1) a.length,
            (decInt w (a.getD j 0) k : Int) * (decInt w (b.getD (i + a.length - j) 0) k : Int)) % 2 ^ k).toNat
        * 2 ^ (w - k) := by
  rw [mulCoeffs, negaConv_eq, List.map_map, List.length_map]
  refine List.map_congr_left fun i hi => ?_
  have hsum := sum_negaTerm (a := a.map (decInt w · k)) (i := i) (by simpa using hi) (b.map (decInt w · k))
  simp only [List.length_map, getD_map_decInt hw] at hsum
  rw [Function.comp_apply, hsum, encInt_emod]

/-! What decoding does to a sum (42_ring_arith.md R84) -/

/-- Three roundings of half a unit each leave less than two whole units, so at most one. -/
theorem abs_le_unit_of_three_halves {n : Int} {k : Nat} (h : |(n : Rat) / 2 ^ k| ≤ 3 * (1 / 2 ^ (k + 1))) :
    |(n : Rat) / 2 ^ k| ≤ 1 / 2 ^ k := by
  have hp : (0 : Rat) < 2 ^ k := by positivity
  rw [abs_div, abs_of_pos hp, pow_succ, div_le_iff₀ hp] at h
  rw [abs_div, abs_of_pos hp, div_le_div_iff_of_pos_right hp]
  have hcount : 3 * (1 / (2 ^ k * 2)) * 2 ^ k = (3 / 2 : Rat) := by field_simp
  have hlt : |(n : Rat)| < 2 := by linarith
  have hlt : |n| < 2 := by exact_mod_cast hlt
  exact_mod_cast (Int.lt_add_one_iff.1 hlt : |n| ≤ 1)

theorem val64_decReal_of_le {w raw k : Nat} (hk : k ≤ 53) : val64 (decReal w raw k) = decodedFrac w raw k :=
  val64_decReal_of_exact (val64_rne64_div_two_pow
    ((decInt_lt w raw k).trans_le (Nat.pow_le_pow_right two_pos hk)) (by omega))

/-- Wrapping a sum of raws moves its point of the circle by a whole turn. -/
theorem addRaw_point (w a b : Nat) :
    ∃ z : Int, (addRaw w a b : Rat) / 2 ^ w = (a : Rat) / 2 ^ w + (b : Rat) / 2 ^ w + z := by
  refine ⟨-(((a : Int) + b) / 2 ^ w), ?_⟩
  rw [cast_residue (addRaw_cast w a b)]
  push_cast
  field_simp
  ring

/-- Three roundings lie between the decoded sum and the sum of the decoded points. -/
theorem decodedFrac_addRaw_near {w : Nat} (hw : 0 < w) (a b k : Nat) :
    ∃ z : Int, |decodedFrac w (addRaw w a b) k - (decodedFrac w a k + decodedFrac w b k) - z| ≤
      3 * (1 / 2 ^ (k + 1)) := by
  obtain ⟨z, hz⟩ := decodedFrac_near hw (addRaw w a b) k
  obtain ⟨za, hza⟩ := decodedFrac_near hw a k
  obtain ⟨zb, hzb⟩ := decodedFrac_near hw b k
  obtain ⟨t, ht⟩ := addRaw_point w a b
  refine ⟨z - za - zb + t, ?_⟩
  rw [ht, abs_le] at hz
  rw [abs_le] at hza hzb ⊢
  push_cast
  constructor <;> linarith

/-- The distance is a whole number of units of 2^-k, so less than two units is at most one. -/
theorem torusDist_decodedFrac_addRaw {w : Nat} (hw : 0 < w) (a b k : Nat) :
    torusDist (decodedFrac w (addRaw w a b) k) (decodedFrac w a k + decodedFrac w b k) ≤ 1 / 2 ^ k := by
  obtain ⟨z, hz⟩ := decodedFrac_addRaw_near hw a b k
  have hunits : decodedFrac w (addRaw w a b) k - (decodedFrac w a k + decodedFrac w b k) - z =
      ((decInt w (addRaw w a b) k - (decInt w a k + decInt w b k) - z * 2 ^ k : Int) : Rat) / 2 ^ k := by
    push_cast
    field_simp
  refine (torusDist_le _ _ z).trans ?_
  rw [hunits] at hz ⊢
  exact abs_le_unit_of_three_halves hz

end Sys2Proof.Machine
end

section
/-! The ring commands: their results, and what swapped sources or another multiplier change (42_ring_arith.md R78 to
R84). -/

namespace Sys2Proof.Machine

open Sys2Proof.Claims

/-! TADD, TSUB and TMUL when every check passes (42_ring_arith.md R78) -/

section
variable {s : State} {rd rs1 rs2 : Nat} {a b : List Coeff} (hrd : rd < s.cfg.npreg) (hrs1 : rs1 < s.cfg.npreg)
  (hrs2 : rs2 < s.cfg.npreg) (ha : s.torus rs1 = some ⟨a⟩) (hb : s.torus rs2 = some ⟨b⟩) (hlen : a.length = b.length)
include hrd hrs1 hrs2 ha hb hlen

theorem exec_tadd_of_pass :
    exec (.tadd rd rs1 rs2) s = .next (s.commitTorus rd (List.zipWith (addRaw s.cfg.w) a b)) := by
  obtain ⟨hv1, hl1, hc1⟩ := State.source_of_torus ha
  obtain ⟨hv2, hl2, hc2⟩ := State.source_of_torus hb
  show execTadd rd rs1 rs2 s = _
  rw [execTadd, checked_pass (by simp [registerCheck, emptyCheck, sizeCheck, *]), hc1, hc2]

theorem exec_tsub_of_pass :
    exec (.tsub rd rs1 rs2) s = .next (s.commitTorus rd (List.zipWith (subRaw s.cfg.w) a b)) := by
  obtain ⟨hv1, hl1, hc1⟩ := State.source_of_torus ha
  obtain ⟨hv2, hl2, hc2⟩ := State.source_of_torus hb
  show execTsub rd rs1 rs2 s = _
  rw [execTsub, checked_pass (by simp [registerCheck, emptyCheck, sizeCheck, *]), hc1, hc2]

theorem exec_tmul_of_pass {k : Nat} (hk : k ≤ s.cfg.w) :
    exec (.tmul rd rs1 rs2 k) s = .next (s.commitTorus rd (mulCoeffs s.cfg.w a b k)) := by
  obtain ⟨hv1, hl1, hc1⟩ := State.source_of_torus ha
  obtain ⟨hv2, hl2, hc2⟩ := State.source_of_torus hb
  show execTmul rd rs1 rs2 k s = _
  rw [execTmul, checked_pass (by simp [registerCheck, modulusCheck, emptyCheck, sizeCheck, *]), hc1, hc2]

end

theorem zipWith_eq_map_range (f : Nat → Nat → Nat) {a b : List Nat} (h : a.length = b.length) :
    List.zipWith f a b = (List.range a.length).map fun j => f (a.getD j 0) (b.getD j 0) := by
  refine List.ext_getElem (by simp [h]) fun j hj _ => ?_
  rw [List.length_zipWith, ← h, Nat.min_self] at hj
  simp [hj, h ▸ hj]

/-! Swapped sources (42_ring_arith.md R84) -/

/-- What a command would perform counts only where its checks pass. -/
theorem checked_congr {s : State} {cs : List Check} {p q : Result} (h : (∀ c ∈ cs, c.2 = false) → p = q) :
    checked s cs p = checked s cs q := by
  unfold checked
  split
  · rfl
  · rename_i hnone
    exact h (firstFailing_eq_none.1 hnone)

theorem registerCheck_swap (s : State) (rd rs1 rs2 : Nat) :
    registerCheck s [rd, rs1, rs2] = registerCheck s [rd, rs2, rs1] := by
  simp [registerCheck, Bool.or_comm]

theorem emptyCheck_swap (s : State) (rs1 rs2 : Nat) : emptyCheck s [rs1, rs2] = emptyCheck s [rs2, rs1] := by
  simp [emptyCheck, Bool.or_comm]

theorem sizeCheck_swap (s : State) (rs1 rs2 : Nat) : sizeCheck s rs1 rs2 = sizeCheck s rs2 rs1 := by
  rw [sizeCheck, sizeCheck, bne_comm]

theorem sizeCheck_pass {s : State} {rs1 rs2 : Nat} (h : (sizeCheck s rs1 rs2).2 = false) :
    (s.coeffs rs1).length = (s.coeffs rs2).length := by simpa [sizeCheck, State.len] using h

theorem execTadd_swap (rd rs1 rs2 : Nat) (s : State) : execTadd rd rs1 rs2 s = execTadd rd rs2 rs1 s := by
  rw [execTadd, execTadd, registerCheck_swap, emptyCheck_swap, sizeCheck_swap,
    List.zipWith_comm_of_comm (addRaw_comm _)]

theorem execTmul_swap (rd rs1 rs2 k : Nat) (s : State) : execTmul rd rs1 rs2 k s = execTmul rd rs2 rs1 k s := by
  rw [execTmul, execTmul, registerCheck_swap, emptyCheck_swap, sizeCheck_swap]
  refine checked_congr fun hpass => ?_
  rw [mulCoeffs_comm (sizeCheck_pass (hpass (sizeCheck s rs2 rs1) (by simp))).symm]

/-! Another multiplier (42_ring_arith.md R83) -/

/-- The answer with its next state mapped. -/
def mapNext (f : State → State) : Result → Result
  | .next t => .next (f t)
  | .fault e => .fault e
  | .refused r => .refused r

section
variable {s : State} (m : MulImpl)

theorem checked_withMulImpl {cs : List Check} {p q : Result} (h : q = mapNext (withMulImpl m) p) :
    checked (withMulImpl m s) cs q = mapNext (withMulImpl m) (checked s cs p) := by
  unfold checked
  split
  · rfl
  · exact h

theorem withElements_withMulImpl {addr size cnt : Nat} {go go' : List Nat → Result}
    (h : ∀ es, go' es = mapNext (withMulImpl m) (go es)) :
    withElements (withMulImpl m s) addr size cnt go' = mapNext (withMulImpl m) (withElements s addr size cnt go) := by
  have hmem : readElements (withMulImpl m s).mem addr size cnt = readElements s.mem addr size cnt := rfl
  rw [withElements, withElements, hmem]
  cases readElements s.mem addr size cnt with
  | none => rfl
  | some es => exact h es

theorem withReals_withMulImpl {addr cnt : Nat} {go go' : List Word → Result}
    (h : ∀ bs, go' bs = mapNext (withMulImpl m) (go bs)) :
    withReals (withMulImpl m s) addr cnt go' = mapNext (withMulImpl m) (withReals s addr cnt go) :=
  withElements_withMulImpl m fun _ => checked_withMulImpl m (h _)

/-- No command reads MUL_IMPL: every check and every committed value is the same with either multiplier. -/
theorem exec_withMulImpl (i : Instr) : exec i (withMulImpl m s) = mapNext (withMulImpl m) (exec i s) := by
  cases i with
  | pencI => exact checked_withMulImpl m (withElements_withMulImpl m fun _ => rfl)
  | pencR => exact checked_withMulImpl m (withReals_withMulImpl m fun _ => rfl)
  | pencF => exact checked_withMulImpl m (withReals_withMulImpl m fun _ => rfl)
  | pdecI => exact checked_withMulImpl m rfl
  | pdecR => exact checked_withMulImpl m rfl
  | pdecF => exact checked_withMulImpl m rfl
  | tadd => exact checked_withMulImpl m rfl
  | tsub => exact checked_withMulImpl m rfl
  | tmul => exact checked_withMulImpl m rfl

end

end Sys2Proof.Machine

namespace Sys2Proof.Proofs

open Sys2Proof.Machine Sys2Proof.Claims

/-- Settles O17: the committed coefficients are the sums of the sources read before the command. -/
theorem taddResult : Obligations.TaddResult := by
  intro s rd rs1 rs2 a b hrd hrs1 hrs2 ha hb hlen
  rw [exec_tadd_of_pass hrd hrs1 hrs2 ha hb hlen, zipWith_eq_map_range _ hlen]
  rfl

/-- Settles O18: the same for the differences. -/
theorem tsubResult : Obligations.TsubResult := by
  intro s rd rs1 rs2 a b hrd hrs1 hrs2 ha hb hlen
  rw [exec_tsub_of_pass hrd hrs1 hrs2 ha hb hlen, zipWith_eq_map_range _ hlen]
  simp only [subRaw_eq]
  rfl

/-- Settles O19: the committed coefficients are the EncInts of the folded product. -/
theorem tmulResult : Obligations.TmulResult := by
  intro s rd rs1 rs2 k a b hrd hrs1 hrs2 hk ha hb hlen
  rw [exec_tmul_of_pass hrd hrs1 hrs2 ha hb hlen hk, mulCoeffs_eq s.cfg.w_pos]
  rfl

/-- Settles O44: exec commutes with a change of MUL_IMPL. -/
theorem mulImplNotObservable : Obligations.MulImplNotObservable := by
  intro s i m
  refine ⟨fun t ht => ?_, fun f hf => ?_⟩
  · rw [exec_withMulImpl, ht, mapNext]
  · rw [exec_withMulImpl, hf, mapNext]

/-- Settles O57: a pair (p, q) of coefficient i has p at most i, a pair of coefficient i + N has p above i. -/
theorem negaConvFoldsConvolution : Obligations.NegaConvFoldsConvolution := by
  intro a b k i _ hi
  rw [negaConv_eq_fold, List.getD_eq_getElem _ _ (by simpa using hi), List.getElem_map, List.getElem_range]
  rfl

/-- Settles O58: the checks are symmetric in the sources, and so is what is committed once they pass. -/
theorem addAndMulCommute : Obligations.AddAndMulCommute :=
  fun s rd rs1 rs2 k => ⟨execTadd_swap rd rs1 rs2 s, execTmul_swap rd rs1 rs2 k s⟩

/-- Settles O59: sums and differences of EncInts are EncInts of those mod 2^k, which decode exactly. -/
theorem rawRingLaws : Obligations.RawRingLaws := by
  intro cfg a b c x y k hk
  refine ⟨addRaw_assoc _ a b c, subRaw_eq_add_neg _ a b, subRaw_self _ a, ?_, ?_⟩
  · rw [addRaw_encInt hk, decInt_encInt cfg.w_pos hk, addRaw, Nat.mod_mod]
  · rw [subRaw_encInt hk, decInt_encInt cfg.w_pos hk, Nat.mod_eq_of_lt (subRaw_lt k x y), subRaw_cast]

/-- Settles O60: with k at most 53 DecReal is exact, and the three roundings' distances add up to less than two
units. -/
theorem decodedSumIsClose : Obligations.DecodedSumIsClose := by
  intro cfg a b k _ _ hk
  rw [val64_decReal_of_le hk, val64_decReal_of_le hk, val64_decReal_of_le hk]
  exact torusDist_decodedFrac_addRaw cfg.w_pos a b k

end Sys2Proof.Proofs
end

section
/-! The check order: which error, fault or success each command ends in (60_exceptions.md R87, R88). -/

namespace Sys2Proof.Machine

open Sys2Proof.Claims

/-! The checks of every command as one list -/

/-- The checks 2 to 8 in the order of 60_exceptions.md R87, each over the operands command `i` uses. -/
def checksOf (s : State) (i : Instr) : List Check :=
  [registerCheck s (registersUsed i),
    (.invalidModulus, (modulusUsed i).any fun k => (modulusCheck s k).2),
    (.lengthTooLarge, (lengthUsed i).any fun n => (lengthCheck s n).2),
    (.rangeMismatch, rangeUsed i && (rangeCheck s).2),
    emptyCheck s (sourcesUsed i),
    (.sizeMismatch, (ringSources i).any fun p => (sizeCheck s p.1 p.2).2),
    (.addressRange, (wordsUsed s i).any fun p => (addressCheck s p.1 p.2).2)]

open Classical in
/-- A check of the list fails exactly when its condition for passing does not hold (60_exceptions.md R87). -/
theorem checksOf_eq (s : State) (i : Instr) :
    checksOf s i =
      [(.invalidRegister, decide ¬RegistersExist s i), (.invalidModulus, decide ¬ModulusLegal s i),
        (.lengthTooLarge, decide ¬LengthFits s i), (.rangeMismatch, decide ¬RangeLegal s i),
        (.emptyRegister, decide ¬SourcesValid s i), (.sizeMismatch, decide ¬SizesMatch s i),
        (.addressRange, decide ¬AddressFits s i)] := by
  simp [checksOf, registerCheck, modulusCheck, lengthCheck, rangeCheck, emptyCheck, sizeCheck, addressCheck,
    List.any_eq, State.valid, RegistersExist, ModulusLegal, LengthFits, RangeLegal, SourcesValid, SizesMatch,
    AddressFits, ← rangeOK_eq_true]

theorem checksOf_pass_iff {s : State} {i : Instr} :
    (∀ c ∈ checksOf s i, c.2 = false) ↔ EarlierChecksPass s i := by
  simp [checksOf_eq, EarlierChecksPass]

/-! What follows the checks 2 to 8 -/

/-- What command `i` answers in `s` once its checks 2 to 8 pass: the fault of an unwritten input (log 1), the error of
check 9, or its end without error. -/
inductive Performs (i : Instr) (s : State) : Result → Prop
  | unwritten (hw : ¬InputsWritten s i) : Performs i s (.fault .unwrittenScratchpadRead)
  | nonFinite (hw : InputsWritten s i) (hf : ¬InputsFinite s i) : Performs i s (.next (s.raise .nonFiniteInput))
  | completed {t : State} (hw : InputsWritten s i) (hf : InputsFinite s i) (ht : t.status = s.status.succeeded) :
      Performs i s (.next t)

section
variable {i : Instr} {s : State} {o : Result}

theorem Performs.eq_fault (h : Performs i s o) (hw : ¬InputsWritten s i) : o = .fault .unwrittenScratchpadRead := by
  cases h with
  | unwritten => rfl
  | nonFinite hw' => exact absurd hw' hw
  | completed hw' => exact absurd hw' hw

theorem Performs.eq_raise (h : Performs i s o) (hw : InputsWritten s i) (hf : ¬InputsFinite s i) :
    o = .next (s.raise .nonFiniteInput) := by
  cases h with
  | unwritten hw' => exact absurd hw hw'
  | nonFinite => rfl
  | completed _ hf' => exact absurd hf' hf

theorem Performs.eq_completed (h : Performs i s o) (hw : InputsWritten s i) (hf : InputsFinite s i) :
    ∃ t, o = .next t ∧ t.status = s.status.succeeded := by
  cases h with
  | unwritten hw' => exact absurd hw hw'
  | nonFinite _ hf' => exact absurd hf hf'
  | completed _ _ ht => exact ⟨_, rfl, ht⟩

end

section
variable {i : Instr} {s : State} {addr size cnt : Nat}

/-- A command without inputs completes. -/
theorem Performs.of_no_inputs {t : State} (hin : inputWords s i = []) (ht : t.status = s.status.succeeded) :
    Performs i s (.next t) :=
  .completed (by simp [InputsWritten, hin]) (by simp [InputsFinite, hin]) ht

/-- The binary64 elements read are the input words (41_polynomial_codec.md R71, R72). -/
theorem inputsFinite_iff_of_readElements {es : List Nat} (hreal : realInputs i = true)
    (hin : inputWords s i = [(addr, cnt)]) (hes : readElements s.mem addr 1 cnt = some es) :
    InputsFinite s i ↔ ∀ e ∈ es, finite64 (BitVec.ofNat 64 e) = true := by
  obtain ⟨rfl, hread⟩ := readElements_eq_some.1 hes
  simp only [Nat.mul_one, spadRead_one] at hread
  simp only [InputsFinite, hreal, hin, List.mem_singleton, forall_eq, forall_const, List.forall_mem_iff_getElem]
  exact forall₂_congr fun j hj => by simp [hread j hj]

/-- Inputs are read, or an unwritten one faults (41_polynomial_codec.md R69; log 1). -/
theorem Performs.of_withElements {go : List Nat → Result} (hin : inputWords s i = [(addr, cnt * size)])
    (hgo : ∀ es, readElements s.mem addr size cnt = some es → InputsWritten s i → Performs i s (go es)) :
    Performs i s (withElements s addr size cnt go) := by
  have hwritten : InputsWritten s i ↔ (readElements s.mem addr size cnt).isSome = true := by
    simp [InputsWritten, hin, readElements_isSome]
  unfold withElements
  split
  case h_1 es hes => exact hgo es hes (hwritten.2 (by rw [hes]; rfl))
  case h_2 hnone => exact .unwritten (by simp [hwritten, hnone])

/-- Binary64 inputs meet check 9 once all are read (41_polynomial_codec.md R71, R72). -/
theorem Performs.of_withReals {go : List Word → Result} (hreal : realInputs i = true)
    (hin : inputWords s i = [(addr, cnt)]) (hgo : ∀ bs, ∃ t, go bs = .next t ∧ t.status = s.status.succeeded) :
    Performs i s (withReals s addr cnt go) := by
  refine .of_withElements (by rw [Nat.mul_one, hin]) fun es hes hw => ?_
  have hfinite := inputsFinite_iff_of_readElements hreal hin hes
  by_cases hf : InputsFinite s i
  · obtain ⟨t, hnext, ht⟩ := hgo (es.map (BitVec.ofNat 64))
    rw [checked_pass (by simpa [finiteCheck] using hfinite.1 hf), hnext]
    exact .completed hw hf ht
  · have hfail : finiteCheck (es.map (BitVec.ofNat 64)) = (.nonFiniteInput, true) := by
      simpa [finiteCheck, hfinite] using hf
    rw [hfail]
    exact .nonFinite hw hf

end

/-! Every command: its checks, then what it performs -/

theorem firstFailing_cons (c : Check) (cs : List Check) :
    firstFailing (c :: cs) = if c.2 = true then some c.1 else firstFailing cs := by
  obtain ⟨e, b⟩ := c
  cases b <;> rfl

theorem checked_congr_checks {s : State} {cs cs' : List Check} (h : firstFailing cs = firstFailing cs') (o : Result) :
    checked s cs o = checked s cs' o := by
  rw [checked, checked, h]

/-- Each meaning lists the checks of the operands it has; the others of `checksOf` cannot fail. -/
theorem exec_eq_checked (i : Instr) (s : State) : ∃ o, Performs i s o ∧ exec i s = checked s (checksOf s i) o := by
  cases i
  case' pencI =>
    refine ⟨_, .of_withElements rfl fun _ _ hw => .completed hw (by simp [InputsFinite, realInputs]) rfl,
      checked_congr_checks ?_ _⟩
  case' pencR | pencF => refine ⟨_, .of_withReals rfl rfl fun _ => ⟨_, rfl, rfl⟩, checked_congr_checks ?_ _⟩
  case' pdecI | pdecR | pdecF | tadd | tsub | tmul => refine ⟨_, .of_no_inputs rfl rfl, checked_congr_checks ?_ _⟩
  all_goals
    simp only [checksOf, emptyCheck, firstFailing_cons, registersUsed, modulusUsed, lengthUsed, rangeUsed, sourcesUsed,
      ringSources, wordsUsed, List.any_cons, List.any_nil, Bool.or_false, Bool.true_and, Bool.false_and,
      Bool.false_eq_true, if_false]
    rfl

/-- Once the checks 2 to 8 pass, the command answers what it performs. -/
theorem exec_of_pass {i : Instr} {s : State} (h : EarlierChecksPass s i) : Performs i s (exec i s) := by
  obtain ⟨o, ho, heq⟩ := exec_eq_checked i s
  rwa [heq, checked_pass (checksOf_pass_iff.2 h)]

/-- A fault says that the checks 2 to 8 pass and an input is unwritten. -/
theorem exec_fault {i : Instr} {s : State} {f : Fault} (h : exec i s = .fault f) :
    f = .unwrittenScratchpadRead ∧ EarlierChecksPass s i ∧ ¬InputsWritten s i := by
  obtain ⟨o, ho, heq⟩ := exec_eq_checked i s
  obtain ⟨hpass, rfl⟩ := checked_fault (heq.symm.trans h)
  cases ho with
  | unwritten hw => exact ⟨rfl, checksOf_pass_iff.1 hpass, hw⟩

theorem exec_ne_refused (i : Instr) (s : State) (r : Refusal) : exec i s ≠ .refused r := fun h => by
  cases h ▸ exec_answers i s

end Sys2Proof.Machine

namespace Sys2Proof.Proofs

open Sys2Proof.Machine Sys2Proof.Claims

/-- Settles O20: the premises of each clause say which entry of the command's list of checks fails first; check 9
comes with what is performed after them. -/
theorem errorsInCheckOrder : Obligations.ErrorsInCheckOrder := by
  refine ⟨fun s d => execute_of_decode_error, fun s i => execute_of_decode, fun s i => ?_⟩
  obtain ⟨o, -, heq⟩ := exec_eq_checked i s
  rw [checksOf_eq] at heq
  refine ⟨?_, ?_, ?_, ?_, ?_, ?_, ?_, fun hpass => (exec_of_pass hpass).eq_raise⟩
  all_goals
    intros
    simp [checked_cons, *]
    rfl

/-- Settles O21: with written and finite inputs, only the end without error is left. -/
theorem noErrorWithoutCause : Obligations.NoErrorWithoutCause := by
  intro s i hpass hw hf
  obtain ⟨t, hnext, ht⟩ := (exec_of_pass hpass).eq_completed hw hf
  exact ⟨t, hnext, by rw [ht]; rfl, by rw [ht]; rfl⟩

/-- Settles O22: what is performed faults where an input is unwritten, and no check faults. -/
theorem onlyUnwrittenReadsFault : Obligations.OnlyUnwrittenReadsFault :=
  fun s i => ⟨fun hpass => (exec_of_pass hpass).eq_fault, fun _ => exec_fault, exec_ne_refused i s⟩

/-- Settles O23: an Execute that ends with ERR = 1 has raised an error, which leaves the core IDLE. -/
theorem errorChangesOnlyStatus : Obligations.ErrorChangesOnlyStatus := by
  intro s t h herr
  rcases execute_ends h with ⟨e, -, rfl⟩ | ⟨-, hst, -⟩
  · exact ⟨rfl, fun hr c => hostAccess_writeAt_cmd_of_idle hr rfl c⟩
  · rw [hst] at herr
    cases herr

end Sys2Proof.Proofs
end

section
/-! Resets: the values they leave, and the turns of the host and of the core around them (10_state.md R31;
70_reset_and_hazards.md R100, R101). -/

namespace Sys2Proof.Machine

open Sys2Proof.Claims

@[simp] theorem Status.word_reset : Status.reset.word = 0 := by decide

/-- With `rst` at that level already, all that taking the level does is the reset. -/
theorem State.setRst_of_rst {s : State} {b : Bool} (h : s.rst = b) : s.setRst b = s.coreReset := by
  subst h
  rfl

theorem State.executeEnabled_of_idle {s : State} (h : s.status.busy = false) : s.executeEnabled = false := by
  rw [State.executeEnabled, h, Bool.false_and]

theorem State.executeEnabled_of_rst {s : State} (h : s.rst = true) : s.executeEnabled = false := by
  rw [State.executeEnabled, h, Bool.not_true, Bool.and_false]

/-- A CTRL write with SRESET resets, BUSY or not (10_state.md R27). -/
theorem hostAccess_writeAt_sreset {s : State} (hr : s.rst = false) {v : Word} (hv : v.getLsbD 0 = true) :
    hostAccess (writeAt 0x00018 v) s = .next (s.coreReset.respond .done) := by
  rw [hostAccess_writeAt_ctrl hr, State.writeCtrl, if_pos hv]
  rfl

theorem hostAccess_of_rst {s : State} (h : s.rst = true) (a : Access) :
    hostAccess a s = .fault .hostAccessDuringReset := if_pos h

end Sys2Proof.Machine

namespace Sys2Proof.Proofs

open Sys2Proof.Machine Sys2Proof.Claims

/-- Settles O30: SRESET leaves the reset state, which is IDLE, so Execute is not enabled; it is the state a release
of `rst` leaves, since `rst` is released already. -/
theorem softResetDiscardsPending : Obligations.SoftResetDiscardsPending := by
  intro s v hr hv
  have hrelease : takeTurn (.rst false) s = .next s.coreReset := congrArg _ (State.setRst_of_rst hr)
  have hidle : (s.coreReset.respond .done).executeEnabled = false := State.executeEnabled_of_idle rfl
  exact ⟨s.coreReset.respond .done, hostAccess_writeAt_sreset hr hv, s.torus_coreReset, rfl, Status.word_reset, rfl,
    rfl, rfl, rfl, hrelease, coreTurn_of_not_enabled hidle⟩

/-- Settles O31: each level of `rst` resets; while it is asserted a host access faults and Execute is not enabled. -/
theorem hardReset : Obligations.HardReset := by
  refine fun s => ⟨fun b => ?_, fun hr a t h => ?_, fun hr => ?_⟩
  · exact ⟨s.setRst b, rfl, rfl, s.torus_setRst b, rfl, Status.word_reset, rfl, rfl, rfl, rfl⟩
  · rw [hostAccess_of_rst hr] at h
    cases h
  · exact coreTurn_of_not_enabled (State.executeEnabled_of_rst hr)

end Sys2Proof.Proofs
end
